-- ==== Sys2Proof/Word.lean ====
section
/-! DEFINITION. The machine's words. Every register of the window is 32 bits (20_memory.md R61, R65); a command word's
`OP` and `CH` fields are 8 bits (30_encoding.md R80); a compare register has at most 16 bits (00_scope.md R7, R12). -/

namespace Sys2Proof

/-- A 32-bit register or operand (00_scope.md R12: `u32`; read as two's complement where a rule says s32). -/
abbrev Word := BitVec 32

/-- An 8-bit field of a word. -/
abbrev Byte := BitVec 8

/-- The value of a compare register: `uW`, at most 16 bits (00_scope.md R12). That an 8-bit channel's value is at
most 255 is part of the invariant R39(a). -/
abbrev Chunk := BitVec 16

/-- A channel id as a command word carries it (30_encoding.md R80). -/
abbrev ChannelId := BitVec 8

end Sys2Proof
end

