-- ==== Sys2Proof/Syntax.lean ====
section
/-! DEFINITION. The syntax of commands: one constructor for each row of spec/opcode_table.json (30_encoding.md R88). -/

namespace Sys2Proof

/-- The kind of channel that automatic selection may pick (30_encoding.md R80, R82): field `KIND` = 0, 1 or 2. -/
inductive Kind where
  | any
  | bits8
  | bits16
deriving DecidableEq, Repr

/-- What BIND and BIND_INTERVAL act on: an explicit channel id, or `AUTO` (`CH` = 0xFF) with a kind
(30_encoding.md R80, R82, R93). -/
inductive Target where
  | explicit (ch : ChannelId)
  | auto (kind : Kind)
deriving DecidableEq, Repr

/-- The nine commands (30_encoding.md R88). The numeric operands are not part of a command: they stand in the
operand registers (R83). -/
inductive Instr where
  /-- MAP, 40_frequency_mapper.md R122 -/
  | map (ch : ChannelId)
  /-- BIND, 42_host_commands.md R182; `hasArg` is bit `A`, `hasRepeat` bit `R` -/
  | bind (target : Target) (hasArg hasRepeat : Bool)
  /-- BIND_INTERVAL, 42_host_commands.md R188 -/
  | bindInterval (target : Target) (hasArg hasRepeat : Bool)
  /-- STOP, 42_host_commands.md R190 -/
  | stop (ch : ChannelId)
  /-- PAUSE, 42_host_commands.md R194 -/
  | pause (ch : ChannelId)
  /-- RESUME, 42_host_commands.md R195 -/
  | resume (ch : ChannelId)
  /-- RESTART, 42_host_commands.md R196; `hasDuration` is bit `D` -/
  | restart (ch : ChannelId) (hasDuration : Bool)
  /-- CHANGE_FREQUENCY, 42_host_commands.md R200 -/
  | changeFrequency (ch : ChannelId)
  /-- CHANGE_INTERVAL, 42_host_commands.md R201 -/
  | changeInterval (ch : ChannelId)
deriving DecidableEq, Repr

end Sys2Proof
end

