-- ==== Sys2Proof/WellFormed.lean ====
section
/-! DEFINITION. Which terms of `Instr` are commands: an explicit channel id is 0 to 254, because `CH` = 0xFF is
`AUTO` (30_encoding.md R80, R88, R89). The other constraints of R88 (`KIND` not 3, `KIND` only with `AUTO`, `A` and
`R` only where the row has them) hold by the shape of the type. -/

namespace Sys2Proof

/-- The value of `CH` that means automatic selection (30_encoding.md R80). -/
def autoId : ChannelId := 0xFF#8

/-- An explicit channel id: not `AUTO` (30_encoding.md R88, R89). -/
def ChannelId.isExplicit (ch : ChannelId) : Bool := ch != autoId

def Target.wellFormed : Target → Bool
  | .explicit ch => ChannelId.isExplicit ch
  | .auto _ => true

/-- The commands the encoding of 30_encoding.md R88 has a word for. -/
def Instr.wellFormed : Instr → Bool
  | .map ch => ChannelId.isExplicit ch
  | .bind target _ _ => target.wellFormed
  | .bindInterval target _ _ => target.wellFormed
  | .stop ch => ChannelId.isExplicit ch
  | .pause ch => ChannelId.isExplicit ch
  | .resume ch => ChannelId.isExplicit ch
  | .restart ch _ => ChannelId.isExplicit ch
  | .changeFrequency ch => ChannelId.isExplicit ch
  | .changeInterval ch => ChannelId.isExplicit ch

end Sys2Proof
end

