-- ==== Sys2Proof/Decode.lean ====
section
/-! DEFINITION. The decoder of command words, total on every 32-bit word (30_encoding.md R90), with a name for each
way a word is illegal (R89), and the encoder (R80, R88). Fields are pulled out of a word here and nowhere else. -/

namespace Sys2Proof

/-- Why a word is illegal, in the order R90 checks (30_encoding.md R89, R90). -/
inductive Illegal where
  /-- `RSV` (bits 31:20) is not zero -/
  | reservedBits
  /-- `OP` is 0x00 or 0x0A to 0xFF -/
  | opcode
  /-- `A` = 1 and the command is not BIND or BIND_INTERVAL -/
  | argumentFlag
  /-- `R` = 1 and the command is not BIND, BIND_INTERVAL or RESTART -/
  | repeatFlag
  /-- `KIND` = 3 -/
  | kindReserved
  /-- `KIND` is not 0 and the command is not an automatic BIND or BIND_INTERVAL -/
  | kindWithoutAuto
  /-- `CH` = 0xFF and the command is not BIND or BIND_INTERVAL -/
  | autoWithoutBind
deriving DecidableEq, Repr

/-- The nine operation codes (30_encoding.md R88). -/
inductive Opcode where
  | map | bind | bindInterval | stop | pause | resume | restart | changeFrequency | changeInterval
deriving DecidableEq, Repr

def Opcode.toByte : Opcode → Byte
  | .map => 0x01#8
  | .bind => 0x02#8
  | .bindInterval => 0x03#8
  | .stop => 0x04#8
  | .pause => 0x05#8
  | .resume => 0x06#8
  | .restart => 0x07#8
  | .changeFrequency => 0x08#8
  | .changeInterval => 0x09#8

def Opcode.all : List Opcode :=
  [.map, .bind, .bindInterval, .stop, .pause, .resume, .restart, .changeFrequency, .changeInterval]

/-- The operation of an `OP` field, if it has one (30_encoding.md R88, R89(2)). -/
def Opcode.ofByte (b : Byte) : Option Opcode := Opcode.all.find? fun o => o.toByte == b

/-- `isBind` of 30_encoding.md R90. -/
def Opcode.isBind : Opcode → Bool
  | .bind | .bindInterval => true
  | _ => false

/-- The operations bit 17 belongs to: `R` of the binds, `D` of RESTART (30_encoding.md R80, R90). -/
def Opcode.takesBit17 : Opcode → Bool
  | .bind | .bindInterval | .restart => true
  | _ => false

/-- The fields of a command word (30_encoding.md R81): `OP`, `CH`, `A`, `R`, `KIND`, `RSV`. -/
structure Fields where
  op : Byte
  ch : ChannelId
  a : Bool
  r : Bool
  kind : BitVec 2
  rsv : BitVec 12
deriving DecidableEq, Repr

/-- Field extraction, 30_encoding.md R81. -/
def Fields.ofWord (w : Word) : Fields :=
  { op := w.extractLsb' 0 8, ch := w.extractLsb' 8 8, a := w.getLsbD 16, r := w.getLsbD 17,
    kind := w.extractLsb' 18 2, rsv := w.extractLsb' 20 12 }

/-- A field put into its place in a word: bit 0 of the field at bit `lo` (00_scope.md R11). -/
def placed {n : Nat} (lo : Nat) (v : BitVec n) : Word := v.setWidth 32 <<< lo

/-- A one-bit field put into its place in a word (00_scope.md R11). -/
def placedBit (lo : Nat) (b : Bool) : Word := placed lo (BitVec.ofBool b)

/-- The word with the given fields, the inverse of `Fields.ofWord` (30_encoding.md R80). -/
def Fields.toWord (f : Fields) : Word :=
  placed 20 f.rsv ||| placed 18 f.kind ||| placedBit 17 f.r ||| placedBit 16 f.a ||| placed 8 f.ch ||| placed 0 f.op

/-- The meaning of `KIND` 0, 1 and 2; 3 is reserved (30_encoding.md R80). -/
def Kind.ofBits (b : BitVec 2) : Option Kind :=
  if b = 0#2 then some .any else if b = 1#2 then some .bits8 else if b = 2#2 then some .bits16 else none

def Kind.toBits : Kind → BitVec 2
  | .any => 0#2
  | .bits8 => 1#2
  | .bits16 => 2#2

/-- The target that `CH` and `KIND` name (30_encoding.md R80, R82). -/
def Target.ofFields (ch : ChannelId) (kind : Kind) : Target :=
  if ch = autoId then .auto kind else .explicit ch

/-- The command of an operation whose word has passed every check of R90. -/
def Opcode.command (o : Opcode) (f : Fields) (kind : Kind) : Instr :=
  match o with
  | .map => .map f.ch
  | .bind => .bind (Target.ofFields f.ch kind) f.a f.r
  | .bindInterval => .bindInterval (Target.ofFields f.ch kind) f.a f.r
  | .stop => .stop f.ch
  | .pause => .pause f.ch
  | .resume => .resume f.ch
  | .restart => .restart f.ch f.r
  | .changeFrequency => .changeFrequency f.ch
  | .changeInterval => .changeInterval f.ch

/-- The checks of 30_encoding.md R90 in their order, on a word's fields. -/
def decodeFields (f : Fields) : Except Illegal Instr :=
  if f.rsv ≠ 0#12 then .error .reservedBits
  else match Opcode.ofByte f.op with
    | none => .error .opcode
    | some o =>
      if f.a = true ∧ o.isBind = false then .error .argumentFlag
      else if f.r = true ∧ o.takesBit17 = false then .error .repeatFlag
      else match Kind.ofBits f.kind with
        | none => .error .kindReserved
        | some kind =>
          if f.kind ≠ 0#2 ∧ ¬ (o.isBind = true ∧ f.ch = autoId) then .error .kindWithoutAuto
          else if f.ch = autoId ∧ o.isBind = false then .error .autoWithoutBind
          else .ok (o.command f kind)

/-- `decode` of 30_encoding.md R90: every word is one command or illegal (R91). -/
def decode (w : Word) : Except Illegal Instr := decodeFields (Fields.ofWord w)

/-! ### The encoder (30_encoding.md R80, R88) -/

/-- The word of an operation on an explicit channel, `RSV` and `KIND` zero. -/
def encodeOn (o : Opcode) (ch : ChannelId) (a r : Bool) : Word :=
  Fields.toWord { op := o.toByte, ch := ch, a := a, r := r, kind := 0#2, rsv := 0#12 }

/-- The word of a BIND or BIND_INTERVAL: `AUTO` puts 0xFF in `CH` and the kind in `KIND` (30_encoding.md R82). -/
def encodeBind (o : Opcode) (target : Target) (a r : Bool) : Word :=
  match target with
  | .explicit ch => encodeOn o ch a r
  | .auto kind =>
    Fields.toWord { op := o.toByte, ch := autoId, a := a, r := r, kind := kind.toBits, rsv := 0#12 }

/-- The command word of a command (30_encoding.md R88, R93). -/
def encode : Instr → Word
  | .map ch => encodeOn .map ch false false
  | .bind target a r => encodeBind .bind target a r
  | .bindInterval target a r => encodeBind .bindInterval target a r
  | .stop ch => encodeOn .stop ch false false
  | .pause ch => encodeOn .pause ch false false
  | .resume ch => encodeOn .resume ch false false
  | .restart ch d => encodeOn .restart ch false d
  | .changeFrequency ch => encodeOn .changeFrequency ch false false
  | .changeInterval ch => encodeOn .changeInterval ch false false

/-- The columns "match" and "mask" of a command's row (30_encoding.md R88). -/
def Instr.tableRow : Instr → Word × Word
  | .map _ => (0x00000001#32, 0xFFFF00FF#32)
  | .bind _ _ _ => (0x00000002#32, 0xFFF000FF#32)
  | .bindInterval _ _ _ => (0x00000003#32, 0xFFF000FF#32)
  | .stop _ => (0x00000004#32, 0xFFFF00FF#32)
  | .pause _ => (0x00000005#32, 0xFFFF00FF#32)
  | .resume _ => (0x00000006#32, 0xFFFF00FF#32)
  | .restart _ _ => (0x00000007#32, 0xFFFD00FF#32)
  | .changeFrequency _ => (0x00000008#32, 0xFFFF00FF#32)
  | .changeInterval _ => (0x00000009#32, 0xFFFF00FF#32)

/-! ### The host's numbering of a table word -/

/-- The command word whose low `nbits` bits are those of `w`, numbered as spec/opcode_table.json numbers them, the
bits above zero. A command is one whole 32-bit word written to `CMD` (30_encoding.md R80, R92), so no byte order
enters (20_memory.md R63). -/
def tableWord (nbits w : Nat) : Word := BitVec.ofNat 32 (w % 2 ^ nbits)

/-- The command this decoder reads from a table word, `none` where the word is illegal. -/
def decodeTableWord (nbits w : Nat) : Option Instr :=
  match decode (tableWord nbits w) with
  | .ok i => some i
  | .error _ => none

end Sys2Proof
end

