-- ==== Sys2Proof/Config.lean ====
section
/-! DEFINITION. The implementation parameters of 00_scope.md R7, the fixed constants of R8, and the example
configuration of R10. The parameters are OPEN: a state carries the parameters it was built with (Machine/State.lean),
no step writes them, and statements hold for every valid choice (log 3). -/

namespace Sys2Proof

/-- `counterWidthBits` of a channel: 8 or 16 (00_scope.md R7). -/
inductive CounterWidth where
  | w8
  | w16
deriving DecidableEq, Repr

/-- `WIDTH[ch]` as a number. -/
def CounterWidth.bits : CounterWidth → Nat
  | .w8 => 8
  | .w16 => 16

/-- `CM[ch]` = 2^`WIDTH[ch]` - 1: 255 or 65535 (00_scope.md R7, R8). -/
def CounterWidth.counterMax : CounterWidth → Nat
  | .w8 => 255
  | .w16 => 65535

/-- The parameters of one channel: `WIDTH[ch]` and the divider table `DIVS[ch]` (00_scope.md R7). -/
structure ChannelParams where
  width : CounterWidth
  divs : List Nat
deriving DecidableEq, Repr

/-- The bounds of 00_scope.md R7 on a channel's parameters: 1 to 8 dividers, strictly increasing, each 1 to 65535. -/
abbrev ChannelParams.valid (p : ChannelParams) : Prop :=
  1 ≤ p.divs.length ∧ p.divs.length ≤ 8 ∧ p.divs.Pairwise (· < ·) ∧ ∀ d ∈ p.divs, 1 ≤ d ∧ d ≤ 65535

/-- The parameters of the block: `CLK_HZ` and, for each channel id, the channel's parameters; `NUM_CHANNELS` is the
number of entries (00_scope.md R7). -/
structure Params where
  clkHz : Nat
  channels : List ChannelParams
deriving DecidableEq, Repr

/-- The bounds of 00_scope.md R7 on the parameters. -/
abbrev Params.valid (p : Params) : Prop :=
  (1 ≤ p.clkHz ∧ p.clkHz ≤ 2 ^ 32 - 1) ∧ (1 ≤ p.channels.length ∧ p.channels.length ≤ 255) ∧
    ∀ c ∈ p.channels, c.valid

/-! ### Fixed constants (00_scope.md R8) -/

/-- `GUARD` = 17179.840 is the rational 429496/25 (00_scope.md R8): its numerator. -/
def guardNum : Nat := 429496

/-- The denominator of `GUARD`. -/
def guardDen : Nat := 25

/-- `CHAIN_LIMIT` (00_scope.md R8). -/
def chainLimit : Nat := 16384

/-- The largest value of a 32-bit tick counter (`ACC_WIDTH` = 32, 00_scope.md R8). -/
def accMax : Nat := 2 ^ 32 - 1

/-! ### Example tables and configuration (00_scope.md R9, R10) -/

/-- `DIV16` (00_scope.md R9). -/
def div16 : List Nat := [1, 8, 64, 256, 1024]

/-- `DIV8` (00_scope.md R9). -/
def div8 : List Nat := [1, 8, 32, 64, 128, 256, 1024]

/-- The TCB-style channel: a one-entry table [`DTCB`] (00_scope.md R9), paired with the width given. -/
def ChannelParams.tcb (width : CounterWidth) (dtcb : Nat) : ChannelParams := { width := width, divs := [dtcb] }

/-- The example configuration `EX` (00_scope.md R10). DESIGN CHOICE: the reset state is built with it (log 3). -/
def Params.ex : Params :=
  { clkHz := 16000000,
    channels := [{ width := .w16, divs := div16 }, { width := .w8, divs := div8 }, ChannelParams.tcb .w16 2] }

/-- `TFM_BASE`, the platform's base address of the register window: OPEN (20_memory.md R60), so a constant with no
body (log 4). -/
opaque Config.tfmBase : Nat

end Sys2Proof
end

