-- ==== Sys2Proof/Machine/State.lean ====
section
/-! DEFINITION. The state of the block (10_state.md R20): the global registers, one record per channel, the event
history, and the model's own two fields (the agents' actions still to come, what host reads returned). All of it is
plain data. -/

namespace Sys2Proof.Machine

/-- The state of one channel: the fields of 10_state.md R27, and the channel's parameters `cfg`, which R37 says the
channel exposes and no command changes. `channelId` is the channel's index. -/
structure Channel where
  /-- `WIDTH[ch]` and `DIVS[ch]` (R37): constant -/
  cfg : ChannelParams
  /-- `CALLBACK` (R28): the opaque handle, 0 is null and the channel is then free -/
  callback : Word
  /-- `HASARG` (R29) -/
  hasArg : Bool
  /-- `ARG` (R29) -/
  arg : Word
  /-- `DIVIDER` (R30): 0 when free -/
  divider : Word
  /-- `FULLTICKS` (R31) -/
  fullTicks : Word
  /-- `REMAINING` (R32): ticks of the period not yet programmed -/
  remaining : Word
  /-- `REPEATS` (R33): two's complement, negative is forever -/
  repeats : Word
  /-- `DONE` (R35) -/
  done : Bool
  /-- `ENABLED` (R34) -/
  enabled : Bool
  /-- `PAUSED` (R34) -/
  paused : Bool
  /-- `PENDING` (R34) -/
  pending : Bool
  /-- `CMP` (R34): the chunk in flight -/
  cmp : Chunk
  /-- `FREQNUM` (R36) -/
  freqNum : Word
  /-- `FREQDEN` (R36) -/
  freqDen : Word
deriving DecidableEq, Repr

/-- The free channel: every field of R27 at its reset value (10_state.md R42, R39(c)). -/
def Channel.free (cfg : ChannelParams) : Channel :=
  { cfg := cfg, callback := 0#32, hasArg := false, arg := 0#32, divider := 0#32, fullTicks := 0#32, remaining := 0#32, repeats := 0#32,
    done := false, enabled := false, paused := false, pending := false, cmp := 0#16, freqNum := 0#32, freqDen := 0#32 }

/-- The port actions of the peripheral interface (10_state.md R34). -/
inductive PortOp where
  | configure (divider : Word) (chunk : Chunk)
  | armNextChunk (chunk : Chunk)
  | enableInterrupt
  | disableInterrupt
  | clearPendingFlag
  | gateClock
  | ungateClock
deriving DecidableEq, Repr

/-- What one channel's procedures emit, before the channel's id is put to it. -/
inductive Emission where
  /-- `emit Port(ch).op(args)` (00_scope.md R13) -/
  | port (op : PortOp)
  /-- `emit Callback(ch, handle, hasArg, arg)` (00_scope.md R13, 41_interval_runner.md R152) -/
  | callback (handle : Word) (hasArg : Bool) (arg : Word)
deriving DecidableEq, Repr

/-- One entry of the event history (00_scope.md R14). -/
inductive Event where
  /-- a port action or a callback event of channel `ch` -/
  | channel (ch : Nat) (e : Emission)
  /-- a command completion `Done(cmdword, RESULT)` -/
  | done (cmdword result : Word)
deriving DecidableEq, Repr

/-- One action of an agent of the machine (00_scope.md R6): the host's accesses (20_memory.md R62), the peripheral's
ELAPSE, the dispatcher's TICK, and a reset of the block from outside (70_reset_and_hazards.md R260). -/
inductive Action where
  | memRead (off width : Nat)
  | memWrite (off width : Nat) (value : Word)
  | elapse (ch : Nat)
  | tick (ch : Nat)
  | reset
deriving DecidableEq, Repr

/-- What a host read returned: the offset read and the value (20_memory.md R62). -/
structure ReadReply where
  off : Nat
  value : Word
deriving DecidableEq, Repr

/-- The whole state (10_state.md R20). `clkHz` and each channel's `cfg` are parameters, which no step writes. -/
structure State where
  /-- `CLK_HZ` (00_scope.md R7): constant -/
  clkHz : Nat
  /-- one record per channel id; `NUM_CHANNELS` is the length (R20, R27) -/
  channels : List Channel
  /-- `OPA` to `OPE` (R22) -/
  opa : Word
  opb : Word
  opc : Word
  opd : Word
  ope : Word
  /-- `CMD` (R23) -/
  cmd : Word
  /-- `RESULT` (R24) -/
  result : Word
  /-- `MAPDIV` and `MAPTICKS` (R25) -/
  mapDiv : Word
  mapTicks : Word
  /-- the event history, oldest first (00_scope.md R14) -/
  history : List Event
  /-- MODEL's field, not the spec's: the agents' actions still to come, oldest first (log 1) -/
  schedule : List Action
  /-- MODEL's field, not the spec's: what the host's reads returned, oldest first (log 2) -/
  reads : List ReadReply
deriving DecidableEq, Repr

/-- The block has no fault: "No behaviour of the block is treated as `fault` or `stuck`"
(93_implementation_defined.md part 1; 60_exceptions.md R237). So this type has no constructor, and no step faults. -/
inductive Fault where
deriving DecidableEq, Repr

/-- Why a step is refused. -/
inductive Refusal where
  /-- Raised by an arm of `exec` whose instruction has no meaning yet: there is none. Safe: nothing is claimed. -/
  | notModelled (mnemonic : String)
  /-- Raised by a host access whose width is not 4 (20_memory.md R62: a model refuses it). Safe: the spec gives such
  an access no meaning. -/
  | accessWidth (width : Nat)
  /-- Raised by a host access at an offset that is no multiple of 4 (20_memory.md R62). Safe, as above. -/
  | misalignedOffset (off : Nat)
  /-- Raised by a host access at or beyond offset 0x8000 (20_memory.md R62). Safe, as above. -/
  | outsideWindow (off : Nat)
deriving DecidableEq, Repr

/-- The outcome of a command or a step. -/
abbrev Result := Host.Outcome State Fault Refusal

/-- The parameters a state was built with (00_scope.md R7). -/
def State.params (s : State) : Params := { clkHz := s.clkHz, channels := s.channels.map Channel.cfg }

/-- The state after reset of a block with the given parameters (10_state.md R42, 70_reset_and_hazards.md R260):
every channel free, every register 0, the event history empty. -/
def State.resetWith (p : Params) : State :=
  { clkHz := p.clkHz, channels := p.channels.map Channel.free,
    opa := 0#32, opb := 0#32, opc := 0#32, opd := 0#32, ope := 0#32, cmd := 0#32, result := 0#32, mapDiv := 0#32, mapTicks := 0#32,
    history := [], schedule := [], reads := [] }

/-- The machine right after reset, with the example configuration `EX` (00_scope.md R10). DESIGN CHOICE: the
parameters are OPEN and this one state needs some (log 3). -/
def State.reset : State := State.resetWith Params.ex

end Sys2Proof.Machine
end

