-- ==== Sys2Proof/Machine/Operands.lean ====
section
/-! DEFINITION. Where a command's numeric operands come from (30_encoding.md R83 to R87) and the conversions of an
interval to a frequency (40_frequency_mapper.md R123) and of a duration to a repeat count (42_host_commands.md R197).
Every operand is taken whole from an operand register at the moment `CMD` is written. -/

namespace Sys2Proof.Machine

/-- A frequency: the exact rational `num / den` Hz (30_encoding.md R84). -/
structure Freq where
  num : Word
  den : Word
deriving DecidableEq, Repr

/-- `IntervalToFreq(m) = (1000, m)` (40_frequency_mapper.md R123). -/
def intervalToFreq (millis : Word) : Freq := { num := 1000#32, den := millis }

/-- The frequency operand `OPA / OPB` of MAP, BIND and CHANGE_FREQUENCY (30_encoding.md R84, R87). -/
def freqOperand (s : State) : Freq := { num := s.opa, den := s.opb }

/-- The interval operand `OPA` in milliseconds of BIND_INTERVAL and CHANGE_INTERVAL, as a frequency
(30_encoding.md R85, R87; 40_frequency_mapper.md R123). -/
def intervalOperand (s : State) : Freq := intervalToFreq s.opa

/-- The callback handle `OPC` (30_encoding.md R86). -/
def handleOperand (s : State) : Word := s.opc

/-- The callback argument: `OPD` when `A` = 1, else 0 (30_encoding.md R86, 42_host_commands.md R186). -/
def argOperand (hasArg : Bool) (s : State) : Word := bif hasArg then s.opd else 0#32

/-- The forever sentinel the block itself writes: -1 (10_state.md R33). -/
def forever : Word := 0xFFFFFFFF#32

/-- The repeat count: `OPE` when `R` = 1, else forever (30_encoding.md R86, 42_host_commands.md R185). -/
def repeatOperand (hasRepeat : Bool) (s : State) : Word := bif hasRepeat then s.ope else forever

/-- `DurationToRepeats(ms, n, d)` (42_host_commands.md R197), exact with floor division, clamped at 2^31 - 1. -/
def durationToRepeats (millis : Word) (f : Freq) : Word :=
  if millis = 0#32 then forever
  else BitVec.ofNat 32 (min (2 ^ 31 - 1) (millis.toNat * f.num.toNat / (1000 * f.den.toNat)))

/-- The repeat count RESTART writes: from the duration `OPA` when `D` = 1, else unchanged
(42_host_commands.md R196). -/
def restartRepeats (hasDuration : Bool) (s : State) (k : Channel) : Word :=
  bif hasDuration then durationToRepeats s.opa { num := k.freqNum, den := k.freqDen } else k.repeats

end Sys2Proof.Machine
end

