-- ==== Sys2Proof/Machine/Mapper.lean ====
section
/-! DEFINITION. The FrequencyMapper (40_frequency_mapper.md R110 to R121): a pure function of the frequency and the
channel's parameters, exact on integers. -/

namespace Sys2Proof.Machine

/-- Why the mapper rejects (40_frequency_mapper.md R119). The host sees `RejectedFrequency` for each
(60_exceptions.md R232). -/
inductive RejectReason where
  | zeroOperand
  | belowGuard
  | noFit
  | tooHigh
deriving DecidableEq, Repr

/-- The mapper's output: `Ok(div, ticks)` or `Reject(reason)` (40_frequency_mapper.md R111). -/
inductive MapResult where
  | ok (div ticks : Nat)
  | reject (reason : RejectReason)
deriving DecidableEq, Repr

/-- `T` at a divider (40_frequency_mapper.md R114): `(CLK_HZ * fDen) // (fNum * div) - 1`, unbounded, -1 possible. -/
def ticksAt (clkHz : Nat) (f : Freq) (div : Nat) : Int :=
  ((clkHz * f.den.toNat / (f.num.toNat * div) : Nat) : Int) - 1

/-- The guard's test "f * 17179.840 < 1" on integers (40_frequency_mapper.md R113). -/
def belowGuard (f : Freq) : Bool := decide (guardNum * f.num.toNat < guardDen * f.den.toNat)

/-- `T` fits the 32-bit accumulator (40_frequency_mapper.md R115). -/
def fitsAccumulator (clkHz : Nat) (f : Freq) (div : Nat) : Bool := decide (ticksAt clkHz f div ≤ (accMax : Int))

/-- The chain test `T < 16384 * CM` (40_frequency_mapper.md R116). -/
def chainFits (clkHz : Nat) (p : ChannelParams) (f : Freq) (div : Nat) : Bool :=
  decide (ticksAt clkHz f div < ((chainLimit * p.width.counterMax : Nat) : Int))

/-- The divider chosen from the part of the table that begins at the start index: the first that passes the chain
test (40_frequency_mapper.md R116), or the table's largest (R117). -/
def chooseDivider (clkHz : Nat) (p : ChannelParams) (f : Freq) (first : Nat) (rest : List Nat) : Nat :=
  match (first :: rest).find? (chainFits clkHz p f) with
  | some d => d
  | none => rest.getLastD first

/-- `Map(ch, fNum, fDen)` (40_frequency_mapper.md R119), the checks in the order written there. -/
def mapFrequency (clkHz : Nat) (p : ChannelParams) (f : Freq) : MapResult :=
  if f.num = 0#32 ∨ f.den = 0#32 then .reject .zeroOperand
  else if belowGuard f = true then .reject .belowGuard
  else match p.divs.dropWhile (fun d => !fitsAccumulator clkHz f d) with
    | [] => .reject .noFit
    | first :: rest =>
      let d := chooseDivider clkHz p f first rest
      if ticksAt clkHz f d < 0 then .reject .tooHigh else .ok d (ticksAt clkHz f d).toNat

end Sys2Proof.Machine
end

