-- ==== Sys2Proof/Machine/Flags.lean ====
section
/-! DEFINITION. The one-bit conditions of a channel and the words that pack them: bound and free (10_state.md R28),
`DONE` (R35), the enabling conditions of ELAPSE and TICK (41_interval_runner.md R145, R148), `CH_STATUS` and
`CH_CONFIG` (R38), `CONFIG` (R26), `RESULT` (R24) with the status codes of 60_exceptions.md R230. -/

namespace Sys2Proof.Machine

/-- A channel is bound exactly when `CALLBACK` is not 0 (10_state.md R28). -/
def Channel.bound (k : Channel) : Bool := k.callback != 0#32

/-- The value `DONE` takes when `REMAINING` is written: `REMAINING` = 0 (41_interval_runner.md R141, R157). -/
def doneFlag (remaining : Word) : Bool := remaining == 0#32

/-- `REPEATS` = 0: exhausted at the next TICK (10_state.md R33, 41_interval_runner.md R150). -/
def Channel.exhausted (k : Channel) : Bool := k.repeats == 0#32

/-- A repeat count after a callback: a positive one is decremented, a negative one is forever and stays
(41_interval_runner.md R153). -/
def countAfterCallback (repeats : Word) : Word := if 0 < repeats.toInt then repeats - 1#32 else repeats

/-- ELAPSE is enabled (41_interval_runner.md R145): bound, enabled, not paused, nothing pending. -/
def Channel.elapseEnabled (k : Channel) : Bool := k.bound && k.enabled && !k.paused && !k.pending

/-- TICK is enabled (41_interval_runner.md R148): an event is pending and the interrupt is enabled. -/
def Channel.tickEnabled (k : Channel) : Bool := k.pending && k.enabled

/-- Bit `W16` of `CH_STATUS` (10_state.md R38). -/
def Channel.is16 (k : Channel) : Bool := k.cfg.width == .w16

/-- `CH_STATUS` (10_state.md R38): bit 0 `BOUND`, 1 `ENABLED`, 2 `PAUSED`, 3 `DONE`, 4 `PENDING`, 5 `HASARG`,
6 `W16`, the rest zero. -/
def Channel.statusWord (k : Channel) : Word :=
  placedBit 6 k.is16 ||| placedBit 5 k.hasArg ||| placedBit 4 k.pending ||| placedBit 3 k.done |||
    placedBit 2 k.paused ||| placedBit 1 k.enabled ||| placedBit 0 k.bound

/-- `CH_CONFIG` (10_state.md R38, log 6): `WIDTH[ch]` in bits 7:0, `K[ch]` in bits 11:8, the rest zero. -/
def Channel.configWord (k : Channel) : Word :=
  placed 8 (BitVec.ofNat 4 k.cfg.divs.length) ||| placed 0 (BitVec.ofNat 8 k.cfg.width.bits)

/-- `CONFIG` (10_state.md R26): `NUM_CHANNELS` in bits 7:0, the rest zero. -/
def State.configWord (s : State) : Word :=
  placed 0 (BitVec.ofNat 8 s.channels.length)

/-- The failures of a command (60_exceptions.md R230). -/
inductive CommandError where
  | invalidChannel
  | rejectedFrequency
  | noFreeChannel
  | illegalCommand
deriving DecidableEq, Repr

/-- The status codes of the failures (60_exceptions.md R230); `OK` is 0. -/
def CommandError.code : CommandError → Byte
  | .invalidChannel => 1#8
  | .rejectedFrequency => 2#8
  | .noFreeChannel => 3#8
  | .illegalCommand => 4#8

/-- The status code `OK` (60_exceptions.md R230). -/
def statusOk : Byte := 0#8

/-- The value of `CHSEL` on a failure (10_state.md R24). -/
def chselNone : Byte := 0xFF#8

/-- `RESULT` = (0x0000, `CHSEL`, `STATUS`) (10_state.md R24). -/
def resultWord (chsel status : Byte) : Word :=
  placed 8 chsel ||| placed 0 status

/-- `STATUS` of a `RESULT` word (10_state.md R24). -/
def statusOf (result : Word) : Byte := result.extractLsb' 0 8

/-- `CHSEL` of a `RESULT` word (10_state.md R24). -/
def chselOf (result : Word) : Byte := result.extractLsb' 8 8

end Sys2Proof.Machine
end

