-- ==== Sys2Proof/Machine/Ops.lean ====
section
/-! DEFINITION. The named operations every procedure is made of: the port actions and what they do to a channel's
image (10_state.md R34), a channel with what it has emitted, putting a channel back with its events, the channel
checks (42_host_commands.md R181, R183), taking a compare-match event (41_interval_runner.md R149, 60_exceptions.md
R242), and ending a command with success or with an error (00_scope.md R13, 42_host_commands.md R180). -/

namespace Sys2Proof.Machine

/-! ### Channels -/

/-- The effect of a port action on the channel's image (10_state.md R34). The prescaler of `configure` mirrors
`DIVIDER`, which the callers of ARM have written (log 7). -/
def PortOp.apply (op : PortOp) (k : Channel) : Channel :=
  match op with
  | .configure _ c => { k with cmp := c }
  | .armNextChunk c => { k with cmp := c }
  | .enableInterrupt => { k with enabled := true }
  | .disableInterrupt => { k with enabled := false }
  | .clearPendingFlag => { k with pending := false }
  | .gateClock => { k with paused := true }
  | .ungateClock => { k with paused := false }

/-- A channel inside one of its procedures, with what the procedure has emitted so far, oldest first. -/
structure ChannelRun where
  chan : Channel
  events : List Emission
deriving DecidableEq, Repr

def ChannelRun.start (k : Channel) : ChannelRun := { chan := k, events := [] }

/-- Write the channel's fields, emitting nothing. -/
def ChannelRun.write (r : ChannelRun) (k : Channel) : ChannelRun := { r with chan := k }

/-- Perform a port action: its effect on the image and its event (10_state.md R34). -/
def ChannelRun.port (r : ChannelRun) (op : PortOp) : ChannelRun :=
  { chan := op.apply r.chan, events := r.events ++ [.port op] }

/-- Emit the callback event with the channel's handle and argument (41_interval_runner.md R152). -/
def ChannelRun.callback (r : ChannelRun) : ChannelRun :=
  { r with events := r.events ++ [.callback r.chan.callback r.chan.hasArg r.chan.arg] }

/-- Ungate a paused clock: `if ch.PAUSED = 1: ch.PAUSED <- 0; emit ungateClock()` (41_interval_runner.md R159,
42_host_commands.md R182, R195). -/
def ChannelRun.ungateIfPaused (r : ChannelRun) : ChannelRun :=
  bif r.chan.paused then r.port .ungateClock else r

/-- Gate a running clock: `if ch.PAUSED = 0: ch.PAUSED <- 1; emit gateClock()` (42_host_commands.md R194). -/
def ChannelRun.gateIfRunning (r : ChannelRun) : ChannelRun :=
  bif r.chan.paused then r else r.port .gateClock

/-- Taking a compare-match event: the first action of TICK clears `PENDING` and emits nothing
(41_interval_runner.md R149). Nothing else is saved and no mode changes (60_exceptions.md R242); the return from the
handler restores nothing (R243), so it has no operation. -/
def Channel.takeEvent (k : Channel) : Channel := { k with pending := false }

/-! ### The state -/

/-- Put a channel back after a procedure and append what it emitted to the event history. -/
def State.applyRun (s : State) (c : Nat) (r : ChannelRun) : State :=
  { s with channels := s.channels.set c r.chan, history := s.history ++ r.events.map (Event.channel c) }

/-- Record the output of a FrequencyMapper run that succeeded (10_state.md R25). -/
def State.noteMap (s : State) (div ticks : Nat) : State :=
  { s with mapDiv := BitVec.ofNat 32 div, mapTicks := BitVec.ofNat 32 ticks }

/-- `G.RESULT <- (0x0000, ch, OK)`. -/
def State.succeed (s : State) (c : Nat) : State :=
  { s with result := resultWord (BitVec.ofNat 8 c) statusOk }

/-- `raise CommandError(code)`: `RESULT` takes the status and no other state changes (00_scope.md R13,
42_host_commands.md R180, 60_exceptions.md R236). -/
def State.raise (s : State) (e : CommandError) : State := { s with result := resultWord chselNone e.code }

/-- End a command: the state its rule reached, or the error its checks raised, every check standing before the first
state write (42_host_commands.md R180). -/
def finishCommand (s : State) (r : Except CommandError State) : Result :=
  match r with
  | .ok t => .next t
  | .error e => .next (s.raise e)

/-- `emit Done(w, G.RESULT)` (42_host_commands.md R180). -/
def State.emitDone (s : State) (w : Word) : State := { s with history := s.history ++ [.done w s.result] }

/-- `CheckId(c)` (42_host_commands.md R181): the id of an existing channel, and the channel. -/
def checkId (s : State) (ch : ChannelId) : Except CommandError (Nat × Channel) :=
  match s.channels[ch.toNat]? with
  | none => .error .invalidChannel
  | some k => .ok (ch.toNat, k)

/-- `CheckBound(c)` (42_host_commands.md R181): an existing channel that is bound. -/
def checkBound (s : State) (ch : ChannelId) : Except CommandError (Nat × Channel) :=
  match s.channels[ch.toNat]? with
  | none => .error .invalidChannel
  | some k => bif k.bound then .ok (ch.toNat, k) else .error .invalidChannel

/-- Whether a channel is of the kind asked for (42_host_commands.md R183). -/
def Kind.admits (kind : Kind) (w : CounterWidth) : Bool :=
  match kind with
  | .any => true
  | .bits8 => w == .w8
  | .bits16 => w == .w16

/-- `SelectFree(KIND)` over the channels from id `c` on: the least id of a free channel of the kind
(42_host_commands.md R183). -/
def selectFrom (kind : Kind) (c : Nat) : List Channel → Option (Nat × Channel)
  | [] => none
  | k :: rest =>
    if k.bound = false ∧ Kind.admits kind k.cfg.width = true then some (c, k) else selectFrom kind (c + 1) rest

/-- `SelectFree(KIND)` (42_host_commands.md R183). -/
def selectFree (s : State) (kind : Kind) : Except CommandError (Nat × Channel) :=
  match selectFrom kind 0 s.channels with
  | some found => .ok found
  | none => .error .noFreeChannel

/-- The channel a BIND acts on: the explicit id, or automatic selection (42_host_commands.md R182). -/
def bindTarget (s : State) (target : Target) : Except CommandError (Nat × Channel) :=
  match target with
  | .explicit ch => checkId s ch
  | .auto kind => selectFree s kind

end Sys2Proof.Machine
end

