-- ==== Sys2Proof/Machine/Mapping.lean ====
section
/-! DEFINITION. The command MAP (40_frequency_mapper.md R122). -/

namespace Sys2Proof.Machine

/-- Run the mapper for a channel; a rejection of any reason is `RejectedFrequency` (60_exceptions.md R232). -/
def mapOrReject (s : State) (k : Channel) (f : Freq) : Except CommandError (Nat × Nat) :=
  match mapFrequency s.clkHz k.cfg f with
  | .ok div ticks => .ok (div, ticks)
  | .reject _ => .error .rejectedFrequency

/-- MAP (40_frequency_mapper.md R122): the channel itself is neither read nor changed. -/
def mapCommand (ch : ChannelId) (s : State) : Except CommandError State :=
  match checkId s ch with
  | .error e => .error e
  | .ok (c, k) =>
    match mapOrReject s k (freqOperand s) with
    | .error e => .error e
    | .ok (div, ticks) => .ok ((s.noteMap div ticks).succeed c)

/-- The meaning of MAP. -/
def execMap (ch : ChannelId) (s : State) : Result := finishCommand s (mapCommand ch s)

end Sys2Proof.Machine
end

