-- ==== Sys2Proof/Machine/Runner.lean ====
section
/-! DEFINITION. The IntervalRunner: ARM (41_interval_runner.md R141), ELAPSE (R145), TICK (R157) and RELEASE (R159),
each on one channel, the "single generic channel tick function" of 10_state.md R20. -/

namespace Sys2Proof.Machine

/-- `chunk(ch, r) = min(CM[ch], r)` (00_scope.md R15). -/
def Channel.chunk (k : Channel) (ticks : Word) : Chunk :=
  BitVec.ofNat 16 (min k.cfg.width.counterMax ticks.toNat)

/-- The ticks left once a chunk is taken from them (41_interval_runner.md R141, R151, R155). -/
def ticksAfter (ticks : Word) (c : Chunk) : Word := BitVec.ofNat 32 (ticks.toNat - c.toNat)

/-- `ch.REMAINING <- r` and `ch.DONE <- (ch.REMAINING = 0)`. -/
def Channel.setRemaining (k : Channel) (r : Word) : Channel := { k with remaining := r, done := doneFlag r }

/-- ARM (41_interval_runner.md R141): a fresh logical period with its first chunk programmed and deducted. -/
def ChannelRun.arm (r : ChannelRun) : ChannelRun :=
  let c := r.chan.chunk r.chan.fullTicks
  (((r.write (r.chan.setRemaining (ticksAfter r.chan.fullTicks c))).port (.configure r.chan.divider c)).port
    .clearPendingFlag).port .enableInterrupt

/-- RELEASE (41_interval_runner.md R159): disable the source, clear every field to its reset value. -/
def ChannelRun.release (r : ChannelRun) : ChannelRun :=
  let r' := ((r.port .disableInterrupt).port .clearPendingFlag).ungateIfPaused
  r'.write { r'.chan with
    callback := 0#32, hasArg := false, arg := 0#32, divider := 0#32, fullTicks := 0#32, remaining := 0#32, repeats := 0#32,
    done := false, cmp := 0#16, freqNum := 0#32, freqDen := 0#32 }

/-- The next chunk out of `ticks`, with TICK's step 3 (41_interval_runner.md R151, R155, R156). -/
def ChannelRun.armNext (r : ChannelRun) (ticks : Word) : ChannelRun :=
  let c := r.chan.chunk ticks
  ((r.write (r.chan.setRemaining (ticksAfter ticks c))).port (.armNextChunk c)).port .enableInterrupt

/-- The decrement after a callback (41_interval_runner.md R153). -/
def Channel.decrementRepeats (k : Channel) : Channel :=
  { k with repeats := countAfterCallback k.repeats }

/-- The end of a logical period: callback, decrement, then release or reload
(41_interval_runner.md R152 to R155). -/
def ChannelRun.endPeriod (r : ChannelRun) : ChannelRun :=
  let r' := r.callback.write r.chan.decrementRepeats
  bif r'.chan.exhausted then r'.release else r'.armNext r'.chan.fullTicks

/-- TICK of one channel (41_interval_runner.md R157), taken when it is enabled. -/
def Channel.tick (k : Channel) : ChannelRun :=
  let r := ChannelRun.start k.takeEvent
  bif k.exhausted then r.release
  else bif k.done then r.endPeriod
  else r.armNext k.remaining

/-- ELAPSE of one channel (41_interval_runner.md R145), taken when it is enabled. -/
def Channel.elapse (k : Channel) : Channel := { k with pending := true }

/-- The peripheral's step on channel id `c`: ELAPSE when it is enabled; a step that is not enabled is not taken, and
the state stays (log 1). -/
def elapseStep (c : Nat) (s : State) : State :=
  match s.channels[c]? with
  | none => s
  | some k => bif k.elapseEnabled then s.applyRun c (ChannelRun.start k.elapse) else s

/-- The dispatcher's step on channel id `c`: TICK when it is enabled (41_interval_runner.md R148, 60_exceptions.md
R239); a step that is not enabled is not taken, and the state stays (log 1). -/
def tickStep (c : Nat) (s : State) : State :=
  match s.channels[c]? with
  | none => s
  | some k => bif k.tickEnabled then s.applyRun c k.tick else s

end Sys2Proof.Machine
end

