-- ==== Sys2Proof/Machine/Binding.lean ====
section
/-! DEFINITION. The commands BIND and BIND_INTERVAL (42_host_commands.md R182 to R188). -/

namespace Sys2Proof.Machine

/-- What a bind writes into the channel and then arms (42_host_commands.md R182): the clock is ungated first, a
binding that was there is replaced whole (R184). -/
def bindRun (k : Channel) (hasArg hasRepeat : Bool) (f : Freq) (div ticks : Nat) (s : State) : ChannelRun :=
  let r := (ChannelRun.start k).ungateIfPaused
  (r.write { r.chan with
    callback := handleOperand s, hasArg := hasArg, arg := argOperand hasArg s, repeats := repeatOperand hasRepeat s,
    divider := BitVec.ofNat 32 div, fullTicks := BitVec.ofNat 32 ticks, freqNum := f.num, freqDen := f.den }).arm

/-- BIND at the frequency `f` (42_host_commands.md R182), the checks in the order of 60_exceptions.md R235: channel,
null callback, mapper. -/
def bindCommand (target : Target) (hasArg hasRepeat : Bool) (f : Freq) (s : State) : Except CommandError State :=
  match bindTarget s target with
  | .error e => .error e
  | .ok (c, k) =>
    if handleOperand s = 0#32 then .error .rejectedFrequency
    else match mapOrReject s k f with
      | .error e => .error e
      | .ok (div, ticks) =>
        .ok (((s.applyRun c (bindRun k hasArg hasRepeat f div ticks s)).noteMap div ticks).succeed c)

/-- The meaning of BIND: the frequency is `OPA / OPB` (42_host_commands.md R182). -/
def execBind (target : Target) (hasArg hasRepeat : Bool) (s : State) : Result :=
  finishCommand s (bindCommand target hasArg hasRepeat (freqOperand s) s)

/-- The meaning of BIND_INTERVAL: the frequency is 1000 / `OPA` (42_host_commands.md R188). -/
def execBindInterval (target : Target) (hasArg hasRepeat : Bool) (s : State) : Result :=
  finishCommand s (bindCommand target hasArg hasRepeat (intervalOperand s) s)

end Sys2Proof.Machine
end

