-- ==== Sys2Proof/Machine/Control.lean ====
section
/-! DEFINITION. The commands STOP, PAUSE and RESUME (42_host_commands.md R190, R194, R195). -/

namespace Sys2Proof.Machine

/-- A command on one bound channel: check it, run a procedure on it, report success
(42_host_commands.md R181, R190 to R196). -/
def boundCommand (ch : ChannelId) (procedure : Channel → ChannelRun) (s : State) : Except CommandError State :=
  match checkBound s ch with
  | .error e => .error e
  | .ok (c, k) => .ok ((s.applyRun c (procedure k)).succeed c)

/-- The meaning of STOP (42_host_commands.md R190): RELEASE. -/
def execStop (ch : ChannelId) (s : State) : Result :=
  finishCommand s (boundCommand ch (fun k => (ChannelRun.start k).release) s)

/-- The meaning of PAUSE (42_host_commands.md R194): gate the clock of a running channel. -/
def execPause (ch : ChannelId) (s : State) : Result :=
  finishCommand s (boundCommand ch (fun k => (ChannelRun.start k).gateIfRunning) s)

/-- The meaning of RESUME (42_host_commands.md R195): ungate the clock of a paused channel. -/
def execResume (ch : ChannelId) (s : State) : Result :=
  finishCommand s (boundCommand ch (fun k => (ChannelRun.start k).ungateIfPaused) s)

end Sys2Proof.Machine
end

