-- ==== Sys2Proof/Machine/Changing.lean ====
section
/-! DEFINITION. The commands RESTART, CHANGE_FREQUENCY and CHANGE_INTERVAL (42_host_commands.md R196 to R201). -/

namespace Sys2Proof.Machine

/-- The meaning of RESTART (42_host_commands.md R196): the repeat count from a duration when `D` = 1, then ARM;
`PAUSED` stays. -/
def execRestart (ch : ChannelId) (hasDuration : Bool) (s : State) : Result :=
  finishCommand s (boundCommand ch
    (fun k => (ChannelRun.start { k with repeats := restartRepeats hasDuration s k }).arm) s)

/-- What a change of frequency writes into the channel and then arms (42_host_commands.md R200). -/
def changeRun (k : Channel) (f : Freq) (div ticks : Nat) : ChannelRun :=
  (ChannelRun.start { k with
    divider := BitVec.ofNat 32 div, fullTicks := BitVec.ofNat 32 ticks, freqNum := f.num, freqDen := f.den }).arm

/-- CHANGE_FREQUENCY to the frequency `f` (42_host_commands.md R200). -/
def changeCommand (ch : ChannelId) (f : Freq) (s : State) : Except CommandError State :=
  match checkBound s ch with
  | .error e => .error e
  | .ok (c, k) =>
    match mapOrReject s k f with
    | .error e => .error e
    | .ok (div, ticks) => .ok (((s.applyRun c (changeRun k f div ticks)).noteMap div ticks).succeed c)

/-- The meaning of CHANGE_FREQUENCY: the frequency is `OPA / OPB` (42_host_commands.md R200). -/
def execChangeFrequency (ch : ChannelId) (s : State) : Result :=
  finishCommand s (changeCommand ch (freqOperand s) s)

/-- The meaning of CHANGE_INTERVAL: the frequency is 1000 / `OPA` (42_host_commands.md R201). -/
def execChangeInterval (ch : ChannelId) (s : State) : Result :=
  finishCommand s (changeCommand ch (intervalOperand s) s)

end Sys2Proof.Machine
end

