-- ==== Sys2Proof/Machine/Dispatch.lean ====
section
/-! DEFINITION. The meaning of every command: one arm per constructor of `Instr`. -/

namespace Sys2Proof.Machine

def exec (i : Instr) (s : State) : Host.Outcome State Fault Refusal :=
  match i with
  | .map ch => Sys2Proof.Machine.execMap ch s
  | .bind target a r => Sys2Proof.Machine.execBind target a r s
  | .bindInterval target a r => Sys2Proof.Machine.execBindInterval target a r s
  | .stop ch => Sys2Proof.Machine.execStop ch s
  | .pause ch => Sys2Proof.Machine.execPause ch s
  | .resume ch => Sys2Proof.Machine.execResume ch s
  | .restart ch d => Sys2Proof.Machine.execRestart ch d s
  | .changeFrequency ch => Sys2Proof.Machine.execChangeFrequency ch s
  | .changeInterval ch => Sys2Proof.Machine.execChangeInterval ch s

end Sys2Proof.Machine
end

