-- ==== Sys2Proof/Machine/Window.lean ====
section
/-! DEFINITION. The register window (20_memory.md R60 to R65): which accesses exist, which register an offset names,
and what a read of it returns. The window has no storage of its own: every register is a field of the state or a
function of it. -/

namespace Sys2Proof.Machine

/-- The length of the window in bytes (20_memory.md R60). -/
def windowSize : Nat := 0x8000

/-- The global registers of 20_memory.md R61. -/
inductive GlobalReg where
  | cmd | opa | opb | opc | opd | ope | result | mapDiv | mapTicks | config
deriving DecidableEq, Repr

/-- The named registers of a channel's window (20_memory.md R61). -/
inductive ChannelReg where
  | status | config | callback | arg | divider | fullTicks | remaining | repeats | cmp | freqNum | freqDen
  /-- `CH_DIV[i]` -/
  | div (i : Nat)
deriving DecidableEq, Repr

/-- What an offset of the window names (20_memory.md R61, R64). -/
inductive WindowReg where
  | global (r : GlobalReg)
  | channel (c : Nat) (r : ChannelReg)
  | reserved
deriving DecidableEq, Repr

/-- The global registers in the order of their offsets 0x000, 0x004, ... (20_memory.md R61). -/
def globalRegs : List GlobalReg := [.cmd, .opa, .opb, .opc, .opd, .ope, .result, .mapDiv, .mapTicks, .config]

/-- A channel window's registers in the order of their offsets 0x00, 0x04, ..., 0x28 (20_memory.md R61). -/
def channelRegs : List ChannelReg :=
  [.status, .config, .callback, .arg, .divider, .fullTicks, .remaining, .repeats, .cmp, .freqNum, .freqDen]

/-- The register of a channel window at word index `i` (offset 4 * i): the named ones, `CH_DIV[0..7]` from 0x40 on,
the rest reserved (20_memory.md R61). -/
def channelRegAt (i : Nat) : Option ChannelReg :=
  match channelRegs[i]? with
  | some r => some r
  | none => if 16 ≤ i ∧ i < 24 then some (.div (i - 16)) else none

/-- The register at an offset (20_memory.md R61): the global ones below 0x100, then windows of 0x80 bytes, one for
each channel id below `NUM_CHANNELS`. The window of id 254 lies beyond every host access (log 5). -/
def windowReg (numChannels off : Nat) : WindowReg :=
  if off < 0x100 then
    match globalRegs[off / 4]? with
    | some r => .global r
    | none => .reserved
  else if (off - 0x100) / 0x80 < numChannels then
    match channelRegAt ((off - 0x100) % 0x80 / 4) with
    | some r => .channel ((off - 0x100) / 0x80) r
    | none => .reserved
  else .reserved

/-- `B(ch)` (20_memory.md R61). -/
def channelBase (c : Nat) : Nat := 0x100 + 0x80 * c

/-- The value of a global register. -/
def readGlobal (s : State) (r : GlobalReg) : Word :=
  match r with
  | .cmd => s.cmd
  | .opa => s.opa
  | .opb => s.opb
  | .opc => s.opc
  | .opd => s.opd
  | .ope => s.ope
  | .result => s.result
  | .mapDiv => s.mapDiv
  | .mapTicks => s.mapTicks
  | .config => s.configWord

/-- The value of a register of a channel's window (20_memory.md R61); `CH_DIV[i]` is 0 from `K[ch]` on. -/
def readChannel (k : Channel) (r : ChannelReg) : Word :=
  match r with
  | .status => k.statusWord
  | .config => k.configWord
  | .callback => k.callback
  | .arg => k.arg
  | .divider => k.divider
  | .fullTicks => k.fullTicks
  | .remaining => k.remaining
  | .repeats => k.repeats
  | .cmp => k.cmp.setWidth 32
  | .freqNum => k.freqNum
  | .freqDen => k.freqDen
  | .div i => BitVec.ofNat 32 (k.cfg.divs.getD i 0)

/-- The 32-bit value of the register at an offset (20_memory.md R62); reserved offsets read as zero (R64). -/
def readWindow (s : State) (off : Nat) : Word :=
  match windowReg s.channels.length off with
  | .global r => readGlobal s r
  | .channel c r =>
    match s.channels[c]? with
    | some k => readChannel k r
    | none => 0#32
  | .reserved => 0#32

/-- The byte of the window at an offset: little-endian, bit 0 in the byte at the register's offset (20_memory.md
R63). No access of R62 observes it. -/
def windowByte (s : State) (off : Nat) : Byte := (readWindow s (off - off % 4)).extractLsb' (8 * (off % 4)) 8

/-- The platform address of an offset of the window (20_memory.md R60). -/
def windowAddress (off : Nat) : Nat := Config.tfmBase + off

/-- The refusal of a host access that does not exist, `none` for one that does: width 4, an offset that is a
multiple of 4 and below 0x8000 (20_memory.md R62). -/
def accessRefusal (off width : Nat) : Option Refusal :=
  if width ≠ 4 then some (.accessWidth width)
  else if off % 4 ≠ 0 then some (.misalignedOffset off)
  else if windowSize ≤ off then some (.outsideWindow off)
  else none

end Sys2Proof.Machine
end

