-- ==== Sys2Proof/Machine/Agents.lean ====
section
/-! DEFINITION. The steps of the agents (00_scope.md R6): the host's reads and writes (20_memory.md R62, R64), with
the execution of a command at a write of `CMD` (42_host_commands.md R180), and a reset from outside
(70_reset_and_hazards.md R260). The peripheral's and the dispatcher's steps stand in Machine/Runner.lean. -/

namespace Sys2Proof.Machine

/-- A host write of `CMD` (42_host_commands.md R180): store the word, decode it, run the command or report
`IllegalCommand`, then emit `Done`. One atomic step (20_memory.md R66). -/
def writeCommand (w : Word) (s : State) : Result :=
  let s' := { s with cmd := w }
  match decode w with
  | .error _ => .next ((s'.raise .illegalCommand).emitDone w)
  | .ok i =>
    match exec i s' with
    | .next t => .next (t.emitDone w)
    | .fault e => .fault e
    | .refused e => .refused e

/-- A host write of a register (20_memory.md R61, R64): `CMD` executes, `OPA` to `OPE` store, a read-only register
and a reserved offset ignore the write. -/
def writeWindow (off : Nat) (v : Word) (s : State) : Result :=
  match windowReg s.channels.length off with
  | .global .cmd => writeCommand v s
  | .global .opa => .next { s with opa := v }
  | .global .opb => .next { s with opb := v }
  | .global .opc => .next { s with opc := v }
  | .global .opd => .next { s with opd := v }
  | .global .ope => .next { s with ope := v }
  | .global _ => .next s
  | .channel _ _ => .next s
  | .reserved => .next s

/-- `MemWrite(off, width, v)` (20_memory.md R62). -/
def hostWrite (off width : Nat) (v : Word) (s : State) : Result :=
  match accessRefusal off width with
  | some e => .refused e
  | none => writeWindow off v s

/-- `MemRead(off, width)` (20_memory.md R62): the host receives the register's value; no state of the block changes
(R64). -/
def hostRead (off width : Nat) (s : State) : Result :=
  match accessRefusal off width with
  | some e => .refused e
  | none => .next { s with reads := s.reads ++ [{ off := off, value := readWindow s off }] }

/-- A reset of the block (70_reset_and_hazards.md R260, log 9): all its state at the values of 10_state.md R42, no port
action. The agents' actions to come and what the host has read are not the block's and stay. -/
def resetBlock (s : State) : State :=
  { State.resetWith s.params with schedule := s.schedule, reads := s.reads }

/-- One action of one agent. -/
def perform (a : Action) (s : State) : Result :=
  match a with
  | .memRead off width => hostRead off width s
  | .memWrite off width v => hostWrite off width v s
  | .elapse c => .next (elapseStep c s)
  | .tick c => .next (tickStep c s)
  | .reset => .next (resetBlock s)

/-- The next action of the schedule; with none left the block does nothing (70_reset_and_hazards.md R261, log 1). -/
def runSchedule (s : State) : Result :=
  match s.schedule with
  | [] => .next s
  | a :: rest => perform a { s with schedule := rest }

/-- The host's write of a command word as the next action of the machine (42_host_commands.md R180). -/
def commandWrite (w : Word) : Action := .memWrite 0 4 w

end Sys2Proof.Machine
end

