-- ==== Sys2Proof/Machine/Step.lean ====
section
/-! DEFINITION. One step of the machine: the next action of the schedule. -/

namespace Sys2Proof.Machine

/-- One step: the agent whose turn the schedule says performs its action (log 1). -/
def step (s : State) : Host.Outcome State Fault Refusal := runSchedule s

/-- `s` with the host's write of a command word to `CMD` put before everything else in the schedule: the very next
step decodes and runs that command (log 8). -/
def State.withFetchWord (s : State) (nbits w : Nat) : State :=
  { s with schedule := commandWrite (tableWord nbits w) :: s.schedule }

end Sys2Proof.Machine
end

