-- ==== Sys2Proof/Machine/Behaviour.lean ====
section
/-! DEFINITION. The block's behaviours that never end: one step of one agent after another, in any order the agents
choose (20_memory.md R69, R70, 60_exceptions.md R240, R241), and the weak fairness of 41_interval_runner.md R147, under
which every claim that a callback eventually happens is stated. A finite schedule is the beginning of such a behaviour
(log 1). -/

namespace Sys2Proof.Machine

/-- An action of the peripheral or of the dispatcher: no host access and no reset. -/
def Action.isTimerStep : Action → Bool
  | .elapse _ => true
  | .tick _ => true
  | _ => false

/-- An action that issues no command and resets nothing: an ELAPSE, a TICK, a host read, a host write that is not to
`CMD` (20_memory.md R61). -/
def Action.isQuiet : Action → Bool
  | .memRead _ _ => true
  | .memWrite off _ _ => off != 0
  | .elapse _ => true
  | .tick _ => true
  | .reset => false

/-- The action is an ELAPSE or a TICK that its enabling condition allows in the state (41_interval_runner.md R145,
R148). -/
def State.timerEnabled (s : State) (a : Action) : Bool :=
  match a with
  | .elapse c => (s.channels[c]?).any Channel.elapseEnabled
  | .tick c => (s.channels[c]?).any Channel.tickEnabled
  | .memRead _ _ => false
  | .memWrite _ _ _ => false
  | .reset => false

/-- One action taken from `s`, whatever else `s` has scheduled. -/
def State.take (s : State) (a : Action) : Result := step { s with schedule := [a] }

/-- `states` is a behaviour of the block in which the agents take `acts`, one after another without end
(20_memory.md R69). -/
def IsBehaviour (states : Nat → State) (acts : Nat → Action) : Prop :=
  ∀ n, (states n).take (acts n) = .next (states (n + 1))

/-- Weak fairness (41_interval_runner.md R147): "an ELAPSE or TICK that stays enabled is eventually taken". -/
def WeaklyFair (states : Nat → State) (acts : Nat → Action) : Prop :=
  ∀ a, a.isTimerStep = true → ∀ n, (∀ m, n ≤ m → (states m).timerEnabled a = true) → ∃ m, n ≤ m ∧ acts m = a

end Sys2Proof.Machine
end

