-- ==== Sys2Proof/Machine/HostProgram.lean ====
section
/-! DEFINITION. Host programs as lists of actions: the notation `WR` and `RD` of 30_encoding.md R94, the source's
operations as pseudo-instructions that expand to host writes (R95), and the assembler spelling of a command (R93). -/

namespace Sys2Proof.Machine

/-- `offset(reg)` of a global register (30_encoding.md R94, 20_memory.md R61). -/
def GlobalReg.offset (r : GlobalReg) : Nat := 4 * globalRegs.findIdx (· == r)

/-- `WR <reg>, <value>` (30_encoding.md R94). -/
def wr (r : GlobalReg) (v : Word) : Action := .memWrite r.offset 4 v

/-- `RD <reg>` (30_encoding.md R94). -/
def rd (r : GlobalReg) : Action := .memRead r.offset 4

/-- `WR CMD, <mnemonic>`: the write of the mnemonic's command word (30_encoding.md R94). -/
def wrCmd (i : Instr) : Action := wr .cmd (encode i)

/-- The operations of the source (30_encoding.md R95). `setFrequency` and `attachInterrupt` are `bind`,
`setInterval` is `bindInterval`, `detach` is `stop`. -/
inductive Pseudo where
  | bind (target : Target) (f : Freq) (callback : Word) (arg rep : Option Word)
  | bindInterval (target : Target) (millis callback : Word) (arg rep : Option Word)
  | stop (ch : ChannelId)
  | pause (ch : ChannelId)
  | resume (ch : ChannelId)
  | restart (ch : ChannelId) (millis : Option Word)
  | changeFrequency (ch : ChannelId) (f : Freq)
  | changeInterval (ch : ChannelId) (millis : Word)
  | map (ch : ChannelId) (f : Freq)
deriving DecidableEq, Repr

/-- The write of an optional operand: nothing where the operand is omitted (30_encoding.md R95). -/
def wrOptional (r : GlobalReg) (v : Option Word) : List Action :=
  match v with
  | some v => [wr r v]
  | none => []

/-- The expansions of 30_encoding.md R95; an omitted argument clears `A`, an omitted count clears `R`. -/
def Pseudo.expand : Pseudo → List Action
  | .bind target f callback arg rep =>
    [wr .opa f.num, wr .opb f.den, wr .opc callback] ++ wrOptional .opd arg ++ wrOptional .ope rep ++
      [wrCmd (.bind target arg.isSome rep.isSome)]
  | .bindInterval target millis callback arg rep =>
    [wr .opa millis, wr .opc callback] ++ wrOptional .opd arg ++ wrOptional .ope rep ++
      [wrCmd (.bindInterval target arg.isSome rep.isSome)]
  | .stop ch => [wrCmd (.stop ch)]
  | .pause ch => [wrCmd (.pause ch)]
  | .resume ch => [wrCmd (.resume ch)]
  | .restart ch millis => wrOptional .opa millis ++ [wrCmd (.restart ch millis.isSome)]
  | .changeFrequency ch f => [wr .opa f.num, wr .opb f.den, wrCmd (.changeFrequency ch)]
  | .changeInterval ch millis => [wr .opa millis, wrCmd (.changeInterval ch)]
  | .map ch f => [wr .opa f.num, wr .opb f.den, wrCmd (.map ch)]

/-- A target as the assembler spells it: a decimal id, `any`, `any8` or `any16` (30_encoding.md R93). -/
def Target.assembly : Target → String
  | .explicit ch => toString ch.toNat
  | .auto .any => "any"
  | .auto .bits8 => "any8"
  | .auto .bits16 => "any16"

/-- The suffix of a flag: the flag's letter after a dot when it is set (30_encoding.md R93). -/
def flagSuffix (name : String) (flag : Bool) : String := if flag then "." ++ name else ""

/-- The assembler spelling `MNEMONIC[.A][.R] target` (30_encoding.md R93). -/
def assembly : Instr → String
  | .map ch => "MAP " ++ toString ch.toNat
  | .bind target a r => "BIND" ++ flagSuffix "A" a ++ flagSuffix "R" r ++ " " ++ Target.assembly target
  | .bindInterval target a r =>
    "BIND_INTERVAL" ++ flagSuffix "A" a ++ flagSuffix "R" r ++ " " ++ Target.assembly target
  | .stop ch => "STOP " ++ toString ch.toNat
  | .pause ch => "PAUSE " ++ toString ch.toNat
  | .resume ch => "RESUME " ++ toString ch.toNat
  | .restart ch d => "RESTART" ++ flagSuffix "D" d ++ " " ++ toString ch.toNat
  | .changeFrequency ch => "CHANGE_FREQUENCY " ++ toString ch.toNat
  | .changeInterval ch => "CHANGE_INTERVAL " ++ toString ch.toNat

end Sys2Proof.Machine
end

