-- ==== Sys2Proof/Machine/Phase.lean ====
section
/-! DEFINITION. The IntervalRunner's states as the spec derives them (00_scope.md R17, 10_state.md R40): FREE,
ARMED_WAITING and PERIOD_COMPLETE from the channel's fields, EXHAUSTED told apart from FREE by the event history. -/

namespace Sys2Proof.Machine

/-- The states of 10_state.md R40. -/
inductive RunnerPhase where
  | free
  | armedWaiting
  | periodComplete
  | exhausted
deriving DecidableEq, Repr

/-- Whether the channel's last release so far came from TICK, one event later. A release disables the interrupt; a
STOP that succeeded marks it as the host's by its completion; ARM configures the channel again (10_state.md R40). -/
def tickReleased (c : Nat) (soFar : Bool) (e : Event) : Bool :=
  match e with
  | .channel c' (.port .disableInterrupt) => if c' = c then true else soFar
  | .channel c' (.port (.configure _ _)) => if c' = c then false else soFar
  | .channel _ _ => soFar
  | .done w result =>
    match decode w with
    | .ok (.stop ch) => if ch.toNat = c ∧ statusOf result = statusOk then false else soFar
    | _ => soFar

/-- The state of channel id `c` (10_state.md R40), `none` for an id that does not exist. -/
def State.runnerPhase (s : State) (c : Nat) : Option RunnerPhase :=
  match s.channels[c]? with
  | none => none
  | some k =>
    bif k.bound then some (bif k.done then .periodComplete else .armedWaiting)
    else some (bif s.history.foldl (tickReleased c) false then .exhausted else .free)

end Sys2Proof.Machine
end

