-- ==== Sys2Proof/Safety.lean ====
section
/-! DEFINITION. The terms statements are made in: the invariant of 10_state.md R39, what the event history says of a
channel, and the values the rules give written out once as arithmetic on the fields. -/

namespace Sys2Proof.Machine

/-! ### Invariants -/

/-- What 10_state.md R39 (a), (b) and R29 say of a bound channel. -/
abbrev Channel.boundInv (k : Channel) : Prop :=
  k.enabled = true ∧ k.divider.toNat ∈ k.cfg.divs ∧ k.remaining.toNat ≤ k.fullTicks.toNat ∧
    k.cmp.toNat ≤ k.cfg.width.counterMax ∧ k.freqNum ≠ 0#32 ∧ k.freqDen ≠ 0#32 ∧
    (k.done = true ↔ k.remaining = 0#32) ∧ (k.hasArg = false → k.arg = 0#32)

/-- 10_state.md R39 for one channel: (a) and (b) when it is bound, (c) when it is free. -/
abbrev Channel.Inv (k : Channel) : Prop :=
  (k.callback ≠ 0#32 → k.boundInv) ∧ (k.callback = 0#32 → k = Channel.free k.cfg)

/-- 10_state.md R39 for every channel, under valid parameters (00_scope.md R7). -/
abbrev State.Inv (s : State) : Prop := s.params.valid ∧ ∀ k ∈ s.channels, k.Inv

/-- The form of `RESULT` (10_state.md R24, 60_exceptions.md R230): bits 31:16 zero, a status code of the table, on
success the id of a channel and on failure 0xFF in `CHSEL`. -/
abbrev State.ResultInv (s : State) : Prop :=
  s.result.extractLsb' 16 16 = 0#16 ∧ (statusOf s.result).toNat ≤ 4 ∧
    (statusOf s.result = 0#8 → (chselOf s.result).toNat < s.channels.length) ∧
    (statusOf s.result ≠ 0#8 → chselOf s.result = 0xFF#8)

/-- The interrupt-enable bit that the port actions of channel `c` in a history leave (10_state.md R34), one event
later. -/
def replayEnabled (c : Nat) (soFar : Bool) (e : Event) : Bool :=
  match e with
  | .channel c' (.port .enableInterrupt) => if c' = c then true else soFar
  | .channel c' (.port .disableInterrupt) => if c' = c then false else soFar
  | _ => soFar

/-- The clock gate that the port actions of channel `c` in a history leave (10_state.md R34), one event later. -/
def replayPaused (c : Nat) (soFar : Bool) (e : Event) : Bool :=
  match e with
  | .channel c' (.port .gateClock) => if c' = c then true else soFar
  | .channel c' (.port .ungateClock) => if c' = c then false else soFar
  | _ => soFar

/-- Every channel's `ENABLED` and `PAUSED` are what its port actions since reset say (10_state.md R34). -/
def State.ImageInv (s : State) : Prop :=
  ∀ c k, s.channels[c]? = some k →
    k.enabled = s.history.foldl (replayEnabled c) false ∧ k.paused = s.history.foldl (replayPaused c) false

/-! ### What a history says of a channel -/

/-- The event is a callback of channel `c` (41_interval_runner.md R152). -/
def Event.isCallbackOf (c : Nat) (e : Event) : Bool :=
  match e with
  | .channel c' (.callback _ _ _) => c' == c
  | _ => false

/-- The event is a port action or a callback of channel `c` (00_scope.md R14). -/
def Event.isOf (c : Nat) (e : Event) : Bool :=
  match e with
  | .channel c' _ => c' == c
  | .done _ _ => false

/-- The number of callbacks of channel `c` in a history. -/
def callbacksOf (c : Nat) (h : List Event) : Nat := h.countP (Event.isCallbackOf c)

/-- The chunk an event programs into channel `c` (10_state.md R34), 0 for any other event. -/
def Event.chunkOf (c : Nat) (e : Event) : Nat :=
  match e with
  | .channel c' (.port (.configure _ chunk)) => if c' = c then chunk.toNat else 0
  | .channel c' (.port (.armNextChunk chunk)) => if c' = c then chunk.toNat else 0
  | _ => 0

/-- The sum of the chunks programmed into channel `c` in a history (41_interval_runner.md R160). -/
def ticksProgrammed (c : Nat) (h : List Event) : Nat := (h.map (Event.chunkOf c)).sum

/-! ### Schedules -/

/-- `n` compare-match events of channel `c`, each taken at once. -/
def serviceRounds (c n : Nat) : List Action := (List.replicate n [Action.elapse c, Action.tick c]).flatten

/-- How many TICKs of channel `c` are taken, each when it is enabled (41_interval_runner.md R148), in the first `n` steps
from a state. -/
def ticksTaken (c : Nat) : Nat → State → Nat
  | 0, _ => 0
  | n + 1, s =>
    match step s with
    | .next t =>
      (if s.schedule.head? = some (.tick c) ∧ s.timerEnabled (.tick c) = true then 1 else 0) + ticksTaken c n t
    | .fault _ => 0
    | .refused _ => 0

/-- A host access that does not exist (20_memory.md R62). -/
def badAccess (off width : Nat) : Prop := width ≠ 4 ∨ off % 4 ≠ 0 ∨ 0x8000 ≤ off

/-- The next action of the schedule is a host access that does not exist. -/
def State.badAccessNext (s : State) : Prop :=
  (∃ off width rest, s.schedule = .memRead off width :: rest ∧ badAccess off width) ∨
    ∃ off width v rest, s.schedule = .memWrite off width v :: rest ∧ badAccess off width

/-! ### Values the rules give -/

/-- `CM[ch]` of a channel (00_scope.md R7). -/
abbrev Channel.cm (k : Channel) : Nat := k.cfg.width.counterMax

/-- `min(CM[ch], FULLTICKS)`: the chunk that opens a period (41_interval_runner.md R141, R155). -/
def Channel.firstChunk (k : Channel) : Nat := min k.cm k.fullTicks.toNat

/-- `n = max(1, ceil(FULLTICKS / CM[ch]))` (41_interval_runner.md R161). -/
def Channel.ticksPerPeriod (k : Channel) : Nat := max 1 ((k.fullTicks.toNat + k.cm - 1) / k.cm)

/-- The fields as they are when a period has just been opened by ARM or by a reload
(41_interval_runner.md R142, R155): the first chunk programmed and deducted. -/
def Channel.opened (k : Channel) : Channel :=
  { k with
    remaining := BitVec.ofNat 32 (k.fullTicks.toNat - k.firstChunk), cmp := BitVec.ofNat 16 k.firstChunk,
    done := decide (k.fullTicks.toNat ≤ k.cm) }

/-- The fields after ARM (41_interval_runner.md R141, R142). -/
def Channel.armed (k : Channel) : Channel := { k.opened with pending := false, enabled := true }

/-- What ARM emits on channel id `c` (41_interval_runner.md R141). -/
def armEvents (c : Nat) (k : Channel) : List Event :=
  [.channel c (.port (.configure k.divider (BitVec.ofNat 16 k.firstChunk))),
    .channel c (.port .clearPendingFlag), .channel c (.port .enableInterrupt)]

/-- What ungating a paused clock emits (41_interval_runner.md R159, 42_host_commands.md R182, R195). -/
def ungateEvents (c : Nat) (k : Channel) : List Event :=
  bif k.paused then [.channel c (.port .ungateClock)] else []

/-- What RELEASE emits on channel id `c` (41_interval_runner.md R159). -/
def releaseEvents (c : Nat) (k : Channel) : List Event :=
  [.channel c (.port .disableInterrupt), .channel c (.port .clearPendingFlag)] ++ ungateEvents c k

/-- What programming a next chunk emits on channel id `c` (41_interval_runner.md R156). -/
def nextChunkEvents (c chunk : Nat) : List Event :=
  [.channel c (.port (.armNextChunk (BitVec.ofNat 16 chunk))), .channel c (.port .enableInterrupt)]

/-- `RESULT` after a success on channel `c`: 0x0000cc00 (60_exceptions.md R230, 10_state.md R24). -/
def okResult (c : Nat) : Word := BitVec.ofNat 32 (256 * c)

/-- `RESULT` after a failure with status `code`: 0x0000FFss (60_exceptions.md R230, 10_state.md R24). -/
def failResult (code : Nat) : Word := BitVec.ofNat 32 (0xFF00 + code)

/-- The channel id an explicit command names, `none` for automatic selection (30_encoding.md R80). -/
def explicitId : Instr → Option ChannelId
  | .map ch => some ch
  | .bind (.explicit ch) _ _ => some ch
  | .bind (.auto _) _ _ => none
  | .bindInterval (.explicit ch) _ _ => some ch
  | .bindInterval (.auto _) _ _ => none
  | .stop ch => some ch
  | .pause ch => some ch
  | .resume ch => some ch
  | .restart ch _ => some ch
  | .changeFrequency ch => some ch
  | .changeInterval ch => some ch

/-- The conditions (1) to (7) of 30_encoding.md R89 on the value of a command word, each field read as a number. -/
def illegalWord (w : Word) : Prop :=
  let op := w.toNat % 256
  let ch := w.toNat / 2 ^ 8 % 256
  let a := w.toNat / 2 ^ 16 % 2
  let r := w.toNat / 2 ^ 17 % 2
  let kind := w.toNat / 2 ^ 18 % 4
  let rsv := w.toNat / 2 ^ 20
  let isBind := op = 2 ∨ op = 3
  rsv ≠ 0 ∨ (op = 0 ∨ 0x0A ≤ op) ∨ (a = 1 ∧ ¬ isBind) ∨ (r = 1 ∧ ¬ (isBind ∨ op = 7)) ∨
    (kind ≠ 0 ∧ ¬ (isBind ∧ ch = 0xFF)) ∨ kind = 3 ∨ (ch = 0xFF ∧ ¬ isBind)

/-- The commands that run the FrequencyMapper (10_state.md R25). -/
def mapsFrequency : Instr → Bool
  | .map _ => true
  | .bind _ _ _ => true
  | .bindInterval _ _ _ => true
  | .changeFrequency _ => true
  | .changeInterval _ => true
  | .stop _ => false
  | .pause _ => false
  | .resume _ => false
  | .restart _ _ => false

/-- The commands that arm or release a channel, and so drop a pending event (70_reset_and_hazards.md R267). -/
def dropsPending : Instr → Bool
  | .bind _ _ _ => true
  | .bindInterval _ _ _ => true
  | .stop _ => true
  | .restart _ _ => true
  | .changeFrequency _ => true
  | .changeInterval _ => true
  | .map _ => false
  | .pause _ => false
  | .resume _ => false

/-- The commands that act on channel `ch` and need it bound (42_host_commands.md R181). -/
def boundCommandsOf (ch : ChannelId) : List Instr :=
  [.stop ch, .pause ch, .resume ch, .restart ch false, .restart ch true, .changeFrequency ch, .changeInterval ch]

/-- A free channel of the kind asked for (42_host_commands.md R183). -/
def freeOfKind (kind : Kind) (k : Channel) : Prop :=
  k.callback = 0#32 ∧ (kind = .any ∨ (kind = .bits8 ∧ k.cfg.width = .w8) ∨ (kind = .bits16 ∧ k.cfg.width = .w16))

/-- The channel a BIND acts on is `k` with id `c` (42_host_commands.md R182, R183): the explicit id, or the least id
of a free channel of the kind. -/
def bindsTo (s : State) (target : Target) (c : Nat) (k : Channel) : Prop :=
  s.channels[c]? = some k ∧
    match target with
    | .explicit ch => c = ch.toNat
    | .auto kind => freeOfKind kind k ∧ ∀ j k', j < c → s.channels[j]? = some k' → ¬ freeOfKind kind k'

/-- The fields after a successful BIND at the frequency `f`, mapped to `div` and `ticks` (42_host_commands.md
R182, R185, R186). -/
def boundChannel (s : State) (k : Channel) (hasArg hasRepeat : Bool) (num den : Word) (div ticks : Nat) : Channel :=
  Channel.armed
    { k with
      callback := s.opc, hasArg := hasArg, arg := bif hasArg then s.opd else 0#32,
      repeats := bif hasRepeat then s.ope else 0xFFFFFFFF#32,
      divider := BitVec.ofNat 32 div, fullTicks := BitVec.ofNat 32 ticks, freqNum := num, freqDen := den,
      paused := false }

/-- The whole state after a successful BIND of channel `k`, id `c` (42_host_commands.md R182). -/
def afterBind (s : State) (c : Nat) (k : Channel) (hasArg hasRepeat : Bool) (num den : Word) (div ticks : Nat) :
    State :=
  { s with
    channels := s.channels.set c (boundChannel s k hasArg hasRepeat num den div ticks),
    history := s.history ++ ungateEvents c k ++
      armEvents c (boundChannel s k hasArg hasRepeat num den div ticks),
    mapDiv := BitVec.ofNat 32 div, mapTicks := BitVec.ofNat 32 ticks, result := okResult c }

/-- The fields after a successful change of frequency (42_host_commands.md R200). -/
def changedChannel (k : Channel) (num den : Word) (div ticks : Nat) : Channel :=
  Channel.armed
    { k with divider := BitVec.ofNat 32 div, fullTicks := BitVec.ofNat 32 ticks, freqNum := num, freqDen := den }

/-- The whole state after a successful change of frequency of channel `k`, id `c` (42_host_commands.md R200). -/
def afterChange (s : State) (c : Nat) (k : Channel) (num den : Word) (div ticks : Nat) : State :=
  { s with
    channels := s.channels.set c (changedChannel k num den div ticks),
    history := s.history ++ armEvents c (changedChannel k num den div ticks),
    mapDiv := BitVec.ofNat 32 div, mapTicks := BitVec.ofNat 32 ticks, result := okResult c }

/-- The repeat count RESTART leaves (42_host_commands.md R196, R197). -/
def restartCount (k : Channel) (hasDuration : Bool) (millis : Word) : Word :=
  bif hasDuration then
    if millis = 0#32 then 0xFFFFFFFF#32
    else BitVec.ofNat 32 (min (2 ^ 31 - 1) (millis.toNat * k.freqNum.toNat / (1000 * k.freqDen.toNat)))
  else k.repeats

/-- The whole state after a release of channel `k`, id `c` (41_interval_runner.md R159), but for `RESULT`. -/
def afterRelease (s : State) (c : Nat) (k : Channel) : State :=
  { s with channels := s.channels.set c (Channel.free k.cfg), history := s.history ++ releaseEvents c k }

end Sys2Proof.Machine
end

