-- ==== Sys2Proof/Certificates/Slice0/Obligations.lean ====
section
/-! DEFINITION. The statements about the model, for the provers. They come from the numbered rules of spec/; each
docstring names its rules. A state's parameters are arbitrary unless a premise bounds them (log 3), and its schedule
is arbitrary, so a statement holds for every interleaving of the agents (log 1). -/

open Sys2Proof Sys2Proof.Machine

/-! ## Encoding -/

/-- Decoding the encoding of a well-formed command gives the command back (30_encoding.md R80, R88). -/
def Obligations.DecodeOfEncode : Prop :=
  ∀ i : Instr, i.wellFormed = true → decode (encode i) = .ok i

/-- A word that decodes is the encoding of the well-formed command it decodes to: every word is one command's or
illegal (30_encoding.md R90, R91). -/
def Obligations.EncodeOfDecode : Prop :=
  ∀ (w : Word) (i : Instr), decode w = .ok i → i.wellFormed = true ∧ encode i = w

/-- 30_encoding.md R89: which words are illegal, what executing one does, and that an explicit channel id beyond the
last channel is legal and fails with `InvalidChannel`. -/
def Obligations.IllegalWordsAndTheirExecution : Prop :=
  (∀ w : Word, (∃ e, decode w = .error e) ↔ illegalWord w) ∧
  (∀ (w : Word) (s : State) (rest : List Action), illegalWord w → s.schedule = commandWrite w :: rest →
    step s = .next { s with
      schedule := rest, cmd := w, result := failResult 4, history := s.history ++ [.done w (failResult 4)] }) ∧
  (∀ (w : Word) (i : Instr) (ch : ChannelId) (s : State), decode w = .ok i → explicitId i = some ch →
    s.channels.length ≤ ch.toNat → exec i s = .next { s with result := failResult 1 })

/-- A word that decodes has the fixed bits of its command's row (30_encoding.md R88). -/
def Obligations.DecodedWordMatchesItsRow : Prop :=
  ∀ (w : Word) (i : Instr), decode w = .ok i → w &&& i.tableRow.2 = i.tableRow.1

/-- The words written out in 30_encoding.md R96 decode to the commands they stand for. -/
def Obligations.WrittenOutWordsDecode : Prop :=
  decode 0x00000101#32 = .ok (.map 1#8) ∧
  decode 0x00030102#32 = .ok (.bind (.explicit 1#8) true true) ∧
  decode 0x0005FF02#32 = .ok (.bind (.auto .bits8) true false) ∧
  decode 0x000AFF03#32 = .ok (.bindInterval (.auto .bits16) false true) ∧
  decode 0x00000204#32 = .ok (.stop 2#8) ∧
  decode 0x00000005#32 = .ok (.pause 0#8) ∧
  decode 0x00000006#32 = .ok (.resume 0#8) ∧
  decode 0x00020207#32 = .ok (.restart 2#8 true) ∧
  decode 0x00000008#32 = .ok (.changeFrequency 0#8) ∧
  decode 0x00000109#32 = .ok (.changeInterval 1#8)

/-! ## Steps and the window -/

/-- When the host's next access writes a word that decodes to a command, the step runs that command's meaning on the
state with the word in `CMD` and emits `Done` (42_host_commands.md R180). -/
def Obligations.StepRunsTheDecodedCommand : Prop :=
  ∀ (s t : State) (w : Word) (i : Instr) (rest : List Action),
    s.schedule = .memWrite 0x000 4 w :: rest → decode w = .ok i →
    exec i { s with schedule := rest, cmd := w } = .next t →
    step s = .next { t with history := t.history ++ [.done w t.result] }

/-- A step is refused exactly when the next action is a host access that is not an aligned word inside the window
(20_memory.md R62); every other step answers a next state: of those, that no command stops the host is 60_exceptions.md
R237, and that a step with an empty schedule, and an ELAPSE or TICK that is not enabled or whose channel id does not
exist, is passed over is the model's choice (log 1). -/
def Obligations.OnlyBadAccessesAreRefused : Prop :=
  ∀ s : State, (∃ t, step s = .next t) ↔ ¬ s.badAccessNext

/-- 20_memory.md R64: reserved offsets read as zero, a read changes nothing but what the host has received (log 2) and
repeats its value, a write of a read-only or reserved offset changes nothing, and an operand register's write only
stores. -/
def Obligations.ReadsAndIgnoredWritesHaveNoSideEffect : Prop :=
  ∀ (s : State) (off : Nat) (v : Word) (rest : List Action), off % 4 = 0 → off < 0x8000 →
    ((0x28 ≤ off ∧ off < 0x100 ∨
      0x100 ≤ off ∧ (s.channels.length ≤ (off - 0x100) / 0x80 ∨ 0x60 ≤ (off - 0x100) % 0x80 ∨
        0x2C ≤ (off - 0x100) % 0x80 ∧ (off - 0x100) % 0x80 < 0x40)) → readWindow s off = 0#32) ∧
    (s.schedule = .memRead off 4 :: rest →
      step s = .next { s with
        schedule := rest, reads := s.reads ++ [{ off := off, value := readWindow s off }] }) ∧
    (s.schedule = .memRead off 4 :: .memRead off 4 :: rest →
      core.run 2 s = .next { s with
        schedule := rest,
        reads := s.reads ++ [{ off := off, value := readWindow s off }, { off := off, value := readWindow s off }] }) ∧
    (s.schedule = .memWrite off 4 v :: rest → 0x18 ≤ off → step s = .next { s with schedule := rest }) ∧
    (s.schedule = .memWrite off 4 v :: rest →
      (off = 0x04 → step s = .next { s with schedule := rest, opa := v }) ∧
      (off = 0x08 → step s = .next { s with schedule := rest, opb := v }) ∧
      (off = 0x0C → step s = .next { s with schedule := rest, opc := v }) ∧
      (off = 0x10 → step s = .next { s with schedule := rest, opd := v }) ∧
      (off = 0x14 → step s = .next { s with schedule := rest, ope := v }))

/-- What a read of each named offset of the window returns (20_memory.md R61, 10_state.md R26). -/
def Obligations.WindowMapNamesEveryRegister : Prop :=
  ∀ s : State, s.channels.length ≤ 255 →
    (readWindow s 0x000 = s.cmd ∧ readWindow s 0x004 = s.opa ∧ readWindow s 0x008 = s.opb ∧
      readWindow s 0x00C = s.opc ∧ readWindow s 0x010 = s.opd ∧ readWindow s 0x014 = s.ope ∧
      readWindow s 0x018 = s.result ∧ readWindow s 0x01C = s.mapDiv ∧ readWindow s 0x020 = s.mapTicks ∧
      (readWindow s 0x024).toNat = s.channels.length) ∧
    ∀ (c : Nat) (k : Channel), s.channels[c]? = some k →
      readWindow s (0x100 + 0x80 * c + 0x00) = k.statusWord ∧
      readWindow s (0x100 + 0x80 * c + 0x04) = k.configWord ∧
      readWindow s (0x100 + 0x80 * c + 0x08) = k.callback ∧
      readWindow s (0x100 + 0x80 * c + 0x0C) = k.arg ∧
      readWindow s (0x100 + 0x80 * c + 0x10) = k.divider ∧
      readWindow s (0x100 + 0x80 * c + 0x14) = k.fullTicks ∧
      readWindow s (0x100 + 0x80 * c + 0x18) = k.remaining ∧
      readWindow s (0x100 + 0x80 * c + 0x1C) = k.repeats ∧
      readWindow s (0x100 + 0x80 * c + 0x20) = k.cmp.setWidth 32 ∧
      readWindow s (0x100 + 0x80 * c + 0x24) = k.freqNum ∧
      readWindow s (0x100 + 0x80 * c + 0x28) = k.freqDen ∧
      ∀ i, i < 8 →
        (i < k.cfg.divs.length →
          readWindow s (0x100 + 0x80 * c + 0x40 + 4 * i) = BitVec.ofNat 32 (k.cfg.divs.getD i 0)) ∧
        (k.cfg.divs.length ≤ i → readWindow s (0x100 + 0x80 * c + 0x40 + 4 * i) = 0#32)

/-- 10_state.md R38: the bits of `CH_STATUS` and of `CH_CONFIG`. -/
def Obligations.StatusAndConfigWordBits : Prop :=
  ∀ k : Channel,
    (k.statusWord.getLsbD 0 = true ↔ k.callback ≠ 0#32) ∧
    k.statusWord.getLsbD 1 = k.enabled ∧ k.statusWord.getLsbD 2 = k.paused ∧ k.statusWord.getLsbD 3 = k.done ∧
    k.statusWord.getLsbD 4 = k.pending ∧ k.statusWord.getLsbD 5 = k.hasArg ∧
    (k.statusWord.getLsbD 6 = true ↔ k.cfg.width.bits = 16) ∧ (∀ i, 7 ≤ i → k.statusWord.getLsbD i = false) ∧
    (k.cfg.divs.length ≤ 8 → k.configWord.toNat = k.cfg.width.bits + 256 * k.cfg.divs.length)

/-- The window's bytes are little-endian (20_memory.md R63). -/
def Obligations.WindowBytesAreLittleEndian : Prop :=
  ∀ (s : State) (off : Nat), off % 4 = 0 →
    (readWindow s off).toNat =
      (windowByte s off).toNat + 2 ^ 8 * (windowByte s (off + 1)).toNat + 2 ^ 16 * (windowByte s (off + 2)).toNat +
        2 ^ 24 * (windowByte s (off + 3)).toNat

/-! ## Rules about every command -/

/-- 60_exceptions.md R237: no command traps the host, and TICK has no error path. -/
def Obligations.NoCommandAndNoTickTraps : Prop :=
  (∀ (i : Instr) (s : State), ∃ t, exec i s = .next t) ∧
  (∀ (s : State) (c : Nat) (rest : List Action), s.schedule = .tick c :: rest → ∃ t, step s = .next t)

/-- No command writes an operand register, `CMD`, the parameters, or what is outside the block
(10_state.md R22, R23, R37). -/
def Obligations.CommandsKeepOperandsAndParameters : Prop :=
  ∀ (i : Instr) (s t : State), exec i s = .next t →
    t.opa = s.opa ∧ t.opb = s.opb ∧ t.opc = s.opc ∧ t.opd = s.opd ∧ t.ope = s.ope ∧ t.cmd = s.cmd ∧
      t.schedule = s.schedule ∧ t.reads = s.reads ∧ t.params = s.params

/-- 60_exceptions.md R236: a failed command, an illegal word among them, records only `RESULT` with `CHSEL` = 0xFF
and its `Done` event; `CMD` holds the word; nothing else changed. -/
def Obligations.FailedCommandRecordsOnlyResult : Prop :=
  ∀ (s t : State) (w : Word) (rest : List Action), s.schedule = commandWrite w :: rest → step s = .next t →
    statusOf t.result ≠ 0#8 →
    chselOf t.result = 0xFF#8 ∧
      t = { s with
        schedule := rest, cmd := w, result := t.result, history := s.history ++ [.done w t.result] }

/-- A command that succeeds changes no channel but the one `CHSEL` names, and emits events of that channel only
(10_state.md R24). -/
def Obligations.SuccessTouchesOnlyTheSelectedChannel : Prop :=
  ∀ (i : Instr) (s t : State), s.channels.length ≤ 255 → exec i s = .next t → statusOf t.result = 0#8 →
    (∀ c, c ≠ (chselOf t.result).toNat → t.channels[c]? = s.channels[c]?) ∧
      ∃ es : List Emission, t.history = s.history ++ es.map (Event.channel (chselOf t.result).toNat)

/-- `MAPDIV` and `MAPTICKS` change only in a successful command that runs the mapper (10_state.md R25). -/
def Obligations.MapRegistersNeedASuccessfulMapping : Prop :=
  ∀ (i : Instr) (s t : State), exec i s = .next t → mapsFrequency i = false ∨ statusOf t.result ≠ 0#8 →
    t.mapDiv = s.mapDiv ∧ t.mapTicks = s.mapTicks

/-- A successful BIND, BIND_INTERVAL, STOP, RESTART, CHANGE_FREQUENCY or CHANGE_INTERVAL leaves no event pending on
its channel (R267 of 70_reset_and_hazards.md, the spec's inference from R141 and R159). -/
def Obligations.RearmingAndStoppingDropThePendingEvent : Prop :=
  ∀ (i : Instr) (s t : State) (k : Channel), s.channels.length ≤ 255 → exec i s = .next t → dropsPending i = true →
    statusOf t.result = 0#8 → t.channels[(chselOf t.result).toNat]? = some k → k.pending = false

/-! ## Invariants -/

/-- The invariant of 10_state.md R39, part (b) of which the spec marks as its inference from R141, R151 and R155, with
R29's on `ARG`, is kept by every step of every agent. -/
def Obligations.EveryStepKeepsTheChannelInvariant : Prop :=
  ∀ s t : State, s.Inv → step s = .next t → t.Inv

/-- After reset the channel invariant (10_state.md R39), the form of `RESULT` and the agreement of the peripheral
image with the history hold, for all valid parameters; in particular in the model's reset state, whose parameters EX
are the model's choice (log 3). -/
def Obligations.InvariantsHoldAtReset : Prop :=
  (∀ p : Params, p.valid → (State.resetWith p).Inv ∧ (State.resetWith p).ResultInv ∧ (State.resetWith p).ImageInv) ∧
    State.reset.Inv ∧ State.reset.ResultInv ∧ State.reset.ImageInv

/-- In every channel `ENABLED` and `PAUSED` stay what the port actions emitted since reset have made them
(10_state.md R34). -/
def Obligations.ImageFollowsThePortActions : Prop :=
  ∀ s t : State, s.ImageInv → step s = .next t → t.ImageInv

/-- `RESULT` keeps its form: a status code 0 to 4, the id of a channel on success, 0xFF on failure, zero above
(10_state.md R24, 60_exceptions.md R230). -/
def Obligations.EveryStepKeepsTheResultForm : Prop :=
  ∀ s t : State, 1 ≤ s.channels.length → s.channels.length ≤ 255 → s.ResultInv → step s = .next t → t.ResultInv

/-- No step changes a parameter: the clock, the number of channels, a width, a divider table (10_state.md R37,
00_scope.md R7). -/
def Obligations.ParametersNeverChange : Prop :=
  ∀ s t : State, step s = .next t → t.params = s.params

/-- The event history only grows at its end, except that a reset empties it (00_scope.md R14, 10_state.md R42). -/
def Obligations.HistoryOnlyGrows : Prop :=
  ∀ s t : State, step s = .next t →
    (∃ rest, s.schedule = .reset :: rest ∧ t.history = []) ∨ ∃ es, t.history = s.history ++ es

/-- 10_state.md R42: every register, every field of every channel and the history after a reset; the parameters and
`CONFIG` stay. -/
def Obligations.ResetPutsEveryFieldAtItsValue : Prop :=
  ∀ (s : State) (rest : List Action), s.schedule = .reset :: rest → s.channels.length ≤ 255 →
    ∃ t, step s = .next t ∧
      (t.opa = 0#32 ∧ t.opb = 0#32 ∧ t.opc = 0#32 ∧ t.opd = 0#32 ∧ t.ope = 0#32 ∧ t.cmd = 0#32 ∧ t.result = 0#32 ∧
        t.mapDiv = 0#32 ∧ t.mapTicks = 0#32 ∧ t.history = []) ∧
      t.params = s.params ∧ (readWindow t 0x024).toNat = s.channels.length ∧
      ∀ k ∈ t.channels,
        k.callback = 0#32 ∧ k.hasArg = false ∧ k.arg = 0#32 ∧ k.divider = 0#32 ∧ k.fullTicks = 0#32 ∧
          k.remaining = 0#32 ∧ k.repeats = 0#32 ∧ k.done = false ∧ k.enabled = false ∧ k.paused = false ∧
          k.pending = false ∧ k.cmp = 0#16 ∧ k.freqNum = 0#32 ∧ k.freqDen = 0#32

/-! ## The FrequencyMapper -/

/-- What an accepted mapping answers: the divider is of the table, the ticks fit 32 bits and are the floor quotient less
one; and `T` does not increase along the table (R120 of 40_frequency_mapper.md, the spec's inference from R114, R115 and
R117). -/
def Obligations.MapperResultFits : Prop :=
  ∀ (clkHz : Nat) (p : ChannelParams) (f : Freq), p.valid →
    (∀ div ticks, mapFrequency clkHz p f = .ok div ticks →
      div ∈ p.divs ∧ ticks ≤ 2 ^ 32 - 1 ∧ ticks + 1 = clkHz * f.den.toNat / (f.num.toNat * div)) ∧
    p.divs.Pairwise fun d d' => ticksAt clkHz f d' ≤ ticksAt clkHz f d

/-- The accepted divider is the smallest of the table whose chain length is below 16384, or the largest when none
qualifies (R121 of 40_frequency_mapper.md, the spec's inference from R115 and R116). -/
def Obligations.MapperPicksTheSmallestDivider : Prop :=
  ∀ (clkHz : Nat) (p : ChannelParams) (f : Freq) (div ticks : Nat), p.valid →
    mapFrequency clkHz p f = .ok div ticks →
    (ticks < 16384 * p.width.counterMax ∧
      ∀ d ∈ p.divs, d < div → ((16384 * p.width.counterMax : Nat) : Int) ≤ ticksAt clkHz f d) ∨
    (p.divs.getLast? = some div ∧
      ∀ d ∈ p.divs, ((16384 * p.width.counterMax : Nat) : Int) ≤ ticksAt clkHz f d)

/-- When the mapper rejects, and with which reason, for each reason as a condition on the operands and the table
(40_frequency_mapper.md R112, R113, R115, R118, R119). -/
def Obligations.MapperRejectsExactlyWhen : Prop :=
  ∀ (clkHz : Nat) (p : ChannelParams) (f : Freq), p.valid →
    (mapFrequency clkHz p f = .reject .zeroOperand ↔ f.num = 0#32 ∨ f.den = 0#32) ∧
    (mapFrequency clkHz p f = .reject .belowGuard ↔
      f.num ≠ 0#32 ∧ f.den ≠ 0#32 ∧ 429496 * f.num.toNat < 25 * f.den.toNat) ∧
    (mapFrequency clkHz p f = .reject .noFit ↔
      f.num ≠ 0#32 ∧ f.den ≠ 0#32 ∧ 25 * f.den.toNat ≤ 429496 * f.num.toNat ∧
        ∀ d ∈ p.divs, ((2 ^ 32 - 1 : Nat) : Int) < ticksAt clkHz f d) ∧
    (mapFrequency clkHz p f = .reject .tooHigh ↔
      f.num ≠ 0#32 ∧ f.den ≠ 0#32 ∧ 25 * f.den.toNat ≤ 429496 * f.num.toNat ∧
        ∃ d rest, p.divs = d :: rest ∧ clkHz * f.den.toNat < f.num.toNat * d)

/-- R124 of 40_frequency_mapper.md, the spec's inference from R113 and R123: an interval above 17,179,840 ms is rejected
by the guard on every channel, a shorter one never by the guard; the longest is accepted by a 16-bit channel of EX, and
a shorter one is rejected with `NoFit` by EX's channel 2. -/
def Obligations.LongestInterval : Prop :=
  (∀ (clkHz : Nat) (p : ChannelParams) (m : Word), m ≠ 0#32 →
    (mapFrequency clkHz p (intervalToFreq m) = .reject .belowGuard ↔ 17179840 < m.toNat)) ∧
  mapFrequency 16000000 { width := .w16, divs := [1, 8, 64, 256, 1024] } (intervalToFreq 17179840#32) =
    .ok 1024 268434999 ∧
  mapFrequency 16000000 { width := .w16, divs := [2] } (intervalToFreq 1000000#32) = .reject .noFit

/-! ## The commands -/

/-- MAP writes `MAPDIV`, `MAPTICKS` and `RESULT`, and nothing else; on its two failures only `RESULT`
(40_frequency_mapper.md R122). -/
def Obligations.MapReportsTheMapping : Prop :=
  ∀ (s : State) (ch : ChannelId),
    (∀ k div ticks, s.channels[ch.toNat]? = some k →
      mapFrequency s.clkHz k.cfg { num := s.opa, den := s.opb } = .ok div ticks →
      exec (.map ch) s = .next { s with
        mapDiv := BitVec.ofNat 32 div, mapTicks := BitVec.ofNat 32 ticks, result := okResult ch.toNat }) ∧
    (s.channels.length ≤ ch.toNat → exec (.map ch) s = .next { s with result := failResult 1 }) ∧
    (∀ k reason, s.channels[ch.toNat]? = some k →
      mapFrequency s.clkHz k.cfg { num := s.opa, den := s.opb } = .reject reason →
      exec (.map ch) s = .next { s with result := failResult 2 })

/-- BIND of an explicit or an automatically selected channel: the whole state it leaves (42_host_commands.md R182,
R183, R184, R185, R186). -/
def Obligations.BindBindsAndArms : Prop :=
  ∀ (s : State) (target : Target) (hasArg hasRepeat : Bool) (c : Nat) (k : Channel) (div ticks : Nat),
    s.channels.length ≤ 255 → bindsTo s target c k → s.opc ≠ 0#32 →
    mapFrequency s.clkHz k.cfg { num := s.opa, den := s.opb } = .ok div ticks →
    exec (.bind target hasArg hasRepeat) s = .next (afterBind s c k hasArg hasRepeat s.opa s.opb div ticks)

/-- BIND_INTERVAL binds at 1000 / `OPA` Hz: the whole state it leaves (42_host_commands.md R188). -/
def Obligations.BindIntervalBindsAndArms : Prop :=
  ∀ (s : State) (target : Target) (hasArg hasRepeat : Bool) (c : Nat) (k : Channel) (div ticks : Nat),
    s.channels.length ≤ 255 → bindsTo s target c k → s.opc ≠ 0#32 →
    mapFrequency s.clkHz k.cfg { num := 1000#32, den := s.opa } = .ok div ticks →
    exec (.bindInterval target hasArg hasRepeat) s =
      .next (afterBind s c k hasArg hasRepeat 1000#32 s.opa div ticks)

/-- The failures of BIND and BIND_INTERVAL, in their order: channel, null callback, mapper (60_exceptions.md R231,
R232, R233, R235). -/
def Obligations.BindRejectionsInOrder : Prop :=
  ∀ (s : State) (hasArg hasRepeat : Bool),
    (∀ ch : ChannelId, s.channels.length ≤ ch.toNat →
      exec (.bind (.explicit ch) hasArg hasRepeat) s = .next { s with result := failResult 1 } ∧
      exec (.bindInterval (.explicit ch) hasArg hasRepeat) s = .next { s with result := failResult 1 }) ∧
    (∀ kind : Kind, (∀ k ∈ s.channels, ¬ freeOfKind kind k) →
      exec (.bind (.auto kind) hasArg hasRepeat) s = .next { s with result := failResult 3 } ∧
      exec (.bindInterval (.auto kind) hasArg hasRepeat) s = .next { s with result := failResult 3 }) ∧
    (∀ (target : Target) (c : Nat) (k : Channel), bindsTo s target c k →
      (s.opc = 0#32 →
        exec (.bind target hasArg hasRepeat) s = .next { s with result := failResult 2 } ∧
        exec (.bindInterval target hasArg hasRepeat) s = .next { s with result := failResult 2 }) ∧
      (∀ reason, mapFrequency s.clkHz k.cfg { num := s.opa, den := s.opb } = .reject reason →
        exec (.bind target hasArg hasRepeat) s = .next { s with result := failResult 2 }) ∧
      (∀ reason, mapFrequency s.clkHz k.cfg { num := 1000#32, den := s.opa } = .reject reason →
        exec (.bindInterval target hasArg hasRepeat) s = .next { s with result := failResult 2 }))

/-- STOP of a bound channel releases it: the whole state it leaves (42_host_commands.md R190,
41_interval_runner.md R159). -/
def Obligations.StopReleasesTheChannel : Prop :=
  ∀ (s : State) (ch : ChannelId) (k : Channel), s.channels[ch.toNat]? = some k → k.callback ≠ 0#32 →
    exec (.stop ch) s = .next { afterRelease s ch.toNat k with result := okResult ch.toNat }

/-- PAUSE of a bound channel: a running one gets `PAUSED` and a `gateClock()`, a paused one nothing; nothing else
changes but `RESULT` (42_host_commands.md R194). -/
def Obligations.PauseGatesTheClock : Prop :=
  ∀ (s : State) (ch : ChannelId) (k : Channel), s.channels[ch.toNat]? = some k → k.callback ≠ 0#32 →
    (k.paused = false →
      exec (.pause ch) s = .next { s with
        channels := s.channels.set ch.toNat { k with paused := true },
        history := s.history ++ [.channel ch.toNat (.port .gateClock)], result := okResult ch.toNat }) ∧
    (k.paused = true → exec (.pause ch) s = .next { s with result := okResult ch.toNat })

/-- RESUME of a bound channel: a paused one loses `PAUSED` with an `ungateClock()`, a running one nothing; nothing
else changes but `RESULT` (42_host_commands.md R195). -/
def Obligations.ResumeUngatesTheClock : Prop :=
  ∀ (s : State) (ch : ChannelId) (k : Channel), s.channels[ch.toNat]? = some k → k.callback ≠ 0#32 →
    (k.paused = true →
      exec (.resume ch) s = .next { s with
        channels := s.channels.set ch.toNat { k with paused := false },
        history := s.history ++ [.channel ch.toNat (.port .ungateClock)], result := okResult ch.toNat }) ∧
    (k.paused = false → exec (.resume ch) s = .next { s with result := okResult ch.toNat })

/-- RESTART of a bound channel arms it again, with the repeat count of the duration when `D` = 1, and cannot fail:
the whole state it leaves (42_host_commands.md R196, R197). The premise on the denominator, for `D` = 1 only, is part of
the invariant of 10_state.md R39 (`Channel.boundInv`): the rule's quotient has no value at 0, and the model's count
there is log 6's. -/
def Obligations.RestartArmsAgain : Prop :=
  ∀ (s : State) (ch : ChannelId) (hasDuration : Bool) (k : Channel), s.channels[ch.toNat]? = some k →
    k.callback ≠ 0#32 → (hasDuration = true → k.freqDen ≠ 0#32) →
    exec (.restart ch hasDuration) s = .next { s with
      channels := s.channels.set ch.toNat
        (Channel.armed { k with repeats := restartCount k hasDuration s.opa }),
      history := s.history ++ armEvents ch.toNat k, result := okResult ch.toNat }

/-- CHANGE_FREQUENCY of a bound channel: the whole state it leaves (42_host_commands.md R200). -/
def Obligations.ChangeFrequencyArmsAgain : Prop :=
  ∀ (s : State) (ch : ChannelId) (k : Channel) (div ticks : Nat), s.channels[ch.toNat]? = some k →
    k.callback ≠ 0#32 → mapFrequency s.clkHz k.cfg { num := s.opa, den := s.opb } = .ok div ticks →
    exec (.changeFrequency ch) s = .next (afterChange s ch.toNat k s.opa s.opb div ticks)

/-- CHANGE_INTERVAL of a bound channel: the whole state it leaves (42_host_commands.md R201). -/
def Obligations.ChangeIntervalArmsAgain : Prop :=
  ∀ (s : State) (ch : ChannelId) (k : Channel) (div ticks : Nat), s.channels[ch.toNat]? = some k →
    k.callback ≠ 0#32 → mapFrequency s.clkHz k.cfg { num := 1000#32, den := s.opa } = .ok div ticks →
    exec (.changeInterval ch) s = .next (afterChange s ch.toNat k 1000#32 s.opa div ticks)

/-- The failures of the commands that need a bound channel: an id out of range or a free channel is
`InvalidChannel`, a rejected frequency leaves the channel as it was (42_host_commands.md R181, R200, R201). -/
def Obligations.BoundCommandFailures : Prop :=
  ∀ (s : State) (ch : ChannelId),
    (∀ i ∈ boundCommandsOf ch,
      (s.channels.length ≤ ch.toNat → exec i s = .next { s with result := failResult 1 }) ∧
      (∀ k, s.channels[ch.toNat]? = some k → k.callback = 0#32 →
        exec i s = .next { s with result := failResult 1 })) ∧
    (∀ k, s.channels[ch.toNat]? = some k → k.callback ≠ 0#32 →
      (∀ reason, mapFrequency s.clkHz k.cfg { num := s.opa, den := s.opb } = .reject reason →
        exec (.changeFrequency ch) s = .next { s with result := failResult 2 }) ∧
      (∀ reason, mapFrequency s.clkHz k.cfg { num := 1000#32, den := s.opa } = .reject reason →
        exec (.changeInterval ch) s = .next { s with result := failResult 2 }))

/-- BIND_INTERVAL and CHANGE_INTERVAL are BIND and CHANGE_FREQUENCY with 1000 and `OPA` for the frequency, for every
outcome (42_host_commands.md R188, R201, 40_frequency_mapper.md R123). -/
def Obligations.IntervalCommandsAreFrequencyCommands : Prop :=
  ∀ (s t : State),
    (∀ (target : Target) (hasArg hasRepeat : Bool),
      exec (.bindInterval target hasArg hasRepeat) s = .next t ↔
        exec (.bind target hasArg hasRepeat) { s with opa := 1000#32, opb := s.opa } =
            .next { t with opa := 1000#32, opb := s.opa } ∧
          t.opa = s.opa ∧ t.opb = s.opb) ∧
    (∀ ch : ChannelId,
      exec (.changeInterval ch) s = .next t ↔
        exec (.changeFrequency ch) { s with opa := 1000#32, opb := s.opa } =
            .next { t with opa := 1000#32, opb := s.opa } ∧
          t.opa = s.opa ∧ t.opb = s.opb)

/-- `DurationToRepeats` as a signed count: -1 for no duration, else the number of whole periods, at most 2^31 - 1
(42_host_commands.md R197). -/
def Obligations.DurationCountsWholePeriods : Prop :=
  ∀ (millis : Word) (f : Freq), f.den ≠ 0#32 →
    (millis = 0#32 → (durationToRepeats millis f).toInt = -1) ∧
    (millis ≠ 0#32 →
      (durationToRepeats millis f).toInt =
        ((min (2 ^ 31 - 1) (millis.toNat * f.num.toNat / (1000 * f.den.toNat)) : Nat) : Int))

/-- PAUSE of a running channel, any number of ELAPSE entries of any channels, then RESUME leave the channel as it was,
and emit only `gateClock()` and `ungateClock()` beside the two completions (R206 of 42_host_commands.md, the spec's
inference from R194 and R195). That the ELAPSE entries of the paused channel itself, of other channels where they are
not enabled and of ids that do not exist are passed over is the model's choice (log 1). -/
def Obligations.PauseThenResumeKeepsThePosition : Prop :=
  ∀ (s : State) (ch : ChannelId) (k : Channel) (between : List Nat) (rest : List Action),
    ch ≠ 0xFF#8 → s.channels[ch.toNat]? = some k → k.callback ≠ 0#32 → k.paused = false →
    s.schedule =
      commandWrite (encode (.pause ch)) :: (between.map Action.elapse ++ commandWrite (encode (.resume ch)) :: rest) →
    ∃ t, core.run (between.length + 2) s = .next t ∧ t.channels[ch.toNat]? = some k ∧
      t.history = s.history ++
        [.channel ch.toNat (.port .gateClock), .done (encode (.pause ch)) (okResult ch.toNat),
          .channel ch.toNat (.port .ungateClock), .done (encode (.resume ch)) (okResult ch.toNat)]

/-! ## The counter peripheral and the interrupt -/

/-- When ELAPSE is enabled it sets `PENDING` and emits nothing (41_interval_runner.md R145). That a scheduled ELAPSE
which is not enabled leaves the block as it is and is passed over is the model's choice (log 1). -/
def Obligations.ElapseSetsPendingWhenEnabled : Prop :=
  ∀ (s : State) (c : Nat) (rest : List Action), s.schedule = .elapse c :: rest →
    (∀ k, s.channels[c]? = some k →
      (k.callback ≠ 0#32 ∧ k.enabled = true ∧ k.paused = false ∧ k.pending = false →
        step s = .next { s with schedule := rest, channels := s.channels.set c { k with pending := true } }) ∧
      (¬ (k.callback ≠ 0#32 ∧ k.enabled = true ∧ k.paused = false ∧ k.pending = false) →
        step s = .next { s with schedule := rest })) ∧
    (s.channels.length ≤ c → step s = .next { s with schedule := rest })

/-- A TICK that is not enabled is not taken (41_interval_runner.md R148): the schedule moves on and nothing else
changes, which is the model's choice (log 1). -/
def Obligations.TickIsTakenOnlyWhenEnabled : Prop :=
  ∀ (s : State) (c : Nat) (rest : List Action), s.schedule = .tick c :: rest →
    (∀ k, s.channels[c]? = some k → ¬ (k.pending = true ∧ k.enabled = true) →
      step s = .next { s with schedule := rest }) ∧
    (s.channels.length ≤ c → step s = .next { s with schedule := rest })

/-- An enabled TICK inside a period moves one chunk out of `REMAINING`, and emits `armNextChunk` and
`enableInterrupt`: the whole state it leaves (41_interval_runner.md R151, R156). -/
def Obligations.TickInsideAPeriod : Prop :=
  ∀ (s : State) (c : Nat) (k : Channel) (rest : List Action), s.schedule = .tick c :: rest →
    s.channels[c]? = some k → k.pending = true → k.enabled = true → k.repeats ≠ 0#32 → k.done = false →
    step s = .next { s with
      schedule := rest,
      channels := s.channels.set c { k with
        pending := false, remaining := BitVec.ofNat 32 (k.remaining.toNat - min k.cm k.remaining.toNat),
        cmp := BitVec.ofNat 16 (min k.cm k.remaining.toNat),
        done := decide (k.remaining.toNat ≤ k.cm) },
      history := s.history ++ nextChunkEvents c (min k.cm k.remaining.toNat) }

/-- 41_interval_runner.md R155, with R152, R153 and R156: an enabled TICK at the end of a period that is not the last.
The callback event comes first, a positive count is decremented, a negative one stays, and a new period is opened: the
whole state it leaves. -/
def Obligations.TickEndsAPeriodAndReloads : Prop :=
  ∀ (s : State) (c : Nat) (k : Channel) (rest : List Action), s.schedule = .tick c :: rest →
    s.channels[c]? = some k → k.pending = true → k.enabled = true → k.done = true →
    (1 < k.repeats.toInt ∨ k.repeats.toInt < 0) →
    step s = .next { s with
      schedule := rest,
      channels := s.channels.set c { k.opened with
        pending := false,
        repeats := if k.repeats.toInt < 0 then k.repeats else BitVec.ofInt 32 (k.repeats.toInt - 1) },
      history := s.history ++ .channel c (.callback k.callback k.hasArg k.arg) :: nextChunkEvents c k.firstChunk }

/-- 41_interval_runner.md R150 and R154, with R152 and R159: an enabled TICK releases an exhausted channel, with a
count of 0 at entry without a callback, at the last period of a finite count after its callback; no new chunk is
written: the whole state it leaves. -/
def Obligations.TickReleasesAnExhaustedChannel : Prop :=
  ∀ (s : State) (c : Nat) (k : Channel) (rest : List Action), s.schedule = .tick c :: rest →
    s.channels[c]? = some k → k.pending = true → k.enabled = true →
    (k.repeats = 0#32 → step s = .next { afterRelease s c k with schedule := rest }) ∧
    (k.repeats = 1#32 → k.done = true →
      step s = .next { afterRelease s c k with
        schedule := rest,
        history := s.history ++ .channel c (.callback k.callback k.hasArg k.arg) :: releaseEvents c k })

/-- A callback of a channel is emitted only by an enabled TICK of it with `DONE` = 1, one at a time, and that TICK
either releases the channel or opens a new period with `DONE` set from the new `REMAINING` (R166 of
41_interval_runner.md, the spec's inference from R157). -/
def Obligations.CallbackOnlyAtTheEndOfAPeriod : Prop :=
  ∀ (s t : State) (c : Nat), step s = .next t → callbacksOf c s.history < callbacksOf c t.history →
    ∃ k rest, s.schedule = .tick c :: rest ∧ s.channels[c]? = some k ∧ k.done = true ∧ k.pending = true ∧
      k.enabled = true ∧ callbacksOf c t.history = callbacksOf c s.history + 1 ∧
      (t.channels[c]? = some (Channel.free k.cfg) ∨
        ∃ k', t.channels[c]? = some k' ∧ (k'.done = true ↔ k'.remaining = 0#32) ∧
          k'.remaining.toNat + k'.cmp.toNat = k.fullTicks.toNat)

/-- When the whole period fits one chunk, ARM and the reload of a callback TICK leave `REMAINING` = 0, `DONE` = 1 and
the chunk `FULLTICKS` (R164 of 41_interval_runner.md, the spec's inference from R141 and R155). -/
def Obligations.ShortPeriodsAreOneChunk : Prop :=
  ∀ k : Channel, k.fullTicks.toNat ≤ k.cm →
    ((ChannelRun.start k).arm.chan.remaining = 0#32 ∧ (ChannelRun.start k).arm.chan.done = true ∧
      (ChannelRun.start k).arm.chan.cmp.toNat = k.fullTicks.toNat) ∧
    (k.done = true → k.repeats ≠ 0#32 → k.repeats ≠ 1#32 →
      k.tick.chan.remaining = 0#32 ∧ k.tick.chan.done = true ∧ k.tick.chan.cmp.toNat = k.fullTicks.toNat ∧
        k.tick.events.head? = some (.callback k.callback k.hasArg k.arg))

/-- From the opening of a period, `n = max(1, ceil(FULLTICKS / CM))` compare-match events, each taken, make the first
`n - 1` TICKs program the rest of `FULLTICKS` in chunks of at most `CM`, without a callback, and the `n`-th TICK call
back exactly once (R160 and R161 of 41_interval_runner.md, the spec's inferences from R141, R151 and R155). This is the
run of one schedule; `CallbackEveryNthTick` counts the callbacks of every interleaving. -/
def Obligations.CadenceAndTickConservation : Prop :=
  ∀ (s : State) (c : Nat) (k : Channel) (rest : List Action), s.channels[c]? = some k →
    k.callback ≠ 0#32 → k.enabled = true → k.paused = false → k.pending = false → k.repeats ≠ 0#32 → k = k.opened →
    s.schedule = serviceRounds c k.ticksPerPeriod ++ rest →
    (∃ u h, core.run (2 * (k.ticksPerPeriod - 1)) s = .next u ∧ u.history = s.history ++ h ∧ callbacksOf c h = 0 ∧
      k.cmp.toNat + ticksProgrammed c h = k.fullTicks.toNat ∧ (∀ e ∈ h, Event.chunkOf c e ≤ k.cm) ∧
      ∃ k', u.channels[c]? = some k' ∧ k'.done = true) ∧
    (∃ t h, core.run (2 * k.ticksPerPeriod) s = .next t ∧ t.history = s.history ++ h ∧ callbacksOf c h = 1 ∧
      t.schedule = rest ∧
      t.channels[c]? = some (if k.repeats = 1#32 then Channel.free k.cfg
        else { k with repeats := countAfterCallback k.repeats }))

/-- A channel armed with a repeat count of N >= 1 calls back exactly N times in N periods, and the N-th callback
releases it (R162 of 41_interval_runner.md, the spec's inference from R145, R148, R153 and R154). This is the run of one
schedule; `FairChannelEventuallyCallsBack` says it of every weakly fair behaviour. -/
def Obligations.FiniteChannelCallsBackExactlyNTimes : Prop :=
  ∀ (s : State) (c : Nat) (k : Channel) (rest : List Action) (count : Nat), s.channels[c]? = some k →
    k.callback ≠ 0#32 → k.enabled = true → k.paused = false → k.pending = false → k = k.opened →
    1 ≤ count → count < 2 ^ 31 → k.repeats = BitVec.ofNat 32 count →
    s.schedule = serviceRounds c (count * k.ticksPerPeriod) ++ rest →
    ∃ t h, core.run (2 * (count * k.ticksPerPeriod)) s = .next t ∧ t.history = s.history ++ h ∧
      callbacksOf c h = count ∧ t.channels[c]? = some (Channel.free k.cfg) ∧ t.schedule = rest

/-- A channel whose repeat count is negative calls back once a period for ever: after any number of periods it is as
it was when the first one opened (R163 of 41_interval_runner.md, the spec's inference from R153 and R161). This is the
run of one schedule; `FairChannelEventuallyCallsBack` says it of every weakly fair behaviour. -/
def Obligations.ForeverChannelNeverStops : Prop :=
  ∀ (s : State) (c : Nat) (k : Channel) (rest : List Action) (periods : Nat), s.channels[c]? = some k →
    k.callback ≠ 0#32 → k.enabled = true → k.paused = false → k.pending = false → k = k.opened →
    k.repeats.toInt < 0 →
    s.schedule = serviceRounds c (periods * k.ticksPerPeriod) ++ rest →
    ∃ t h, core.run (2 * (periods * k.ticksPerPeriod)) s = .next t ∧ t.history = s.history ++ h ∧
      callbacksOf c h = periods ∧ t.channels[c]? = some k ∧ t.schedule = rest

/-- While no command and no reset comes, a paused channel calls back at most once, and not at all when no event was
pending when it was paused (70_reset_and_hazards.md R268). The schedule may hold steps that are not enabled, which the
model passes over by its own choice (log 1). -/
def Obligations.PausedChannelCallsBackAtMostOnce : Prop :=
  ∀ (s t : State) (c : Nat) (k : Channel), s.channels[c]? = some k → k.paused = true →
    (∀ a ∈ s.schedule, a.isTimerStep = true) → core.run s.schedule.length s = .next t →
    callbacksOf c t.history ≤ callbacksOf c s.history + (if k.pending = true then 1 else 0)

/-- On a free channel no ELAPSE and no TICK does anything, whatever the other channels do: neither is enabled
(41_interval_runner.md R145, R148), so the channel stays free and no port action and no callback of it is emitted. That
scheduled steps which are not enabled are passed over is the model's choice (log 1). -/
def Obligations.FreeChannelStaysQuiet : Prop :=
  ∀ (s t : State) (c : Nat) (cfg : ChannelParams), s.channels[c]? = some (Channel.free cfg) →
    (∀ a ∈ s.schedule, a.isTimerStep = true) → core.run s.schedule.length s = .next t →
    t.channels[c]? = some (Channel.free cfg) ∧
      ∃ es, t.history = s.history ++ es ∧ ∀ e ∈ es, e.isOf c = false

/-- After reset no ELAPSE and no TICK of any channel does anything: the block waits for the host
(70_reset_and_hazards.md R261). That scheduled steps which are not enabled are passed over is the model's choice
(log 1). -/
def Obligations.ResetBlockWaitsForTheHost : Prop :=
  ∀ (p : Params) (timers : List Action), (∀ a ∈ timers, a.isTimerStep = true) →
    core.run timers.length { State.resetWith p with schedule := timers } = .next (State.resetWith p)

/-- TICKs of two channels may be taken in either order (60_exceptions.md R240, 20_memory.md R70): each emits the same
events in either order, `a` and `b` in the order they are taken, and the states are equal but for that order of the
history. That a TICK which is not enabled, or whose channel id does not exist, is passed over is the model's choice
(log 1). -/
def Obligations.TicksOfTwoChannelsCommute : Prop :=
  ∀ (s : State) (c d : Nat) (rest : List Action), c ≠ d →
    ∃ (v w t u : State) (a b : List Event),
      step { s with schedule := .tick c :: rest } = .next v ∧ v.history = s.history ++ a ∧
      step { s with schedule := .tick d :: rest } = .next w ∧ w.history = s.history ++ b ∧
      core.run 2 { s with schedule := .tick c :: .tick d :: rest } = .next t ∧ t.history = s.history ++ a ++ b ∧
      core.run 2 { s with schedule := .tick d :: .tick c :: rest } = .next u ∧ u.history = s.history ++ b ++ a ∧
      { t with history := u.history } = u

/-- A channel released by TICK is EXHAUSTED, one released by STOP is FREE, a bound one is ARMED_WAITING or
PERIOD_COMPLETE by its `DONE` (10_state.md R40). -/
def Obligations.ExhaustedIsToldApartFromStopped : Prop :=
  ∀ (s : State) (k : Channel) (ch : ChannelId) (rest : List Action), s.channels[ch.toNat]? = some k →
    k.callback ≠ 0#32 →
    (s.runnerPhase ch.toNat = some (if k.done = true then .periodComplete else .armedWaiting)) ∧
    (s.schedule = .tick ch.toNat :: rest → k.pending = true → k.enabled = true →
      (k.repeats = 0#32 ∨ k.repeats = 1#32 ∧ k.done = true) →
      ∃ t, step s = .next t ∧ t.runnerPhase ch.toNat = some .exhausted) ∧
    (s.schedule = commandWrite (encode (.stop ch)) :: rest → ch ≠ 0xFF#8 →
      ∃ t, step s = .next t ∧ t.runnerPhase ch.toNat = some .free)

/-- A STOP that the callback of the last repetition issues comes after its TICK and finds the channel free (R270 of
70_reset_and_hazards.md, the spec's inference from R154 and R181). -/
def Obligations.StopAfterTheLastCallbackIsInvalid : Prop :=
  ∀ (s : State) (k : Channel) (ch : ChannelId) (rest : List Action), s.channels[ch.toNat]? = some k →
    ch ≠ 0xFF#8 → k.pending = true → k.enabled = true → k.repeats = 1#32 → k.done = true →
    s.schedule = .tick ch.toNat :: commandWrite (encode (.stop ch)) :: rest →
    ∃ t, core.run 2 s = .next t ∧ t.result = failResult 1 ∧ t.channels[ch.toNat]? = some (Channel.free k.cfg)

/-! ## Any interleaving, and fairness -/

/-- From the opening of a period, in any run of ELAPSEs and TICKs of any channels in any order, the number of callbacks
of the channel is the number of its TICKs taken divided by `n = max(1, ceil(FULLTICKS / CM))`: every `n`-th TICK calls
back, and no other (R161 of 41_interval_runner.md, the spec's inference from R141, R151 and R155). Steps that are not
enabled are in no count; that they are passed over is the model's choice (log 1). -/
def Obligations.CallbackEveryNthTick : Prop :=
  ∀ (s : State) (c : Nat) (k : Channel), s.channels[c]? = some k → k.repeats ≠ 0#32 → k = k.opened →
    (∀ a ∈ s.schedule, a.isTimerStep = true) →
    ∃ t, core.run s.schedule.length s = .next t ∧
      callbacksOf c t.history = callbacksOf c s.history + ticksTaken c s.schedule.length s / k.ticksPerPeriod

/-- The claims that a callback eventually happens, under weak fairness (41_interval_runner.md R147), for every behaviour
of the block in which no command and no reset comes, from anywhere in a period of a bound channel that is not paused: a
negative count calls back more often than any number (R163), a positive count calls back exactly as often as it says
and the channel is then free and stays so (R162), a count of 0 leaves it free without a callback (R150). The premise `boundInv` is 10_state.md
R39, which every step keeps. A behaviour may hold steps that are not enabled, which the model passes over by its own
choice (log 1). -/
def Obligations.FairChannelEventuallyCallsBack : Prop :=
  ∀ (states : Nat → State) (acts : Nat → Action) (c : Nat) (k : Channel),
    IsBehaviour states acts → WeaklyFair states acts → (∀ n, (acts n).isQuiet = true) →
    (states 0).channels[c]? = some k → k.callback ≠ 0#32 → k.boundInv → k.paused = false →
    (k.repeats.toInt < 0 → ∀ bound, ∃ n, bound ≤ callbacksOf c (states n).history) ∧
    (0 ≤ k.repeats.toInt → ∃ n, ∀ m, n ≤ m →
      callbacksOf c (states m).history = callbacksOf c (states 0).history + k.repeats.toNat ∧
        (states m).channels[c]? = some (Channel.free k.cfg))
end

