-- ==== Sys2Proof/Laws/State.lean ====
section
/-! SUPPORT. One lemma per field for each update of the state and for each update of a channel, all true by `rfl`, so
that no proof unfolds a record update. -/

namespace Sys2Proof.Machine

/-! ### `State.applyRun` -/

@[simp] theorem State.applyRun_clkHz (s : State) (c : Nat) (r : ChannelRun) : (s.applyRun c r).clkHz = s.clkHz := rfl
@[simp] theorem State.applyRun_channels (s : State) (c : Nat) (r : ChannelRun) : (s.applyRun c r).channels = s.channels.set c r.chan := rfl
@[simp] theorem State.applyRun_opa (s : State) (c : Nat) (r : ChannelRun) : (s.applyRun c r).opa = s.opa := rfl
@[simp] theorem State.applyRun_opb (s : State) (c : Nat) (r : ChannelRun) : (s.applyRun c r).opb = s.opb := rfl
@[simp] theorem State.applyRun_opc (s : State) (c : Nat) (r : ChannelRun) : (s.applyRun c r).opc = s.opc := rfl
@[simp] theorem State.applyRun_opd (s : State) (c : Nat) (r : ChannelRun) : (s.applyRun c r).opd = s.opd := rfl
@[simp] theorem State.applyRun_ope (s : State) (c : Nat) (r : ChannelRun) : (s.applyRun c r).ope = s.ope := rfl
@[simp] theorem State.applyRun_cmd (s : State) (c : Nat) (r : ChannelRun) : (s.applyRun c r).cmd = s.cmd := rfl
@[simp] theorem State.applyRun_result (s : State) (c : Nat) (r : ChannelRun) : (s.applyRun c r).result = s.result := rfl
@[simp] theorem State.applyRun_mapDiv (s : State) (c : Nat) (r : ChannelRun) : (s.applyRun c r).mapDiv = s.mapDiv := rfl
@[simp] theorem State.applyRun_mapTicks (s : State) (c : Nat) (r : ChannelRun) : (s.applyRun c r).mapTicks = s.mapTicks := rfl
@[simp] theorem State.applyRun_history (s : State) (c : Nat) (r : ChannelRun) : (s.applyRun c r).history = s.history ++ r.events.map (Event.channel c) := rfl
@[simp] theorem State.applyRun_schedule (s : State) (c : Nat) (r : ChannelRun) : (s.applyRun c r).schedule = s.schedule := rfl
@[simp] theorem State.applyRun_reads (s : State) (c : Nat) (r : ChannelRun) : (s.applyRun c r).reads = s.reads := rfl

/-! ### `State.noteMap` -/

@[simp] theorem State.noteMap_clkHz (s : State) (div ticks : Nat) : (s.noteMap div ticks).clkHz = s.clkHz := rfl
@[simp] theorem State.noteMap_channels (s : State) (div ticks : Nat) : (s.noteMap div ticks).channels = s.channels := rfl
@[simp] theorem State.noteMap_opa (s : State) (div ticks : Nat) : (s.noteMap div ticks).opa = s.opa := rfl
@[simp] theorem State.noteMap_opb (s : State) (div ticks : Nat) : (s.noteMap div ticks).opb = s.opb := rfl
@[simp] theorem State.noteMap_opc (s : State) (div ticks : Nat) : (s.noteMap div ticks).opc = s.opc := rfl
@[simp] theorem State.noteMap_opd (s : State) (div ticks : Nat) : (s.noteMap div ticks).opd = s.opd := rfl
@[simp] theorem State.noteMap_ope (s : State) (div ticks : Nat) : (s.noteMap div ticks).ope = s.ope := rfl
@[simp] theorem State.noteMap_cmd (s : State) (div ticks : Nat) : (s.noteMap div ticks).cmd = s.cmd := rfl
@[simp] theorem State.noteMap_result (s : State) (div ticks : Nat) : (s.noteMap div ticks).result = s.result := rfl
@[simp] theorem State.noteMap_mapDiv (s : State) (div ticks : Nat) : (s.noteMap div ticks).mapDiv = BitVec.ofNat 32 div := rfl
@[simp] theorem State.noteMap_mapTicks (s : State) (div ticks : Nat) : (s.noteMap div ticks).mapTicks = BitVec.ofNat 32 ticks := rfl
@[simp] theorem State.noteMap_history (s : State) (div ticks : Nat) : (s.noteMap div ticks).history = s.history := rfl
@[simp] theorem State.noteMap_schedule (s : State) (div ticks : Nat) : (s.noteMap div ticks).schedule = s.schedule := rfl
@[simp] theorem State.noteMap_reads (s : State) (div ticks : Nat) : (s.noteMap div ticks).reads = s.reads := rfl

/-! ### `State.succeed` -/

@[simp] theorem State.succeed_clkHz (s : State) (c : Nat) : (s.succeed c).clkHz = s.clkHz := rfl
@[simp] theorem State.succeed_channels (s : State) (c : Nat) : (s.succeed c).channels = s.channels := rfl
@[simp] theorem State.succeed_opa (s : State) (c : Nat) : (s.succeed c).opa = s.opa := rfl
@[simp] theorem State.succeed_opb (s : State) (c : Nat) : (s.succeed c).opb = s.opb := rfl
@[simp] theorem State.succeed_opc (s : State) (c : Nat) : (s.succeed c).opc = s.opc := rfl
@[simp] theorem State.succeed_opd (s : State) (c : Nat) : (s.succeed c).opd = s.opd := rfl
@[simp] theorem State.succeed_ope (s : State) (c : Nat) : (s.succeed c).ope = s.ope := rfl
@[simp] theorem State.succeed_cmd (s : State) (c : Nat) : (s.succeed c).cmd = s.cmd := rfl
@[simp] theorem State.succeed_result (s : State) (c : Nat) : (s.succeed c).result = resultWord (BitVec.ofNat 8 c) statusOk := rfl
@[simp] theorem State.succeed_mapDiv (s : State) (c : Nat) : (s.succeed c).mapDiv = s.mapDiv := rfl
@[simp] theorem State.succeed_mapTicks (s : State) (c : Nat) : (s.succeed c).mapTicks = s.mapTicks := rfl
@[simp] theorem State.succeed_history (s : State) (c : Nat) : (s.succeed c).history = s.history := rfl
@[simp] theorem State.succeed_schedule (s : State) (c : Nat) : (s.succeed c).schedule = s.schedule := rfl
@[simp] theorem State.succeed_reads (s : State) (c : Nat) : (s.succeed c).reads = s.reads := rfl

/-! ### `State.raise` -/

@[simp] theorem State.raise_clkHz (s : State) (e : CommandError) : (s.raise e).clkHz = s.clkHz := rfl
@[simp] theorem State.raise_channels (s : State) (e : CommandError) : (s.raise e).channels = s.channels := rfl
@[simp] theorem State.raise_opa (s : State) (e : CommandError) : (s.raise e).opa = s.opa := rfl
@[simp] theorem State.raise_opb (s : State) (e : CommandError) : (s.raise e).opb = s.opb := rfl
@[simp] theorem State.raise_opc (s : State) (e : CommandError) : (s.raise e).opc = s.opc := rfl
@[simp] theorem State.raise_opd (s : State) (e : CommandError) : (s.raise e).opd = s.opd := rfl
@[simp] theorem State.raise_ope (s : State) (e : CommandError) : (s.raise e).ope = s.ope := rfl
@[simp] theorem State.raise_cmd (s : State) (e : CommandError) : (s.raise e).cmd = s.cmd := rfl
@[simp] theorem State.raise_result (s : State) (e : CommandError) : (s.raise e).result = resultWord chselNone e.code := rfl
@[simp] theorem State.raise_mapDiv (s : State) (e : CommandError) : (s.raise e).mapDiv = s.mapDiv := rfl
@[simp] theorem State.raise_mapTicks (s : State) (e : CommandError) : (s.raise e).mapTicks = s.mapTicks := rfl
@[simp] theorem State.raise_history (s : State) (e : CommandError) : (s.raise e).history = s.history := rfl
@[simp] theorem State.raise_schedule (s : State) (e : CommandError) : (s.raise e).schedule = s.schedule := rfl
@[simp] theorem State.raise_reads (s : State) (e : CommandError) : (s.raise e).reads = s.reads := rfl

/-! ### `State.emitDone` -/

@[simp] theorem State.emitDone_clkHz (s : State) (w : Word) : (s.emitDone w).clkHz = s.clkHz := rfl
@[simp] theorem State.emitDone_channels (s : State) (w : Word) : (s.emitDone w).channels = s.channels := rfl
@[simp] theorem State.emitDone_opa (s : State) (w : Word) : (s.emitDone w).opa = s.opa := rfl
@[simp] theorem State.emitDone_opb (s : State) (w : Word) : (s.emitDone w).opb = s.opb := rfl
@[simp] theorem State.emitDone_opc (s : State) (w : Word) : (s.emitDone w).opc = s.opc := rfl
@[simp] theorem State.emitDone_opd (s : State) (w : Word) : (s.emitDone w).opd = s.opd := rfl
@[simp] theorem State.emitDone_ope (s : State) (w : Word) : (s.emitDone w).ope = s.ope := rfl
@[simp] theorem State.emitDone_cmd (s : State) (w : Word) : (s.emitDone w).cmd = s.cmd := rfl
@[simp] theorem State.emitDone_result (s : State) (w : Word) : (s.emitDone w).result = s.result := rfl
@[simp] theorem State.emitDone_mapDiv (s : State) (w : Word) : (s.emitDone w).mapDiv = s.mapDiv := rfl
@[simp] theorem State.emitDone_mapTicks (s : State) (w : Word) : (s.emitDone w).mapTicks = s.mapTicks := rfl
@[simp] theorem State.emitDone_history (s : State) (w : Word) : (s.emitDone w).history = s.history ++ [.done w s.result] := rfl
@[simp] theorem State.emitDone_schedule (s : State) (w : Word) : (s.emitDone w).schedule = s.schedule := rfl
@[simp] theorem State.emitDone_reads (s : State) (w : Word) : (s.emitDone w).reads = s.reads := rfl

/-! ### Channels and their procedures -/

@[simp] theorem ChannelRun.start_chan (k : Channel) : (ChannelRun.start k).chan = k := rfl
@[simp] theorem ChannelRun.start_events (k : Channel) : (ChannelRun.start k).events = [] := rfl
@[simp] theorem ChannelRun.write_chan (r : ChannelRun) (k : Channel) : (r.write k).chan = k := rfl
@[simp] theorem ChannelRun.write_events (r : ChannelRun) (k : Channel) : (r.write k).events = r.events := rfl
@[simp] theorem ChannelRun.port_chan (r : ChannelRun) (op : PortOp) : (r.port op).chan = op.apply r.chan := rfl
@[simp] theorem ChannelRun.port_events (r : ChannelRun) (op : PortOp) :
    (r.port op).events = r.events ++ [.port op] := rfl
@[simp] theorem ChannelRun.callback_chan (r : ChannelRun) : r.callback.chan = r.chan := rfl
@[simp] theorem ChannelRun.callback_events (r : ChannelRun) :
    r.callback.events = r.events ++ [.callback r.chan.callback r.chan.hasArg r.chan.arg] := rfl

@[simp] theorem PortOp.apply_configure (d : Word) (c : Chunk) (k : Channel) :
    PortOp.apply (.configure d c) k = { k with cmp := c } := rfl
@[simp] theorem PortOp.apply_armNextChunk (c : Chunk) (k : Channel) :
    PortOp.apply (.armNextChunk c) k = { k with cmp := c } := rfl
@[simp] theorem PortOp.apply_enableInterrupt (k : Channel) :
    PortOp.apply .enableInterrupt k = { k with enabled := true } := rfl
@[simp] theorem PortOp.apply_disableInterrupt (k : Channel) :
    PortOp.apply .disableInterrupt k = { k with enabled := false } := rfl
@[simp] theorem PortOp.apply_clearPendingFlag (k : Channel) :
    PortOp.apply .clearPendingFlag k = { k with pending := false } := rfl
@[simp] theorem PortOp.apply_gateClock (k : Channel) :
    PortOp.apply .gateClock k = { k with paused := true } := rfl
@[simp] theorem PortOp.apply_ungateClock (k : Channel) :
    PortOp.apply .ungateClock k = { k with paused := false } := rfl

@[simp] theorem Channel.takeEvent_cfg (k : Channel) : k.takeEvent.cfg = k.cfg := rfl
@[simp] theorem Channel.takeEvent_callback (k : Channel) : k.takeEvent.callback = k.callback := rfl
@[simp] theorem Channel.takeEvent_hasArg (k : Channel) : k.takeEvent.hasArg = k.hasArg := rfl
@[simp] theorem Channel.takeEvent_arg (k : Channel) : k.takeEvent.arg = k.arg := rfl
@[simp] theorem Channel.takeEvent_divider (k : Channel) : k.takeEvent.divider = k.divider := rfl
@[simp] theorem Channel.takeEvent_fullTicks (k : Channel) : k.takeEvent.fullTicks = k.fullTicks := rfl
@[simp] theorem Channel.takeEvent_remaining (k : Channel) : k.takeEvent.remaining = k.remaining := rfl
@[simp] theorem Channel.takeEvent_repeats (k : Channel) : k.takeEvent.repeats = k.repeats := rfl
@[simp] theorem Channel.takeEvent_done (k : Channel) : k.takeEvent.done = k.done := rfl
@[simp] theorem Channel.takeEvent_enabled (k : Channel) : k.takeEvent.enabled = k.enabled := rfl
@[simp] theorem Channel.takeEvent_paused (k : Channel) : k.takeEvent.paused = k.paused := rfl
@[simp] theorem Channel.takeEvent_pending (k : Channel) : k.takeEvent.pending = false := rfl
@[simp] theorem Channel.takeEvent_cmp (k : Channel) : k.takeEvent.cmp = k.cmp := rfl
@[simp] theorem Channel.takeEvent_freqNum (k : Channel) : k.takeEvent.freqNum = k.freqNum := rfl
@[simp] theorem Channel.takeEvent_freqDen (k : Channel) : k.takeEvent.freqDen = k.freqDen := rfl

@[simp] theorem Channel.elapse_cfg (k : Channel) : k.elapse.cfg = k.cfg := rfl
@[simp] theorem Channel.elapse_callback (k : Channel) : k.elapse.callback = k.callback := rfl
@[simp] theorem Channel.elapse_hasArg (k : Channel) : k.elapse.hasArg = k.hasArg := rfl
@[simp] theorem Channel.elapse_arg (k : Channel) : k.elapse.arg = k.arg := rfl
@[simp] theorem Channel.elapse_divider (k : Channel) : k.elapse.divider = k.divider := rfl
@[simp] theorem Channel.elapse_fullTicks (k : Channel) : k.elapse.fullTicks = k.fullTicks := rfl
@[simp] theorem Channel.elapse_remaining (k : Channel) : k.elapse.remaining = k.remaining := rfl
@[simp] theorem Channel.elapse_repeats (k : Channel) : k.elapse.repeats = k.repeats := rfl
@[simp] theorem Channel.elapse_done (k : Channel) : k.elapse.done = k.done := rfl
@[simp] theorem Channel.elapse_enabled (k : Channel) : k.elapse.enabled = k.enabled := rfl
@[simp] theorem Channel.elapse_paused (k : Channel) : k.elapse.paused = k.paused := rfl
@[simp] theorem Channel.elapse_pending (k : Channel) : k.elapse.pending = true := rfl
@[simp] theorem Channel.elapse_cmp (k : Channel) : k.elapse.cmp = k.cmp := rfl
@[simp] theorem Channel.elapse_freqNum (k : Channel) : k.elapse.freqNum = k.freqNum := rfl
@[simp] theorem Channel.elapse_freqDen (k : Channel) : k.elapse.freqDen = k.freqDen := rfl

@[simp] theorem Channel.setRemaining_cfg (k : Channel) (v : Word) : (k.setRemaining v).cfg = k.cfg := rfl
@[simp] theorem Channel.setRemaining_callback (k : Channel) (v : Word) : (k.setRemaining v).callback = k.callback := rfl
@[simp] theorem Channel.setRemaining_hasArg (k : Channel) (v : Word) : (k.setRemaining v).hasArg = k.hasArg := rfl
@[simp] theorem Channel.setRemaining_arg (k : Channel) (v : Word) : (k.setRemaining v).arg = k.arg := rfl
@[simp] theorem Channel.setRemaining_divider (k : Channel) (v : Word) : (k.setRemaining v).divider = k.divider := rfl
@[simp] theorem Channel.setRemaining_fullTicks (k : Channel) (v : Word) : (k.setRemaining v).fullTicks = k.fullTicks := rfl
@[simp] theorem Channel.setRemaining_remaining (k : Channel) (v : Word) : (k.setRemaining v).remaining = v := rfl
@[simp] theorem Channel.setRemaining_repeats (k : Channel) (v : Word) : (k.setRemaining v).repeats = k.repeats := rfl
@[simp] theorem Channel.setRemaining_done (k : Channel) (v : Word) : (k.setRemaining v).done = doneFlag v := rfl
@[simp] theorem Channel.setRemaining_enabled (k : Channel) (v : Word) : (k.setRemaining v).enabled = k.enabled := rfl
@[simp] theorem Channel.setRemaining_paused (k : Channel) (v : Word) : (k.setRemaining v).paused = k.paused := rfl
@[simp] theorem Channel.setRemaining_pending (k : Channel) (v : Word) : (k.setRemaining v).pending = k.pending := rfl
@[simp] theorem Channel.setRemaining_cmp (k : Channel) (v : Word) : (k.setRemaining v).cmp = k.cmp := rfl
@[simp] theorem Channel.setRemaining_freqNum (k : Channel) (v : Word) : (k.setRemaining v).freqNum = k.freqNum := rfl
@[simp] theorem Channel.setRemaining_freqDen (k : Channel) (v : Word) : (k.setRemaining v).freqDen = k.freqDen := rfl

@[simp] theorem Channel.free_cfg (cfg : ChannelParams) : (Channel.free cfg).cfg = cfg := rfl
@[simp] theorem Channel.free_callback (cfg : ChannelParams) : (Channel.free cfg).callback = 0#32 := rfl
@[simp] theorem Channel.free_hasArg (cfg : ChannelParams) : (Channel.free cfg).hasArg = false := rfl
@[simp] theorem Channel.free_arg (cfg : ChannelParams) : (Channel.free cfg).arg = 0#32 := rfl
@[simp] theorem Channel.free_divider (cfg : ChannelParams) : (Channel.free cfg).divider = 0#32 := rfl
@[simp] theorem Channel.free_fullTicks (cfg : ChannelParams) : (Channel.free cfg).fullTicks = 0#32 := rfl
@[simp] theorem Channel.free_remaining (cfg : ChannelParams) : (Channel.free cfg).remaining = 0#32 := rfl
@[simp] theorem Channel.free_repeats (cfg : ChannelParams) : (Channel.free cfg).repeats = 0#32 := rfl
@[simp] theorem Channel.free_done (cfg : ChannelParams) : (Channel.free cfg).done = false := rfl
@[simp] theorem Channel.free_enabled (cfg : ChannelParams) : (Channel.free cfg).enabled = false := rfl
@[simp] theorem Channel.free_paused (cfg : ChannelParams) : (Channel.free cfg).paused = false := rfl
@[simp] theorem Channel.free_pending (cfg : ChannelParams) : (Channel.free cfg).pending = false := rfl
@[simp] theorem Channel.free_cmp (cfg : ChannelParams) : (Channel.free cfg).cmp = 0#16 := rfl
@[simp] theorem Channel.free_freqNum (cfg : ChannelParams) : (Channel.free cfg).freqNum = 0#32 := rfl
@[simp] theorem Channel.free_freqDen (cfg : ChannelParams) : (Channel.free cfg).freqDen = 0#32 := rfl

end Sys2Proof.Machine
end

