-- ==== Sys2Proof/Laws/Ops.lean ====
section
/-! SUPPORT. What each shared operation does, said once: the chunk arithmetic, ARM, RELEASE, the next chunk, the end
of a period, TICK, the channel checks, and the two ways a command ends. Proofs about commands cite these. -/

namespace Sys2Proof.Machine

/-! ### Words and counter widths -/

theorem counterMax_cases (w : CounterWidth) : w.counterMax = 255 ∨ w.counterMax = 65535 := by
  cases w <;> simp [CounterWidth.counterMax]

theorem counterMax_pos (w : CounterWidth) : 0 < w.counterMax := by
  cases w <;> simp [CounterWidth.counterMax]

theorem counterMax_lt (w : CounterWidth) : w.counterMax < 2 ^ 16 := by
  cases w <;> simp [CounterWidth.counterMax]

/-- A chunk always fits the compare register (00_scope.md R12, R15). -/
theorem chunk_toNat (k : Channel) (ticks : Word) : (k.chunk ticks).toNat = min k.cfg.width.counterMax ticks.toNat := by
  have := counterMax_lt k.cfg.width
  simp only [Channel.chunk, BitVec.toNat_ofNat]
  exact Nat.mod_eq_of_lt (by omega)

theorem ticksAfter_toNat (ticks : Word) (c : Chunk) : (ticksAfter ticks c).toNat = ticks.toNat - c.toNat := by
  have := ticks.isLt
  simp only [ticksAfter, BitVec.toNat_ofNat]
  exact Nat.mod_eq_of_lt (by omega)

theorem doneFlag_eq_true_iff (r : Word) : doneFlag r = true ↔ r = 0#32 := by simp [doneFlag]

theorem firstChunk_le (k : Channel) : k.firstChunk ≤ k.cm := Nat.min_le_left _ _

theorem chunk_fullTicks (k : Channel) : k.chunk k.fullTicks = BitVec.ofNat 16 k.firstChunk := rfl

/-- Taking the first chunk from `FULLTICKS` leaves nothing exactly when the whole period fits one chunk
(41_interval_runner.md R142). -/
theorem doneFlag_ticksAfter (k : Channel) :
    doneFlag (ticksAfter k.fullTicks (k.chunk k.fullTicks)) = decide (k.fullTicks.toNat ≤ k.cm) := by
  rw [Bool.eq_iff_iff, doneFlag_eq_true_iff, ← BitVec.toNat_inj, ticksAfter_toNat, chunk_toNat]
  simp only [BitVec.toNat_ofNat, Nat.zero_mod, decide_eq_true_eq, Channel.cm]
  have := counterMax_pos k.cfg.width
  omega

/-- The first chunk and what is left, in the declarative spelling of `Channel.opened`. -/
theorem ticksAfter_fullTicks (k : Channel) :
    ticksAfter k.fullTicks (k.chunk k.fullTicks) = BitVec.ofNat 32 (k.fullTicks.toNat - k.firstChunk) := by
  rw [ticksAfter, chunk_toNat]; rfl

theorem doneFlag_setRemaining (k : Channel) :
    k.setRemaining (ticksAfter k.fullTicks (k.chunk k.fullTicks)) =
      { k with remaining := BitVec.ofNat 32 (k.fullTicks.toNat - k.firstChunk),
               done := decide (k.fullTicks.toNat ≤ k.cm) } := by
  rw [Channel.setRemaining, doneFlag_ticksAfter, ticksAfter_fullTicks]

/-! ### Procedures of a channel -/

/-- ARM leaves the armed fields and emits its three port actions (41_interval_runner.md R141). -/
theorem arm_eq (r : ChannelRun) :
    r.arm = { chan := r.chan.armed,
              events := r.events ++ [.port (.configure r.chan.divider (BitVec.ofNat 16 r.chan.firstChunk)),
                .port .clearPendingFlag, .port .enableInterrupt] } := by
  rw [ChannelRun.arm, doneFlag_setRemaining]
  simp [ChannelRun.port, ChannelRun.write, PortOp.apply, Channel.armed, Channel.opened, chunk_fullTicks]

/-- RELEASE leaves the free channel and emits the disabling, the clearing and, for a paused channel, the ungating
(41_interval_runner.md R159). -/
theorem release_eq (r : ChannelRun) :
    r.release = { chan := Channel.free r.chan.cfg,
                  events := r.events ++ [.port .disableInterrupt, .port .clearPendingFlag] ++
                    (bif r.chan.paused then [.port .ungateClock] else []) } := by
  cases h : r.chan.paused <;>
    simp [ChannelRun.release, ChannelRun.ungateIfPaused, ChannelRun.port, ChannelRun.write, PortOp.apply,
      Channel.free, h]

/-- TICK's step 3 (41_interval_runner.md R156). -/
theorem armNext_eq (r : ChannelRun) (ticks : Word) :
    r.armNext ticks = { chan := { r.chan with
                                    remaining := ticksAfter ticks (r.chan.chunk ticks),
                                    done := doneFlag (ticksAfter ticks (r.chan.chunk ticks)),
                                    cmp := r.chan.chunk ticks, enabled := true },
                        events := r.events ++ [.port (.armNextChunk (r.chan.chunk ticks)),
                          .port .enableInterrupt] } := by
  simp [ChannelRun.armNext, ChannelRun.port, ChannelRun.write, PortOp.apply, Channel.setRemaining]

/-- The reload takes the first chunk of a new period (41_interval_runner.md R155). -/
theorem armNext_fullTicks (r : ChannelRun) :
    r.armNext r.chan.fullTicks =
      { chan := { r.chan.opened with enabled := true },
        events := r.events ++ [.port (.armNextChunk (BitVec.ofNat 16 r.chan.firstChunk)), .port .enableInterrupt] } := by
  rw [armNext_eq, doneFlag_ticksAfter, ticksAfter_fullTicks, chunk_fullTicks]
  rfl

theorem ungateIfPaused_eq (r : ChannelRun) :
    r.ungateIfPaused = { chan := { r.chan with paused := false },
                         events := r.events ++ (bif r.chan.paused then [.port .ungateClock] else []) } := by
  rcases r with ⟨⟨⟩, evs⟩
  rename_i paused _ _ _ _
  cases paused <;> simp [ChannelRun.ungateIfPaused, ChannelRun.port, PortOp.apply]

theorem gateIfRunning_eq (r : ChannelRun) :
    r.gateIfRunning = { chan := { r.chan with paused := true },
                        events := r.events ++ (bif r.chan.paused then [] else [.port .gateClock]) } := by
  rcases r with ⟨⟨⟩, evs⟩
  rename_i paused _ _ _ _
  cases paused <;> simp [ChannelRun.gateIfRunning, ChannelRun.port, PortOp.apply]

/-- The decrement reaches 0 from 1 only (41_interval_runner.md R153, R154). -/
theorem countAfterCallback_eq_zero_iff (r : Word) (h : r ≠ 0#32) : countAfterCallback r = 0#32 ↔ r = 1#32 := by
  unfold countAfterCallback
  split
  · rw [BitVec.sub_eq_iff_eq_add]; simp
  · rename_i hc
    simp only [h, false_iff]
    rintro rfl
    exact hc (by decide)

theorem exhausted_of_ne {k : Channel} (h : k.repeats ≠ 0#32) : k.exhausted = false := by
  simpa [Channel.exhausted] using h

theorem exhausted_of_eq {k : Channel} (h : k.repeats = 0#32) : k.exhausted = true := by
  simpa [Channel.exhausted] using h

theorem bound_of_ne {k : Channel} (h : k.callback ≠ 0#32) : k.bound = true := by
  simpa [Channel.bound] using h

theorem bound_of_eq {k : Channel} (h : k.callback = 0#32) : k.bound = false := by
  simpa [Channel.bound] using h

/-- TICK with a repeat count of 0 at entry releases and calls nothing back (41_interval_runner.md R150). -/
theorem tick_exhausted (k : Channel) (h : k.repeats = 0#32) :
    k.tick = { chan := Channel.free k.cfg,
               events := [.port .disableInterrupt, .port .clearPendingFlag] ++
                 (bif k.paused then [.port .ungateClock] else []) } := by
  simp [Channel.tick, Channel.exhausted, h, release_eq]

/-- TICK inside a period programs the next chunk (41_interval_runner.md R151). -/
theorem tick_intermediate (k : Channel) (hr : k.repeats ≠ 0#32) (hd : k.done = false) :
    k.tick = { chan := { k with
                           remaining := ticksAfter k.remaining (k.chunk k.remaining),
                           done := doneFlag (ticksAfter k.remaining (k.chunk k.remaining)),
                           cmp := k.chunk k.remaining, pending := false, enabled := true },
               events := [.port (.armNextChunk (k.chunk k.remaining)), .port .enableInterrupt] } := by
  simp [Channel.tick, exhausted_of_ne hr, hd, armNext_eq, Channel.takeEvent, Channel.chunk]

/-- TICK at the end of the last period of a finite channel calls back and releases
(41_interval_runner.md R152 to R154). -/
theorem tick_last (k : Channel) (hr : k.repeats = 1#32) (hd : k.done = true) :
    k.tick = { chan := Channel.free k.cfg,
               events := [.callback k.callback k.hasArg k.arg, .port .disableInterrupt, .port .clearPendingFlag] ++
                 (bif k.paused then [.port .ungateClock] else []) } := by
  have h1 : (k.takeEvent.decrementRepeats).exhausted = true :=
    exhausted_of_eq (by simp [Channel.decrementRepeats, hr, countAfterCallback])
  simp only [Channel.tick, exhausted_of_ne (k := k) (by simp [hr]), hd, cond_true, cond_false,
    ChannelRun.endPeriod, ChannelRun.write_chan, ChannelRun.start_chan, h1]
  simp [release_eq, Channel.decrementRepeats]

/-- TICK at the end of a period that is not the last calls back, decrements a positive count, and reloads
(41_interval_runner.md R152, R153, R155). -/
theorem tick_reload (k : Channel) (h0 : k.repeats ≠ 0#32) (h1 : k.repeats ≠ 1#32) (hd : k.done = true) :
    k.tick = { chan := { k.opened with
                           repeats := countAfterCallback k.repeats, pending := false, enabled := true },
               events := [.callback k.callback k.hasArg k.arg,
                 .port (.armNextChunk (BitVec.ofNat 16 k.firstChunk)), .port .enableInterrupt] } := by
  have hx : (k.takeEvent.decrementRepeats).exhausted = false :=
    exhausted_of_ne fun h => h1 ((countAfterCallback_eq_zero_iff _ h0).mp h)
  have hr : ∀ r : ChannelRun, r.chan.exhausted = false →
      (bif r.chan.exhausted then r.release else r.armNext r.chan.fullTicks) = r.armNext r.chan.fullTicks := by
    intro r h; rw [h]; rfl
  simp only [Channel.tick, exhausted_of_ne h0, hd, cond_true, cond_false, ChannelRun.endPeriod]
  rw [hr _ hx, armNext_fullTicks]
  rfl

/-! ### Checks and endings of a command -/

theorem resultWord_toNat (chsel status : Byte) : (resultWord chsel status).toNat = 256 * chsel.toNat + status.toNat := by
  have h1 := chsel.isLt
  have h2 := status.isLt
  simp only [resultWord, placed, BitVec.toNat_or, BitVec.toNat_shiftLeft, BitVec.toNat_setWidth, Nat.shiftLeft_eq,
    Nat.pow_zero, Nat.mul_one]
  rw [Nat.mod_eq_of_lt (a := chsel.toNat) (by omega), Nat.mod_eq_of_lt (a := status.toNat) (by omega),
    Nat.mod_eq_of_lt (a := status.toNat) (by omega), Nat.mod_eq_of_lt (a := chsel.toNat * 2 ^ 8) (by omega),
    Nat.mul_comm, ← Nat.two_pow_add_eq_or_of_lt (by omega)]

theorem okResult_eq (c : Nat) (h : c < 256) : resultWord (BitVec.ofNat 8 c) statusOk = okResult c := by
  apply BitVec.eq_of_toNat_eq
  simp only [resultWord_toNat, statusOk, okResult, BitVec.toNat_ofNat]
  omega

theorem okResult_channelId (ch : ChannelId) : resultWord (BitVec.ofNat 8 ch.toNat) statusOk = okResult ch.toNat :=
  okResult_eq _ ch.isLt

theorem okResult_byte (ch : ChannelId) : resultWord ch statusOk = okResult ch.toNat := by
  simpa using okResult_channelId ch

/-- The fields of a `RESULT` word (10_state.md R24). -/
theorem statusOf_resultWord (chsel status : Byte) : statusOf (resultWord chsel status) = status := by
  have h1 := chsel.isLt
  have h2 := status.isLt
  apply BitVec.eq_of_toNat_eq
  simp only [statusOf, BitVec.extractLsb'_toNat, resultWord_toNat, Nat.shiftRight_eq_div_pow]
  omega

theorem chselOf_resultWord (chsel status : Byte) : chselOf (resultWord chsel status) = chsel := by
  have h1 := chsel.isLt
  have h2 := status.isLt
  apply BitVec.eq_of_toNat_eq
  simp only [chselOf, BitVec.extractLsb'_toNat, resultWord_toNat, Nat.shiftRight_eq_div_pow]
  omega

theorem resultWord_high (chsel status : Byte) : (resultWord chsel status).extractLsb' 16 16 = 0#16 := by
  have h1 := chsel.isLt
  have h2 := status.isLt
  apply BitVec.eq_of_toNat_eq
  simp only [BitVec.extractLsb'_toNat, resultWord_toNat, Nat.shiftRight_eq_div_pow, BitVec.toNat_ofNat]
  omega

theorem failResult_eq (e : CommandError) : resultWord chselNone e.code = failResult e.code.toNat := by
  cases e <;> rfl

@[simp] theorem finishCommand_ok (s t : State) : finishCommand s (.ok t) = .next t := rfl
@[simp] theorem finishCommand_error (s : State) (e : CommandError) :
    finishCommand s (.error e) = .next (s.raise e) := rfl

/-- How a command ends: with the state its rule reached, or with the status of the error and nothing else changed
(42_host_commands.md R180). -/
theorem finishCommand_cases {s t : State} {r : Except CommandError State} (h : finishCommand s r = .next t) :
    r = .ok t ∨ ∃ e, r = .error e ∧ t = s.raise e := by
  cases r with
  | ok u => simp only [finishCommand_ok, Host.Outcome.next.injEq] at h; exact .inl (by rw [h])
  | error e => simp only [finishCommand_error, Host.Outcome.next.injEq] at h; exact .inr ⟨e, rfl, h.symm⟩

theorem checkId_some {s : State} {ch : ChannelId} {k : Channel} (h : s.channels[ch.toNat]? = some k) :
    checkId s ch = .ok (ch.toNat, k) := by simp [checkId, h]

theorem checkId_none {s : State} {ch : ChannelId} (h : s.channels.length ≤ ch.toNat) :
    checkId s ch = .error .invalidChannel := by
  simp [checkId, List.getElem?_eq_none h]

theorem checkBound_some {s : State} {ch : ChannelId} {k : Channel} (h : s.channels[ch.toNat]? = some k)
    (hb : k.callback ≠ 0#32) : checkBound s ch = .ok (ch.toNat, k) := by
  simp [checkBound, h, bound_of_ne hb]

theorem checkBound_none {s : State} {ch : ChannelId} (h : s.channels.length ≤ ch.toNat) :
    checkBound s ch = .error .invalidChannel := by
  simp [checkBound, List.getElem?_eq_none h]

theorem checkBound_free {s : State} {ch : ChannelId} {k : Channel} (h : s.channels[ch.toNat]? = some k)
    (hb : k.callback = 0#32) : checkBound s ch = .error .invalidChannel := by
  simp [checkBound, h, bound_of_eq hb]

/-- What a successful `CheckBound` says (42_host_commands.md R181). -/
theorem checkBound_ok {s : State} {ch : ChannelId} {c : Nat} {k : Channel} (h : checkBound s ch = .ok (c, k)) :
    c = ch.toNat ∧ s.channels[c]? = some k ∧ k.callback ≠ 0#32 := by
  unfold checkBound at h
  split at h
  · cases h
  · rename_i k' hk
    cases hb : k'.bound <;> simp only [hb, cond_true, cond_false, Except.ok.injEq, Prod.mk.injEq, reduceCtorEq] at h
    obtain ⟨rfl, rfl⟩ := h
    exact ⟨rfl, hk, by simpa [Channel.bound] using hb⟩

/-- What a successful `CheckId` says (42_host_commands.md R181). -/
theorem checkId_ok {s : State} {ch : ChannelId} {c : Nat} {k : Channel} (h : checkId s ch = .ok (c, k)) :
    c = ch.toNat ∧ s.channels[c]? = some k := by
  unfold checkId at h
  split at h
  · cases h
  · rename_i k' hk
    simp only [Except.ok.injEq, Prod.mk.injEq] at h
    obtain ⟨rfl, rfl⟩ := h
    exact ⟨rfl, hk⟩

theorem admits_iff (kind : Kind) (k : Channel) :
    (k.bound = false ∧ Kind.admits kind k.cfg.width = true) ↔ freeOfKind kind k := by
  cases kind <;> cases h : k.cfg.width <;> simp [Channel.bound, Kind.admits, freeOfKind, h]

/-- What `selectFrom` finds: the least free channel of the kind, counting from `base` (42_host_commands.md R183). -/
theorem selectFrom_some {kind : Kind} {base : Nat} {l : List Channel} {c : Nat} {k : Channel} :
    selectFrom kind base l = some (c, k) ↔
      ∃ j, c = base + j ∧ l[j]? = some k ∧ freeOfKind kind k ∧
        ∀ i k', i < j → l[i]? = some k' → ¬ freeOfKind kind k' := by
  induction l generalizing base with
  | nil => simp [selectFrom]
  | cons k0 rest ih =>
    unfold selectFrom
    split
    · rename_i hf
      have hf := (admits_iff kind k0).mp hf
      simp only [Option.some.injEq, Prod.mk.injEq]
      constructor
      · rintro ⟨rfl, rfl⟩; exact ⟨0, by simp, by simp, hf, by simp⟩
      · rintro ⟨j, rfl, hj, hfk, hmin⟩
        cases j with
        | zero => simp_all
        | succ j => exact absurd hf (hmin 0 k0 (by omega) (by simp))
    · rename_i hf
      have hf : ¬ freeOfKind kind k0 := fun h => hf ((admits_iff kind k0).mpr h)
      rw [ih]
      constructor
      · rintro ⟨j, rfl, hj, hfk, hmin⟩
        refine ⟨j + 1, by omega, by simpa using hj, hfk, ?_⟩
        intro i k' hi hk'
        cases i with
        | zero => simp only [List.getElem?_cons_zero, Option.some.injEq] at hk'; exact hk' ▸ hf
        | succ i => exact hmin i k' (by omega) (by simpa using hk')
      · rintro ⟨j, rfl, hj, hfk, hmin⟩
        cases j with
        | zero => simp only [List.getElem?_cons_zero, Option.some.injEq] at hj; exact absurd (hj ▸ hfk) hf
        | succ j =>
          refine ⟨j, by omega, by simpa using hj, hfk, ?_⟩
          intro i k' hi hk'
          exact hmin (i + 1) k' (by omega) (by simpa using hk')

/-- The channel a BIND acts on, declaratively (42_host_commands.md R182, R183). -/
theorem bindTarget_ok_iff {s : State} {target : Target} {c : Nat} {k : Channel} :
    bindTarget s target = .ok (c, k) ↔ bindsTo s target c k := by
  cases target with
  | explicit ch =>
    simp only [bindTarget, bindsTo]
    constructor
    · intro h; obtain ⟨rfl, h'⟩ := checkId_ok h; exact ⟨h', rfl⟩
    · rintro ⟨h, rfl⟩; exact checkId_some h
  | auto kind =>
    simp only [bindTarget, bindsTo, selectFree]
    constructor
    · intro h
      split at h
      · rename_i found hf
        obtain ⟨c', k'⟩ := found
        simp only [Except.ok.injEq, Prod.mk.injEq] at h
        obtain ⟨rfl, rfl⟩ := h
        obtain ⟨j, rfl, hj, hk, hm⟩ := selectFrom_some.mp hf
        simp only [Nat.zero_add]
        exact ⟨hj, hk, hm⟩
      · cases h
    · rintro ⟨hj, hk, hm⟩
      rw [selectFrom_some.mpr ⟨c, (Nat.zero_add c).symm, hj, hk, hm⟩]

theorem mapOrReject_ok {s : State} {k : Channel} {f : Freq} {div ticks : Nat}
    (h : mapFrequency s.clkHz k.cfg f = .ok div ticks) : mapOrReject s k f = .ok (div, ticks) := by
  simp [mapOrReject, h]

theorem mapOrReject_ok_iff {s : State} {k : Channel} {f : Freq} {div ticks : Nat} :
    mapOrReject s k f = .ok (div, ticks) ↔ mapFrequency s.clkHz k.cfg f = .ok div ticks := by
  unfold mapOrReject
  split <;> simp_all

/-! ### The window -/

/-- A host access exists exactly when it is an aligned word inside the window (20_memory.md R62). -/
theorem accessRefusal_none_iff (off width : Nat) : accessRefusal off width = none ↔ ¬ badAccess off width := by
  unfold accessRefusal badAccess windowSize
  split
  · simp_all
  · split
    · simp_all
    · split <;> simp_all

end Sys2Proof.Machine
end

