-- ==== Sys2Proof/Laws/Commands.lean ====
section
/-! SUPPORT. What a command and a step can do, said once: the ways `exec` ends, the ways a host write ends, and the
ways `step` goes. Proofs about every command or every step cite these and unfold no meaning. -/

namespace Sys2Proof.Machine

/-! ### What each command does to its channel -/

/-- The frequency a command asks the FrequencyMapper for (30_encoding.md R87). -/
def mappedFreq (i : Instr) (s : State) : Freq :=
  match i with
  | .map _ => freqOperand s
  | .bind _ _ _ => freqOperand s
  | .bindInterval _ _ _ => intervalOperand s
  | .changeFrequency _ => freqOperand s
  | .changeInterval _ => intervalOperand s
  | .stop _ => freqOperand s
  | .pause _ => freqOperand s
  | .resume _ => freqOperand s
  | .restart _ _ => freqOperand s

/-- The procedure a command runs on its channel once every check has passed. -/
def commandRun (i : Instr) (s : State) (k : Channel) (div ticks : Nat) : ChannelRun :=
  match i with
  | .map _ => ChannelRun.start k
  | .bind _ a r => bindRun k a r (freqOperand s) div ticks s
  | .bindInterval _ a r => bindRun k a r (intervalOperand s) div ticks s
  | .stop _ => (ChannelRun.start k).release
  | .pause _ => (ChannelRun.start k).gateIfRunning
  | .resume _ => (ChannelRun.start k).ungateIfPaused
  | .restart _ d => (ChannelRun.start { k with repeats := restartRepeats d s k }).arm
  | .changeFrequency _ => changeRun k (freqOperand s) div ticks
  | .changeInterval _ => changeRun k (intervalOperand s) div ticks

/-- The commands that need a bound channel (42_host_commands.md R181). -/
def needsBound : Instr → Bool
  | .map _ => false
  | .bind _ _ _ => false
  | .bindInterval _ _ _ => false
  | .stop _ => true
  | .pause _ => true
  | .resume _ => true
  | .restart _ _ => true
  | .changeFrequency _ => true
  | .changeInterval _ => true

/-- The commands that bind a channel (42_host_commands.md R182). -/
def bindsChannel : Instr → Bool
  | .map _ => false
  | .bind _ _ _ => true
  | .bindInterval _ _ _ => true
  | .stop _ => false
  | .pause _ => false
  | .resume _ => false
  | .restart _ _ => false
  | .changeFrequency _ => false
  | .changeInterval _ => false

/-- A command that succeeds on channel `k`, id `c`, and what the checks before it have found. -/
structure Succeeds (i : Instr) (s t : State) (c : Nat) (k : Channel) (div ticks : Nat) : Prop where
  /-- the channel exists -/
  found : s.channels[c]? = some k
  /-- the channel is bound where the command needs it -/
  bound : needsBound i = true → k.callback ≠ 0#32
  /-- the callback is not null where the command binds -/
  handle : bindsChannel i = true → s.opc ≠ 0#32
  /-- the frequency is mapped where the command needs it -/
  mapped : mapsFrequency i = true → mapFrequency s.clkHz k.cfg (mappedFreq i s) = .ok div ticks
  /-- the state it leaves -/
  after : t = bif mapsFrequency i then ((s.applyRun c (commandRun i s k div ticks)).noteMap div ticks).succeed c
    else (s.applyRun c (commandRun i s k div ticks)).succeed c

/-- Putting a channel back as it is changes nothing. -/
theorem set_same {l : List Channel} {c : Nat} {k : Channel} (h : l[c]? = some k) : l.set c k = l := by
  obtain ⟨hi, rfl⟩ := List.getElem?_eq_some_iff.mp h
  simp

theorem applyRun_start {s : State} {c : Nat} {k : Channel} (h : s.channels[c]? = some k) :
    s.applyRun c (ChannelRun.start k) = s := by
  simp [State.applyRun, ChannelRun.start, set_same h]

theorem boundCommand_cases {s t : State} {ch : ChannelId} {f : Channel → ChannelRun}
    (h : finishCommand s (boundCommand ch f s) = .next t) :
    (∃ e, t = s.raise e) ∨
      ∃ k, s.channels[ch.toNat]? = some k ∧ k.callback ≠ 0#32 ∧ t = (s.applyRun ch.toNat (f k)).succeed ch.toNat := by
  rcases finishCommand_cases h with h | ⟨e, _, rfl⟩
  · unfold boundCommand at h
    split at h
    · cases h
    · rename_i c k hc
      obtain ⟨rfl, hk, hb⟩ := checkBound_ok hc
      exact .inr ⟨k, hk, hb, (Except.ok.inj h).symm⟩
  · exact .inl ⟨e, rfl⟩

theorem changeCommand_cases {s t : State} {ch : ChannelId} {f : Freq}
    (h : finishCommand s (changeCommand ch f s) = .next t) :
    (∃ e, t = s.raise e) ∨
      ∃ k div ticks, s.channels[ch.toNat]? = some k ∧ k.callback ≠ 0#32 ∧
        mapFrequency s.clkHz k.cfg f = .ok div ticks ∧
        t = ((s.applyRun ch.toNat (changeRun k f div ticks)).noteMap div ticks).succeed ch.toNat := by
  rcases finishCommand_cases h with h | ⟨e, _, rfl⟩
  · unfold changeCommand at h
    split at h
    · cases h
    · rename_i c k hc
      obtain ⟨rfl, hk, hb⟩ := checkBound_ok hc
      split at h
      · cases h
      · rename_i div ticks hm
        exact .inr ⟨k, div, ticks, hk, hb, mapOrReject_ok_iff.mp hm, (Except.ok.inj h).symm⟩
  · exact .inl ⟨e, rfl⟩

theorem bindCommand_cases {s t : State} {target : Target} {a r : Bool} {f : Freq}
    (h : finishCommand s (bindCommand target a r f s) = .next t) :
    (∃ e, t = s.raise e) ∨
      ∃ c k div ticks, bindsTo s target c k ∧ s.opc ≠ 0#32 ∧ mapFrequency s.clkHz k.cfg f = .ok div ticks ∧
        t = ((s.applyRun c (bindRun k a r f div ticks s)).noteMap div ticks).succeed c := by
  rcases finishCommand_cases h with h | ⟨e, _, rfl⟩
  · unfold bindCommand at h
    split at h
    · cases h
    · rename_i c k hc
      split at h
      · cases h
      · rename_i hn
        split at h
        · cases h
        · rename_i div ticks hm
          exact .inr ⟨c, k, div, ticks, bindTarget_ok_iff.mp hc, hn, mapOrReject_ok_iff.mp hm,
            (Except.ok.inj h).symm⟩
  · exact .inl ⟨e, rfl⟩

theorem mapCommand_cases {s t : State} {ch : ChannelId} (h : finishCommand s (mapCommand ch s) = .next t) :
    (∃ e, t = s.raise e) ∨
      ∃ k div ticks, s.channels[ch.toNat]? = some k ∧ mapFrequency s.clkHz k.cfg (freqOperand s) = .ok div ticks ∧
        t = (s.noteMap div ticks).succeed ch.toNat := by
  rcases finishCommand_cases h with h | ⟨e, _, rfl⟩
  · unfold mapCommand at h
    split at h
    · cases h
    · rename_i c k hc
      obtain ⟨rfl, hk⟩ := checkId_ok hc
      split at h
      · cases h
      · rename_i div ticks hm
        exact .inr ⟨k, div, ticks, hk, mapOrReject_ok_iff.mp hm, (Except.ok.inj h).symm⟩
  · exact .inl ⟨e, rfl⟩

/-- The two ways a command ends: it raises an error and records its status, or it succeeds on one channel
(42_host_commands.md R180, 60_exceptions.md R236). -/
theorem exec_cases {i : Instr} {s t : State} (h : exec i s = .next t) :
    (∃ e, t = s.raise e) ∨ ∃ c k div ticks, Succeeds i s t c k div ticks := by
  cases i with
  | map ch =>
    rcases mapCommand_cases h with he | ⟨k, div, ticks, hk, hm, rfl⟩
    · exact .inl he
    · exact .inr ⟨_, k, div, ticks, hk, by simp [needsBound], by simp [bindsChannel], fun _ => hm,
        by simp [mapsFrequency, commandRun, applyRun_start hk]⟩
  | bind target a r =>
    rcases bindCommand_cases h with he | ⟨c, k, div, ticks, hk, hn, hm, rfl⟩
    · exact .inl he
    · exact .inr ⟨c, k, div, ticks, hk.1, by simp [needsBound], fun _ => hn, fun _ => hm, rfl⟩
  | bindInterval target a r =>
    rcases bindCommand_cases h with he | ⟨c, k, div, ticks, hk, hn, hm, rfl⟩
    · exact .inl he
    · exact .inr ⟨c, k, div, ticks, hk.1, by simp [needsBound], fun _ => hn, fun _ => hm, rfl⟩
  | changeFrequency ch =>
    rcases changeCommand_cases h with he | ⟨k, div, ticks, hk, hb, hm, rfl⟩
    · exact .inl he
    · exact .inr ⟨_, k, div, ticks, hk, fun _ => hb, by simp [bindsChannel], fun _ => hm, rfl⟩
  | changeInterval ch =>
    rcases changeCommand_cases h with he | ⟨k, div, ticks, hk, hb, hm, rfl⟩
    · exact .inl he
    · exact .inr ⟨_, k, div, ticks, hk, fun _ => hb, by simp [bindsChannel], fun _ => hm, rfl⟩
  | _ =>
    rcases boundCommand_cases h with he | ⟨k, hk, hb, rfl⟩
    · exact .inl he
    · exact .inr ⟨_, k, 0, 0, hk, fun _ => hb, by simp [bindsChannel], by simp [mapsFrequency], rfl⟩

/-- The status and the `CHSEL` of a failed command (60_exceptions.md R230, 10_state.md R24). -/
theorem raise_result (s : State) (e : CommandError) :
    (s.raise e).result = failResult e.code.toNat ∧ statusOf (s.raise e).result ≠ 0#8 ∧
      chselOf (s.raise e).result = 0xFF#8 := by
  refine ⟨failResult_eq e, ?_, ?_⟩
  · simp only [State.raise, statusOf_resultWord]
    cases e <;> decide
  · simp only [State.raise, chselOf_resultWord]
    rfl

theorem Succeeds.result {i : Instr} {s t : State} {c : Nat} {k : Channel} {div ticks : Nat}
    (h : Succeeds i s t c k div ticks) : t.result = resultWord (BitVec.ofNat 8 c) statusOk := by
  rw [h.after]
  cases mapsFrequency i <;> rfl

theorem Succeeds.channels {i : Instr} {s t : State} {c : Nat} {k : Channel} {div ticks : Nat}
    (h : Succeeds i s t c k div ticks) : t.channels = s.channels.set c (commandRun i s k div ticks).chan := by
  rw [h.after]
  cases mapsFrequency i <;> rfl

theorem Succeeds.history {i : Instr} {s t : State} {c : Nat} {k : Channel} {div ticks : Nat}
    (h : Succeeds i s t c k div ticks) :
    t.history = s.history ++ (commandRun i s k div ticks).events.map (Event.channel c) := by
  rw [h.after]
  cases mapsFrequency i <;> rfl

/-- The status tells the two ways a command ends apart (60_exceptions.md R230). -/
theorem exec_result_cases {i : Instr} {s t : State} (h : exec i s = .next t) :
    (∃ e, t = s.raise e ∧ statusOf t.result ≠ 0#8 ∧ chselOf t.result = 0xFF#8) ∨
      ∃ c k div ticks, Succeeds i s t c k div ticks ∧ statusOf t.result = 0#8 ∧
        chselOf t.result = BitVec.ofNat 8 c := by
  rcases exec_cases h with ⟨e, rfl⟩ | ⟨c, k, div, ticks, hs⟩
  · exact .inl ⟨e, rfl, (raise_result s e).2⟩
  · refine .inr ⟨c, k, div, ticks, hs, ?_⟩
    rw [hs.result, statusOf_resultWord, chselOf_resultWord]
    exact ⟨rfl, rfl⟩

/-- No procedure of a command changes a channel's parameters (10_state.md R37). -/
theorem commandRun_cfg (i : Instr) (s : State) (k : Channel) (div ticks : Nat) :
    (commandRun i s k div ticks).chan.cfg = k.cfg := by
  cases i <;>
    simp [commandRun, bindRun, changeRun, arm_eq, release_eq, gateIfRunning_eq, ungateIfPaused_eq, ChannelRun.start,
      Channel.armed, Channel.opened, Channel.free, ChannelRun.write]

/-! ### Steps -/

/-- The step that writes a command word to `CMD` (20_memory.md R61). -/
theorem step_commandWrite {s : State} {w : Word} {rest : List Action} (h : s.schedule = commandWrite w :: rest) :
    step s = writeCommand w { s with schedule := rest } := by
  simp only [step, runSchedule, h, commandWrite, perform, hostWrite, show accessRefusal 0 4 = none from rfl,
    writeWindow, show windowReg s.channels.length 0 = .global .cmd from rfl]

/-- The step of a scheduled ELAPSE. -/
theorem step_elapse {s : State} {c : Nat} {rest : List Action} (h : s.schedule = .elapse c :: rest) :
    step s = .next (elapseStep c { s with schedule := rest }) := by
  simp only [step, runSchedule, h, perform]

/-- The step of a scheduled TICK. -/
theorem step_tick {s : State} {c : Nat} {rest : List Action} (h : s.schedule = .tick c :: rest) :
    step s = .next (tickStep c { s with schedule := rest }) := by
  simp only [step, runSchedule, h, perform]

/-- No TICK changes a channel's parameters (10_state.md R37). -/
theorem tick_cfg (k : Channel) : k.tick.chan.cfg = k.cfg := by
  by_cases h0 : k.repeats = 0#32
  · rw [tick_exhausted k h0]; rfl
  · cases hd : k.done
    · rw [tick_intermediate k h0 hd]
    · by_cases h1 : k.repeats = 1#32
      · rw [tick_last k h1 hd]; rfl
      · rw [tick_reload k h0 h1 hd]; rfl

/-- What a write of `CMD` does: an illegal word raises `IllegalCommand`, a command runs; then `Done`
(42_host_commands.md R180). -/
theorem writeCommand_cases {w : Word} {s t : State} (h : writeCommand w s = .next t) :
    ∃ u, t = u.emitDone w ∧
      (((∃ e, decode w = .error e) ∧ u = ({ s with cmd := w } : State).raise .illegalCommand) ∨
        ∃ i, decode w = .ok i ∧ exec i { s with cmd := w } = .next u) := by
  unfold writeCommand at h
  dsimp only at h
  split at h
  · rename_i e he
    simp only [Host.Outcome.next.injEq] at h
    exact ⟨_, h.symm, .inl ⟨⟨e, he⟩, rfl⟩⟩
  · rename_i i hi
    split at h <;> simp only [Host.Outcome.next.injEq, reduceCtorEq] at h
    rename_i u hu
    exact ⟨u, h.symm, .inr ⟨i, hi, hu⟩⟩

/-- What a host write inside the window does (20_memory.md R61, R64): nothing, one operand register, or a command. -/
theorem writeWindow_cases {off : Nat} {v : Word} {s t : State} (h : writeWindow off v s = .next t) :
    t = s ∨ t = { s with opa := v } ∨ t = { s with opb := v } ∨ t = { s with opc := v } ∨ t = { s with opd := v } ∨
      t = { s with ope := v } ∨ writeCommand v s = .next t := by
  unfold writeWindow at h
  split at h <;> simp_all

/-- What a step can do: nothing with an empty schedule; a read; a write that stores, is ignored or runs a command; an
ELAPSE; a TICK; a reset. -/
theorem step_cases {s t : State} (h : step s = .next t) :
    (s.schedule = [] ∧ t = s) ∨
      ∃ a rest, s.schedule = a :: rest ∧
        ((∃ off v, a = .memRead off 4 ∧
            t = { s with schedule := rest, reads := s.reads ++ [{ off := off, value := v }] }) ∨
          (∃ off v, a = .memWrite off 4 v ∧ ¬ badAccess off 4 ∧ writeWindow off v { s with schedule := rest } = .next t) ∨
          (∃ c, a = .elapse c ∧ t = elapseStep c { s with schedule := rest }) ∨
          (∃ c, a = .tick c ∧ t = tickStep c { s with schedule := rest }) ∨
          (a = .reset ∧ t = resetBlock { s with schedule := rest })) := by
  unfold step runSchedule at h
  split at h
  · rename_i hs
    simp only [Host.Outcome.next.injEq] at h
    exact .inl ⟨hs, h.symm⟩
  · rename_i a rest hs
    refine .inr ⟨a, rest, hs, ?_⟩
    cases a with
    | memRead off width =>
      simp only [perform, hostRead] at h
      split at h
      · cases h
      · rename_i ha
        simp only [Host.Outcome.next.injEq] at h
        obtain rfl : width = 4 := by
          by_contra hw
          exact (accessRefusal_none_iff off width).mp ha (.inl hw)
        exact .inl ⟨off, _, rfl, h.symm⟩
    | memWrite off width v =>
      simp only [perform, hostWrite] at h
      split at h
      · cases h
      · rename_i ha
        obtain rfl : width = 4 := by
          by_contra hw
          exact (accessRefusal_none_iff off width).mp ha (.inl hw)
        exact .inr (.inl ⟨off, v, rfl, (accessRefusal_none_iff off 4).mp ha, h⟩)
    | elapse c => simp only [perform, Host.Outcome.next.injEq] at h; exact .inr (.inr (.inl ⟨c, rfl, h.symm⟩))
    | tick c => simp only [perform, Host.Outcome.next.injEq] at h; exact .inr (.inr (.inr (.inl ⟨c, rfl, h.symm⟩)))
    | reset => simp only [perform, Host.Outcome.next.injEq] at h; exact .inr (.inr (.inr (.inr ⟨rfl, h.symm⟩)))

/-- ELAPSE: on an enabled channel it sets `PENDING`, else the state stays (41_interval_runner.md R145). -/
theorem elapseStep_cases (c : Nat) (s : State) :
    elapseStep c s = s ∨
      ∃ k, s.channels[c]? = some k ∧ k.elapseEnabled = true ∧
        elapseStep c s = s.applyRun c (ChannelRun.start { k with pending := true }) := by
  unfold elapseStep
  split
  · exact .inl rfl
  · rename_i k hk
    cases he : k.elapseEnabled
    · exact .inl rfl
    · exact .inr ⟨k, hk, he, rfl⟩

/-- TICK: on an enabled channel it runs the channel's tick, else the state stays (41_interval_runner.md R148). -/
theorem tickStep_cases (c : Nat) (s : State) :
    tickStep c s = s ∨
      ∃ k, s.channels[c]? = some k ∧ k.tickEnabled = true ∧ tickStep c s = s.applyRun c k.tick := by
  unfold tickStep
  split
  · exact .inl rfl
  · rename_i k hk
    cases he : k.tickEnabled
    · exact .inl rfl
    · exact .inr ⟨k, hk, he, rfl⟩

end Sys2Proof.Machine
end

