-- ==== Sys2Proof/Laws/Encoding.lean ====
section
/-! SUPPORT. Lemmas about fields and words: taking a word's fields and putting fields into a word are inverse to each
other, and so are the codes of an operation and of a kind and their readings. -/

namespace Sys2Proof

/-- The fields of a word built from fields are those fields (30_encoding.md R80, R81). -/
theorem ofWord_toWord (f : Fields) : Fields.ofWord f.toWord = f := by
  rcases f with ⟨op, ch, a, r, kind, rsv⟩
  simp only [Fields.ofWord, Fields.toWord, placed, placedBit, Fields.mk.injEq]
  refine ⟨?_, ?_, ?_, ?_, ?_, ?_⟩
  · ext i hi
    have : i < 8 := hi
    simp [*]
    grind
  · ext i hi; simp; grind
  · simp
  · simp
  · ext i hi; simp; grind
  · ext i hi; simp; grind

/-- A word is built from its own fields: no bit is dropped (30_encoding.md R80). -/
theorem toWord_ofWord (w : Word) : (Fields.ofWord w).toWord = w := by
  simp only [Fields.ofWord, Fields.toWord, placed, placedBit]
  apply BitVec.eq_of_getLsbD_eq
  intro i hi
  simp [hi]
  grind

theorem decode_toWord (f : Fields) : decode f.toWord = decodeFields f := by simp [decode, ofWord_toWord]

@[simp] theorem ofByte_toByte (o : Opcode) : Opcode.ofByte o.toByte = some o := by cases o <;> rfl

theorem ofByte_some {b : Byte} {o : Opcode} (h : Opcode.ofByte b = some o) : b = o.toByte := by
  unfold Opcode.ofByte at h
  have h' := List.find?_some h
  simpa using (beq_iff_eq.mp h').symm

@[simp] theorem ofBits_toBits (k : Kind) : Kind.ofBits k.toBits = some k := by cases k <;> rfl

theorem toBits_ofBits {b : BitVec 2} {k : Kind} (h : Kind.ofBits b = some k) : k.toBits = b := by
  revert h
  cases k <;> (revert b; decide)

/-- Which `OP` fields name no operation (30_encoding.md R89(2)). -/
theorem ofByte_none_iff (op : Byte) : Opcode.ofByte op = none ↔ op.toNat = 0 ∨ 10 ≤ op.toNat := by
  revert op; decide +kernel

/-- The two classes of operations that the flags of a word belong to, by the value of `OP` (30_encoding.md R90). -/
theorem ofByte_classes (op : Byte) (o : Opcode) (h : Opcode.ofByte op = some o) :
    (o.isBind = true ↔ op.toNat = 2 ∨ op.toNat = 3) ∧
      (o.takesBit17 = true ↔ (op.toNat = 2 ∨ op.toNat = 3) ∨ op.toNat = 7) := by
  obtain rfl := ofByte_some h
  cases o <;> decide

/-- The fields of a word as parts of its value (30_encoding.md R81). -/
theorem ofWord_toNat (w : Word) :
    (Fields.ofWord w).op.toNat = w.toNat % 256 ∧ (Fields.ofWord w).ch.toNat = w.toNat / 2 ^ 8 % 256 ∧
      ((Fields.ofWord w).a = true ↔ w.toNat / 2 ^ 16 % 2 = 1) ∧
      ((Fields.ofWord w).r = true ↔ w.toNat / 2 ^ 17 % 2 = 1) ∧
      (Fields.ofWord w).kind.toNat = w.toNat / 2 ^ 18 % 4 ∧ (Fields.ofWord w).rsv.toNat = w.toNat / 2 ^ 20 := by
  have := w.isLt
  refine ⟨?_, ?_, ?_, ?_, ?_, ?_⟩ <;>
    simp [Fields.ofWord, Nat.shiftRight_eq_div_pow, BitVec.getLsbD, Nat.testBit_eq_decide_div_mod_eq]
  omega

end Sys2Proof
end

