-- ==== Sys2Proof/Laws/Mapper.lean ====
section
/-! SUPPORT. What the FrequencyMapper's parts can do, said once: `T` along the divider table, the start of the search,
the divider chosen, and the two ways the mapper ends. -/

namespace Sys2Proof.Machine

/-- A larger divider gives no more ticks (40_frequency_mapper.md R114). -/
theorem ticksAt_antitone (clkHz : Nat) (f : Freq) {d d' : Nat} (hf : f.num ≠ 0#32) (hd : 0 < d) (h : d ≤ d') :
    ticksAt clkHz f d' ≤ ticksAt clkHz f d := by
  have hn : 0 < f.num.toNat := Nat.pos_of_ne_zero fun h0 => hf (BitVec.eq_of_toNat_eq h0)
  have : clkHz * f.den.toNat / (f.num.toNat * d') ≤ clkHz * f.den.toNat / (f.num.toNat * d) :=
    Nat.div_le_div_left (Nat.mul_le_mul_left _ h) (Nat.mul_pos hn hd)
  simp only [ticksAt]
  omega

theorem ticksAt_ge (clkHz : Nat) (f : Freq) (d : Nat) : -1 ≤ ticksAt clkHz f d := by
  have := Int.natCast_nonneg (clkHz * f.den.toNat / (f.num.toNat * d))
  simp only [ticksAt] at *
  linarith

theorem fitsAccumulator_iff (clkHz : Nat) (f : Freq) (d : Nat) :
    fitsAccumulator clkHz f d = true ↔ ticksAt clkHz f d ≤ ((2 ^ 32 - 1 : Nat) : Int) := by
  exact decide_eq_true_iff

theorem chainFits_iff (clkHz : Nat) (p : ChannelParams) (f : Freq) (d : Nat) :
    chainFits clkHz p f d = true ↔ ticksAt clkHz f d < ((16384 * p.width.counterMax : Nat) : Int) := by
  exact decide_eq_true_iff

/-- The search's start cuts the table: nothing before it fits the accumulator, its first divider does
(40_frequency_mapper.md R115). -/
theorem dropWhile_cons {p : ChannelParams} {clkHz : Nat} {f : Freq} {first : Nat} {rest : List Nat}
    (h : p.divs.dropWhile (fun d => !fitsAccumulator clkHz f d) = first :: rest) :
    ∃ pre, p.divs = pre ++ first :: rest ∧ (∀ d ∈ pre, fitsAccumulator clkHz f d = false) ∧
      fitsAccumulator clkHz f first = true := by
  refine ⟨p.divs.takeWhile (fun d => !fitsAccumulator clkHz f d), ?_, ?_, ?_⟩
  · rw [← h, List.takeWhile_append_dropWhile]
  · intro d hd
    simpa using List.mem_takeWhile_imp hd
  · have := List.head_dropWhile_not (fun d => !fitsAccumulator clkHz f d) (l := p.divs) (by simp [h])
    simpa [h] using this

/-- The divider chosen passes the chain test and is the first to, or no divider passes and it is the last
(40_frequency_mapper.md R116, R117). -/
theorem chooseDivider_cases (clkHz : Nat) (p : ChannelParams) (f : Freq) (first : Nat) (rest : List Nat) :
    (∃ before after, first :: rest = before ++ chooseDivider clkHz p f first rest :: after ∧
        (∀ d ∈ before, chainFits clkHz p f d = false) ∧
        chainFits clkHz p f (chooseDivider clkHz p f first rest) = true) ∨
      ((∀ d ∈ first :: rest, chainFits clkHz p f d = false) ∧
        (first :: rest).getLast? = some (chooseDivider clkHz p f first rest)) := by
  unfold chooseDivider
  split
  · rename_i d hd
    obtain ⟨hp, before, after, heq, hb⟩ := List.find?_eq_some_iff_append.mp hd
    exact .inl ⟨before, after, heq, fun x hx => by simpa using hb x hx, hp⟩
  · rename_i hn
    refine .inr ⟨fun d hd => by simpa using List.find?_eq_none.mp hn d hd, ?_⟩
    rw [List.getLast?_cons, List.getLastD_eq_getLast?]

theorem chooseDivider_mem (clkHz : Nat) (p : ChannelParams) (f : Freq) (first : Nat) (rest : List Nat) :
    chooseDivider clkHz p f first rest ∈ first :: rest := by
  rcases chooseDivider_cases clkHz p f first rest with ⟨before, after, h, _, _⟩ | ⟨_, h⟩
  · rw [h]; simp
  · exact List.mem_of_getLast? h

/-- What a mapping that succeeds has passed, and what it answers (40_frequency_mapper.md R119). -/
theorem mapFrequency_ok {clkHz : Nat} {p : ChannelParams} {f : Freq} {div ticks : Nat}
    (h : mapFrequency clkHz p f = .ok div ticks) :
    f.num ≠ 0#32 ∧ f.den ≠ 0#32 ∧ belowGuard f = false ∧
      ∃ first rest, p.divs.dropWhile (fun d => !fitsAccumulator clkHz f d) = first :: rest ∧
        div = chooseDivider clkHz p f first rest ∧ ticksAt clkHz f div = (ticks : Int) := by
  unfold mapFrequency at h
  split at h
  · cases h
  · rename_i h0
    split at h
    · cases h
    · rename_i hg
      split at h
      · cases h
      · rename_i first rest hd
        dsimp only at h
        split at h
        · cases h
        · rename_i ht
          simp only [MapResult.ok.injEq] at h
          obtain ⟨rfl, rfl⟩ := h
          simp only [not_or] at h0
          refine ⟨h0.1, h0.2, by simpa using hg, first, rest, hd, rfl, ?_⟩
          omega

/-- The mapper's answer fits the registers it is written to: the divider is one of the table's, the ticks are those at
that divider, within 32 bits (40_frequency_mapper.md R115, R119). -/
theorem mapFrequency_fits {clkHz : Nat} {p : ChannelParams} {f : Freq} {div ticks : Nat} (hp : p.valid)
    (h : mapFrequency clkHz p f = .ok div ticks) :
    f.num ≠ 0#32 ∧ f.den ≠ 0#32 ∧ div ∈ p.divs ∧ div ≤ 65535 ∧ ticks ≤ 2 ^ 32 - 1 ∧
      ticksAt clkHz f div = (ticks : Int) := by
  obtain ⟨hn, hd, _, first, rest, hs, rfl, ht⟩ := mapFrequency_ok h
  obtain ⟨pre, heq, _, hfit⟩ := dropWhile_cons hs
  have hmem := chooseDivider_mem clkHz p f first rest
  have hin : chooseDivider clkHz p f first rest ∈ p.divs := by rw [heq]; simp only [List.mem_append]; exact .inr hmem
  refine ⟨hn, hd, hin, (hp.2.2.2 _ hin).2, ?_, ht⟩
  have hle : first ≤ chooseDivider clkHz p f first rest := by
    have hpw := hp.2.2.1
    rw [heq] at hpw
    have hpw := (List.pairwise_append.mp hpw).2.1
    rcases List.mem_cons.mp hmem with hc | hc
    · exact hc.ge
    · exact (List.rel_of_pairwise_cons hpw hc).le
  have h1 : 0 < first := (hp.2.2.2 first (by rw [heq]; simp)).1
  have := ticksAt_antitone clkHz f hn h1 hle
  have := (fitsAccumulator_iff clkHz f first).mp hfit
  omega

end Sys2Proof.Machine
end

