-- ==== Sys2Proof/Laws/PerInstr.lean ====
section
/-! SUPPORT. What holds of every command as syntax, stated once and proved command by command: its word has the fixed
bits of its row of spec/opcode_table.json. -/

namespace Sys2Proof.Laws.EncodedInTableRow

/-- The word of a well-formed command agrees with its row's "match" under its row's "mask" (30_encoding.md R88). -/
def Statement (i : Instr) : Prop := i.wellFormed = true → encode i &&& i.tableRow.2 = i.tableRow.1

/-- The two words of a bind, each under its row's mask. -/
theorem bind_words (o : Opcode) (target : Target) (a r : Bool) :
    encodeBind o target a r &&& 0xFFF000FF#32 = placed 0 o.toByte := by
  cases target with
  | explicit ch => cases o <;> revert ch a r <;> decide +kernel
  | auto kind => cases o <;> cases kind <;> cases a <;> cases r <;> decide

theorem map (ch : ChannelId) : Statement (.map ch) := by
  intro _; revert ch; decide +kernel

theorem bind (target : Target) (a r : Bool) : Statement (.bind target a r) :=
  fun _ => bind_words .bind target a r

theorem bindInterval (target : Target) (a r : Bool) : Statement (.bindInterval target a r) :=
  fun _ => bind_words .bindInterval target a r

theorem stop (ch : ChannelId) : Statement (.stop ch) := by
  intro _; revert ch; decide +kernel

theorem pause (ch : ChannelId) : Statement (.pause ch) := by
  intro _; revert ch; decide +kernel

theorem resume (ch : ChannelId) : Statement (.resume ch) := by
  intro _; revert ch; decide +kernel

theorem restart (ch : ChannelId) (d : Bool) : Statement (.restart ch d) := by
  intro _; revert ch d; decide +kernel

theorem changeFrequency (ch : ChannelId) : Statement (.changeFrequency ch) := by
  intro _; revert ch; decide +kernel

theorem changeInterval (ch : ChannelId) : Statement (.changeInterval ch) := by
  intro _; revert ch; decide +kernel

end Sys2Proof.Laws.EncodedInTableRow
end

