-- ==== Sys2Proof/Laws/Run.lean ====
section
/-! SUPPORT. Runs and behaviours: taking a run apart, what one quiet step does to one channel, that no action reads what
is scheduled after it, and that a behaviour's beginning is the run of a schedule. Proofs about schedules and about
fairness cite these. -/

namespace Sys2Proof.Machine

/-! ### Runs -/

/-- A run goes on from the state its first step answers. -/
theorem run_succ {s t : State} (n : Nat) (h : step s = .next t) : core.run (n + 1) s = core.run n t := by
  simp only [Host.Core.run, core, h]

/-- A run goes on from the state a shorter run answers. -/
theorem run_add {s t : State} (m n : Nat) (h : core.run m s = .next t) : core.run (m + n) s = core.run n t := by
  induction m generalizing s with
  | zero =>
    have h : s = t := by injection h
    rw [Nat.zero_add, h]
  | succ m ih =>
    rw [Nat.add_right_comm]
    cases hs : step s with
    | next u => rw [run_succ _ hs] at h ⊢; exact ih h
    | fault e => cases e
    | refused e => simp [Host.Core.run, core, hs] at h

/-! ### Callbacks -/

theorem callbacksOf_append (c : Nat) (h h' : List Event) :
    callbacksOf c (h ++ h') = callbacksOf c h + callbacksOf c h' := by simp [callbacksOf]

/-- Another channel's events hold no callback of channel `c`. -/
theorem callbacksOf_other {c d : Nat} (h : d ≠ c) (es : List Emission) :
    callbacksOf c (es.map (Event.channel d)) = 0 := by
  unfold callbacksOf
  rw [List.countP_eq_zero]
  intro e he
  obtain ⟨x, _, rfl⟩ := List.mem_map.mp he
  rcases x with _ | _ <;> simp [Event.isCallbackOf, h]

/-- A TICK emits one callback at the end of a period and none elsewhere (41_interval_runner.md R150 to R152). -/
theorem callbacksOf_tick (c : Nat) (k : Channel) :
    callbacksOf c (k.tick.events.map (Event.channel c)) = if k.repeats ≠ 0#32 ∧ k.done = true then 1 else 0 := by
  by_cases h0 : k.repeats = 0#32
  · rw [tick_exhausted k h0]
    cases hp : k.paused <;> simp [callbacksOf, Event.isCallbackOf, h0]
  · cases hd : k.done
    · rw [tick_intermediate k h0 hd]
      simp [callbacksOf, Event.isCallbackOf]
    · by_cases h1 : k.repeats = 1#32
      · rw [tick_last k h1 hd]
        cases hp : k.paused <;> simp [callbacksOf, Event.isCallbackOf, h0]
      · rw [tick_reload k h0 h1 hd]
        simp [callbacksOf, Event.isCallbackOf, h0]

/-- Every TICK emits something (41_interval_runner.md R156, R159). -/
theorem tick_emits (k : Channel) : 0 < k.tick.events.length := by
  by_cases h0 : k.repeats = 0#32
  · rw [tick_exhausted k h0]; simp
  · cases hd : k.done
    · rw [tick_intermediate k h0 hd]; simp
    · by_cases h1 : k.repeats = 1#32
      · rw [tick_last k h1 hd]; simp
      · rw [tick_reload k h0 h1 hd]; simp

/-! ### Quiet steps -/

theorem isQuiet_of_isTimerStep {a : Action} (h : a.isTimerStep = true) : a.isQuiet = true := by
  cases a <;> simp_all [Action.isTimerStep, Action.isQuiet]

theorem timerEnabled_elapse {s : State} {c : Nat} {k : Channel} (h : s.channels[c]? = some k) :
    s.timerEnabled (.elapse c) = k.elapseEnabled := by simp [State.timerEnabled, h]

theorem timerEnabled_tick {s : State} {c : Nat} {k : Channel} (h : s.channels[c]? = some k) :
    s.timerEnabled (.tick c) = k.tickEnabled := by simp [State.timerEnabled, h]

/-- Only the offset 0 of an aligned access names `CMD` (20_memory.md R61). -/
theorem windowReg_cmd {n off : Nat} (ha : off % 4 = 0) (h : windowReg n off = .global .cmd) : off = 0 := by
  unfold windowReg at h
  split at h
  · rename_i hlt
    split at h <;> simp only [WindowReg.global.injEq, reduceCtorEq] at h
    rename_i r hr
    subst h
    have hb : off / 4 < 10 := (List.getElem?_eq_some_iff.mp hr).1
    generalize hq : off / 4 = q at hr hb
    interval_cases q <;> simp [globalRegs] at hr
    omega
  · split at h
    · split at h <;> cases h
    · cases h

/-- A host write that is not to `CMD` runs no command: it changes no channel, no history and no schedule (20_memory.md
R64). -/
theorem writeWindow_quiet {off : Nat} {v : Word} {s t : State} (ha : off % 4 = 0) (ho : off ≠ 0)
    (h : writeWindow off v s = .next t) :
    t.channels = s.channels ∧ t.history = s.history ∧ t.schedule = s.schedule := by
  unfold writeWindow at h
  split at h
  · rename_i hw
    exact absurd (windowReg_cmd ha hw) ho
  all_goals
    simp only [Host.Outcome.next.injEq] at h
    subst h
    exact ⟨rfl, rfl, rfl⟩

/-- What a quiet step does to channel `c`: it takes its enabled ELAPSE, it takes its enabled TICK, or it leaves the
channel as it is and emits no event of it (41_interval_runner.md R145, R148). -/
theorem step_quiet_cases {s t : State} {a : Action} {rest : List Action} {c : Nat} {k : Channel}
    (hs : s.schedule = a :: rest) (hq : a.isQuiet = true) (hk : s.channels[c]? = some k) (h : step s = .next t) :
    t.schedule = rest ∧
      ((a = .elapse c ∧ k.elapseEnabled = true ∧ t.channels[c]? = some k.elapse ∧ t.history = s.history) ∨
        (a = .tick c ∧ k.tickEnabled = true ∧ t.channels[c]? = some k.tick.chan ∧
          t.history = s.history ++ k.tick.events.map (Event.channel c)) ∨
        (¬ (a = .elapse c ∧ k.elapseEnabled = true) ∧ ¬ (a = .tick c ∧ k.tickEnabled = true) ∧
          t.channels[c]? = some k ∧ ∃ es, t.history = s.history ++ es ∧ ∀ e ∈ es, e.isOf c = false)) := by
  have hcl : c < s.channels.length := (List.getElem?_eq_some_iff.mp hk).1
  rcases step_cases h with ⟨hn, _⟩ | ⟨b, rest', hs', hb⟩
  · simp [hs] at hn
  · obtain ⟨rfl, rfl⟩ : a = b ∧ rest = rest' := by simpa [hs] using hs'
    rcases hb with ⟨off, v, rfl, rfl⟩ | ⟨off, v, rfl, hbad, hw⟩ | ⟨d, rfl, rfl⟩ | ⟨d, rfl, rfl⟩ | ⟨rfl, rfl⟩
    · exact ⟨rfl, .inr (.inr ⟨by simp, by simp, hk, [], by simp⟩)⟩
    · have ha : off % 4 = 0 := by
        by_contra hne
        exact hbad (.inr (.inl hne))
      obtain ⟨hc, hh, hsch⟩ := writeWindow_quiet ha (by simpa [Action.isQuiet] using hq) hw
      exact ⟨hsch, .inr (.inr ⟨by simp, by simp, by rw [hc]; exact hk, [], by simp [hh]⟩)⟩
    · rcases elapseStep_cases d { s with schedule := rest } with he | ⟨k', hk', hen, he⟩ <;> rw [he]
      · by_cases hx : d = c ∧ k.elapseEnabled = true
        · obtain ⟨rfl, hx⟩ := hx
          refine absurd (congrArg (fun u : State => u.channels[d]?) he) ?_
          have hp : k.pending = false := by
            simp only [Channel.elapseEnabled, Bool.and_eq_true, Bool.not_eq_true'] at hx
            exact hx.2
          simp only [elapseStep, hk, hx, cond_true, State.applyRun_channels, ChannelRun.start,
            List.getElem?_set_self hcl, Option.some.injEq]
          intro heq
          have := congrArg Channel.pending heq
          simp [Channel.elapse, hp] at this
        · exact ⟨rfl, .inr (.inr ⟨by simpa using hx, by simp, hk, [], by simp⟩)⟩
      · by_cases hd : d = c
        · subst hd
          obtain rfl : k = k' := Option.some.inj (hk.symm.trans hk')
          exact ⟨rfl, .inl ⟨rfl, hen, by simp [hcl, ChannelRun.start, Channel.elapse], by simp [ChannelRun.start]⟩⟩
        · exact ⟨rfl, .inr (.inr ⟨by simp [hd], by simp, by simp [hd, hk], [], by simp [ChannelRun.start]⟩)⟩
    · rcases tickStep_cases d { s with schedule := rest } with he | ⟨k', hk', hen, he⟩ <;> rw [he]
      · by_cases hx : d = c ∧ k.tickEnabled = true
        · obtain ⟨rfl, hx⟩ := hx
          refine absurd (congrArg (fun u : State => u.history.length) he) ?_
          have hne : 0 < k.tick.events.length := tick_emits k
          simp only [tickStep, hk, hx, cond_true, State.applyRun_history, List.length_append, List.length_map]
          omega
        · exact ⟨rfl, .inr (.inr ⟨by simp, by simpa using hx, hk, [], by simp⟩)⟩
      · by_cases hd : d = c
        · subst hd
          obtain rfl : k = k' := Option.some.inj (hk.symm.trans hk')
          exact ⟨rfl, .inr (.inl ⟨rfl, hen, by simp [hcl], rfl⟩)⟩
        · refine ⟨rfl, .inr (.inr ⟨by simp, by simp [hd], by simp [hd, hk], _, rfl, ?_⟩)⟩
          simp [Event.isOf, hd]
    · cases hq

/-- A history that grows by events of other channels holds the same callbacks of channel `c`. -/
theorem callbacksOf_not_isOf {c : Nat} {h es : List Event} (he : ∀ e ∈ es, e.isOf c = false) :
    callbacksOf c (h ++ es) = callbacksOf c h := by
  have h0 : callbacksOf c es = 0 := by
    unfold callbacksOf
    rw [List.countP_eq_zero]
    intro e hm
    have := he e hm
    rcases e with ⟨d, _ | _⟩ | _ <;> simp_all [Event.isOf, Event.isCallbackOf]
  rw [callbacksOf_append, h0, Nat.add_zero]

/-! ### The schedule and the behaviours it begins -/

/-- `s` with the actions `l` scheduled. -/
def State.withSchedule (s : State) (l : List Action) : State := { s with schedule := l }

/-- The outcome, with the actions `l` scheduled after it. -/
def thenSchedule (l : List Action) (r : Result) : Result :=
  match r with
  | .next t => .next (t.withSchedule l)
  | .fault e => .fault e
  | .refused e => .refused e

theorem mapCommand_schedule (ch : ChannelId) (s : State) (l : List Action) :
    finishCommand (s.withSchedule l) (mapCommand ch (s.withSchedule l)) =
      thenSchedule l (finishCommand s (mapCommand ch s)) := by
  simp only [mapCommand, show checkId (s.withSchedule l) ch = checkId s ch from rfl,
    show ∀ k, mapOrReject (s.withSchedule l) k (freqOperand (s.withSchedule l)) = mapOrReject s k (freqOperand s)
      from fun _ => rfl]
  rcases checkId s ch with _ | ⟨_, k⟩
  · rfl
  · dsimp only
    rcases mapOrReject s k (freqOperand s) with _ | ⟨_, _⟩ <;> rfl

theorem bindCommand_schedule (target : Target) (a r : Bool) (f : Freq) (s : State) (l : List Action) :
    finishCommand (s.withSchedule l) (bindCommand target a r f (s.withSchedule l)) =
      thenSchedule l (finishCommand s (bindCommand target a r f s)) := by
  simp only [bindCommand, show bindTarget (s.withSchedule l) target = bindTarget s target from rfl,
    show ∀ k, mapOrReject (s.withSchedule l) k f = mapOrReject s k f from fun _ => rfl,
    show handleOperand (s.withSchedule l) = handleOperand s from rfl]
  rcases bindTarget s target with _ | ⟨_, k⟩
  · rfl
  · dsimp only
    split
    · rfl
    · rcases mapOrReject s k f with _ | ⟨_, _⟩ <;> rfl

theorem boundCommand_schedule (ch : ChannelId) (g : Channel → ChannelRun) (s : State) (l : List Action) :
    finishCommand (s.withSchedule l) (boundCommand ch g (s.withSchedule l)) =
      thenSchedule l (finishCommand s (boundCommand ch g s)) := by
  simp only [boundCommand, show checkBound (s.withSchedule l) ch = checkBound s ch from rfl]
  rcases checkBound s ch with _ | ⟨_, _⟩ <;> rfl

theorem changeCommand_schedule (ch : ChannelId) (f : Freq) (s : State) (l : List Action) :
    finishCommand (s.withSchedule l) (changeCommand ch f (s.withSchedule l)) =
      thenSchedule l (finishCommand s (changeCommand ch f s)) := by
  simp only [changeCommand, show checkBound (s.withSchedule l) ch = checkBound s ch from rfl,
    show ∀ k, mapOrReject (s.withSchedule l) k f = mapOrReject s k f from fun _ => rfl]
  rcases checkBound s ch with _ | ⟨_, k⟩
  · rfl
  · dsimp only
    rcases mapOrReject s k f with _ | ⟨_, _⟩ <;> rfl

/-- No command reads the schedule or writes it. -/
theorem exec_schedule (i : Instr) (s : State) (l : List Action) :
    exec i (s.withSchedule l) = thenSchedule l (exec i s) := by
  cases i with
  | map ch => exact mapCommand_schedule ch s l
  | bind target a r => exact bindCommand_schedule target a r (freqOperand s) s l
  | bindInterval target a r => exact bindCommand_schedule target a r (intervalOperand s) s l
  | changeFrequency ch => exact changeCommand_schedule ch (freqOperand s) s l
  | changeInterval ch => exact changeCommand_schedule ch (intervalOperand s) s l
  | stop ch => exact boundCommand_schedule ch _ s l
  | pause ch => exact boundCommand_schedule ch _ s l
  | resume ch => exact boundCommand_schedule ch _ s l
  | restart ch d => exact boundCommand_schedule ch _ s l

/-- No agent's action reads what is scheduled after it or writes it (log 1). -/
theorem perform_schedule (a : Action) (s : State) (l : List Action) :
    perform a (s.withSchedule l) = thenSchedule l (perform a s) := by
  cases a with
  | memRead off width =>
    simp only [perform, hostRead]
    cases accessRefusal off width <;> rfl
  | memWrite off width v =>
    simp only [perform, hostWrite]
    cases accessRefusal off width with
    | some e => rfl
    | none =>
      simp only [writeWindow, show (s.withSchedule l).channels = s.channels from rfl]
      split <;> try rfl
      simp only [writeCommand]
      cases decode v with
      | error e => rfl
      | ok i =>
        have h := exec_schedule i { s with cmd := v } l
        simp only [show ({ s.withSchedule l with cmd := v } : State) = ({ s with cmd := v } : State).withSchedule l
          from rfl, h]
        rcases exec i { s with cmd := v } <;> rfl
  | elapse c =>
    simp only [perform, elapseStep, show (s.withSchedule l).channels = s.channels from rfl]
    cases s.channels[c]? with
    | none => rfl
    | some k => cases h : k.elapseEnabled <;> simp only [h] <;> rfl
  | tick c =>
    simp only [perform, tickStep, show (s.withSchedule l).channels = s.channels from rfl]
    cases s.channels[c]? with
    | none => rfl
    | some k => cases h : k.tickEnabled <;> simp only [h] <;> rfl
  | reset => rfl

/-- One action taken from a state goes on as the first action of any schedule (log 1). -/
theorem take_step {s t : State} {a : Action} (l : List Action) (h : s.take a = .next t) :
    step (s.withSchedule (a :: l)) = .next (t.withSchedule l) := by
  have h' : perform a (s.withSchedule []) = .next t := h
  rw [perform_schedule] at h'
  change perform a (s.withSchedule l) = _
  rw [perform_schedule]
  rcases hp : perform a s with u | u | u <;> rw [hp] at h' <;>
    simp only [thenSchedule, Host.Outcome.next.injEq, reduceCtorEq] at h'
  subst h'
  rfl

/-- The beginning of a behaviour is the run of a schedule (log 1). -/
theorem behaviour_run {states : Nat → State} {acts : Nat → Action} (h : IsBehaviour states acts) (n : Nat)
    (l : List Action) :
    core.run n ((states 0).withSchedule ((List.range n).map acts ++ l)) = .next ((states n).withSchedule l) := by
  induction n generalizing l with
  | zero => rfl
  | succ n ih =>
    rw [List.range_succ, List.map_append, List.append_assoc, run_add n 1 (ih _)]
    exact run_succ 0 (take_step l (h n))

/-! ### Fair behaviours exist -/

/-- Every ELAPSE and every TICK of every channel id, each of them infinitely often. -/
def everyTimerStep (n : Nat) : Action :=
  if (Nat.unpair n).1 % 2 = 0 then .elapse ((Nat.unpair n).1 / 2) else .tick ((Nat.unpair n).1 / 2)

theorem everyTimerStep_isTimerStep (n : Nat) : (everyTimerStep n).isTimerStep = true := by
  unfold everyTimerStep
  split <;> rfl

/-- The behaviour from `s` in which the agents take the actions `acts`; where one is refused, it stays. -/
def behaviourFrom (s : State) (acts : Nat → Action) : Nat → State
  | 0 => s
  | n + 1 =>
    match (behaviourFrom s acts n).take (acts n) with
    | .next t => t
    | .fault _ => behaviourFrom s acts n
    | .refused _ => behaviourFrom s acts n

/-- Neither ELAPSE nor TICK stops the block (60_exceptions.md R237). -/
theorem timerStep_next (s : State) {a : Action} (h : a.isTimerStep = true) : ∃ t, s.take a = .next t := by
  cases a with
  | elapse c => exact ⟨_, step_elapse rfl⟩
  | tick c => exact ⟨_, step_tick rfl⟩
  | memRead off width => cases h
  | memWrite off width v => cases h
  | reset => cases h

/-- Weak fairness (41_interval_runner.md R147) shuts out no state: from every state a weakly fair behaviour begins in
which only the peripheral and the dispatcher act. -/
theorem exists_fair_behaviour (s : State) :
    ∃ states acts, states 0 = s ∧ IsBehaviour states acts ∧ WeaklyFair states acts ∧ ∀ n, (acts n).isQuiet = true := by
  refine ⟨behaviourFrom s everyTimerStep, everyTimerStep, rfl, fun n => ?_, fun a ha n _ => ?_,
    fun n => isQuiet_of_isTimerStep (everyTimerStep_isTimerStep n)⟩
  · obtain ⟨t, ht⟩ := timerStep_next (behaviourFrom s everyTimerStep n) (everyTimerStep_isTimerStep n)
    simp only [behaviourFrom, ht]
  · cases a with
    | elapse c =>
      refine ⟨Nat.pair (2 * c) n, Nat.right_le_pair _ _, ?_⟩
      simp [everyTimerStep]
    | tick c =>
      refine ⟨Nat.pair (2 * c + 1) n, Nat.right_le_pair _ _, ?_⟩
      have h : (2 * c + 1) / 2 = c := by omega
      simp [everyTimerStep, h]
    | memRead off width => cases ha
    | memWrite off width v => cases ha
    | reset => cases ha

end Sys2Proof.Machine
end

