-- ==== Sys2Proof/Tests/Slice0.lean ====
section
/-! SUPPORT. Tests. Each expected value comes from spec/95_test_vectors.md, spec/30_encoding.md R96 or the rule named,
never from the model. The last part shows, for each statement that has hypotheses, a state and operands that meet them
all together. -/

namespace Sys2Proof.Tests

open Sys2Proof Sys2Proof.Machine

-- One theorem after the other: many small kernel evaluations at once need many threads.
set_option Elab.async false

/-! ### Helpers -/

/-- The state an outcome goes on with. -/
def after (r : Result) : Option State :=
  match r with
  | .next t => some t
  | .fault _ => none
  | .refused _ => none

/-- `RESULT` and one channel of the state an outcome goes on with. -/
def resultAnd (c : Nat) (r : Result) : Option (Word × Option Channel) :=
  (after r).map fun t => (t.result, t.channels[c]?)

/-- What an outcome's state has in its history. -/
def historyAfter (r : Result) : Option (List Event) := (after r).map State.history

/-- The reset block of EX with channel `c` replaced. -/
def withChannel (c : Nat) (k : Channel) : State := { State.reset with channels := State.reset.channels.set c k }

/-- A state with its operand registers written. -/
def withOperands (s : State) (opa opb opc opd ope : Word) : State :=
  { s with opa := opa, opb := opb, opc := opc, opd := opd, ope := ope }

/-- A state with its schedule written. -/
def scheduled (s : State) (l : List Machine.Action) : State := { s with schedule := l }

/-- `WIDTH` and `DIVS` of EX's channels 0, 1 and 2 (00_scope.md R10). -/
def cfg0 : ChannelParams := { width := .w16, divs := [1, 8, 64, 256, 1024] }
def cfg1 : ChannelParams := { width := .w8, divs := [1, 8, 32, 64, 128, 256, 1024] }
def cfg2 : ChannelParams := { width := .w16, divs := [2] }

/-- Channel 0 bound at 1 Hz as Scenario A leaves it (95_test_vectors.md V-A). -/
def hertz : Channel :=
  { cfg := cfg0, callback := 7#32, hasArg := false, arg := 0#32, divider := 1#32, fullTicks := 15999999#32,
    remaining := 15934464#32, repeats := 0xFFFFFFFF#32, done := false, enabled := true, paused := false,
    pending := false, cmp := 65535#16, freqNum := 1#32, freqDen := 1#32 }

/-- Channel 0 bound at 1 kHz: one chunk a period (95_test_vectors.md H17). -/
def kilohertz : Channel :=
  { hertz with
    fullTicks := 15999#32, remaining := 0#32, done := true, cmp := 15999#16, freqNum := 1000#32 }

/-- Channel 1 with `FULLTICKS` = 600 and two repetitions, as armed (95_test_vectors.md L3-1, step 6). -/
def chained : Channel :=
  { cfg := cfg1, callback := 0x100#32, hasArg := true, arg := 0x55#32, divider := 1#32, fullTicks := 600#32,
    remaining := 345#32, repeats := 2#32, done := false, enabled := true, paused := false, pending := false,
    cmp := 255#16, freqNum := 16000000#32, freqDen := 601#32 }

/-- Channel 1 with its period complete and an event pending (95_test_vectors.md T3). -/
def complete : Channel := { chained with remaining := 0#32, done := true, cmp := 90#16, pending := true }

def hertzState : State := withChannel 0 hertz
def chainedState : State := withChannel 1 chained

/-! ### Well-formedness: channel id 0xFF is refused where it is not `AUTO` (30_encoding.md R88, R89(7)) -/

theorem test_ill_formed_map : (Instr.map 0xFF#8).wellFormed = false := by decide
theorem test_ill_formed_bind : (Instr.bind (.explicit 0xFF#8) true true).wellFormed = false := by decide
theorem test_ill_formed_bindInterval : (Instr.bindInterval (.explicit 0xFF#8) true false).wellFormed = false := by
  decide
theorem test_ill_formed_stop : (Instr.stop 0xFF#8).wellFormed = false := by decide
theorem test_ill_formed_pause : (Instr.pause 0xFF#8).wellFormed = false := by decide
theorem test_ill_formed_resume : (Instr.resume 0xFF#8).wellFormed = false := by decide
theorem test_ill_formed_restart : (Instr.restart 0xFF#8 true).wellFormed = false := by decide
theorem test_ill_formed_changeFrequency : (Instr.changeFrequency 0xFF#8).wellFormed = false := by decide
theorem test_ill_formed_changeInterval : (Instr.changeInterval 0xFF#8).wellFormed = false := by decide
theorem test_well_formed_auto : (Instr.bind (.auto .bits8) true false).wellFormed = true := by decide

/-! ### Decoding: words written out from 30_encoding.md R96, and the illegal words of 95_test_vectors.md 2.2 -/

theorem test_decode_map : decode 0x00000101#32 = .ok (.map 1#8) := by decide
theorem test_decode_bind : decode 0x00030102#32 = .ok (.bind (.explicit 1#8) true true) := by decide
theorem test_decode_bind_auto : decode 0x0005FF02#32 = .ok (.bind (.auto .bits8) true false) := by decide
theorem test_decode_bindInterval : decode 0x000AFF03#32 = .ok (.bindInterval (.auto .bits16) false true) := by decide
theorem test_decode_stop : decode 0x00000204#32 = .ok (.stop 2#8) := by decide
theorem test_decode_pause : decode 0x00000005#32 = .ok (.pause 0#8) := by decide
theorem test_decode_resume : decode 0x00000006#32 = .ok (.resume 0#8) := by decide
theorem test_decode_restart : decode 0x00020207#32 = .ok (.restart 2#8 true) := by decide
theorem test_decode_changeFrequency : decode 0x00000008#32 = .ok (.changeFrequency 0#8) := by decide
theorem test_decode_changeInterval : decode 0x00000109#32 = .ok (.changeInterval 1#8) := by decide

theorem test_decode_illegal_opcode :
    [0x00000000#32, 0x0000000A#32, 0x000000FF#32].map decode = List.replicate 3 (.error .opcode) := by decide

theorem test_decode_illegal_flags :
    [0x00010004#32, 0x00010007#32].map decode = List.replicate 2 (.error .argumentFlag) ∧
      [0x00020004#32, 0x00020008#32].map decode = List.replicate 2 (.error .repeatFlag) := by decide

theorem test_decode_illegal_selection :
    [0x0000FF04#32, 0x0000FF01#32].map decode = List.replicate 2 (.error .autoWithoutBind) ∧
      decode 0x00040002#32 = .error .kindWithoutAuto ∧ decode 0x000CFF02#32 = .error .kindReserved := by decide

theorem test_decode_illegal_reserved :
    [0x00100001#32, 0x80000002#32].map decode = List.replicate 2 (.error .reservedBits) := by decide

theorem test_encode_written_out :
    encode (.bind (.explicit 1#8) true true) = 0x00030102#32 ∧
      encode (.bindInterval (.auto .bits16) false true) = 0x000AFF03#32 ∧
      encode (.restart 2#8 true) = 0x00020207#32 ∧ encode (.map 0#8) = 0x00000001#32 := by decide

theorem test_table_word : decodeTableWord 32 0x00020207 = some (.restart 2#8 true) := by decide

/-- 30_encoding.md R93 and R95. -/
theorem test_assembly : assembly (.bind (.explicit 1#8) true true) = "BIND.A.R 1" ∧
    assembly (.bindInterval (.auto .bits16) false true) = "BIND_INTERVAL.R any16" ∧
    assembly (.restart 2#8 true) = "RESTART.D 2" := by decide +kernel

theorem test_pseudo_restart :
    (Pseudo.restart 0#8 (some 5000#32)).expand =
      [.memWrite 0x004 4 5000#32, .memWrite 0x000 4 0x00020007#32] := by decide

/-! ### The FrequencyMapper: 95_test_vectors.md 2.1 -/

/-- M1, M4, M5, M6, M11, M21. -/
theorem test_mapper_accepts :
    mapFrequency 16000000 cfg0 ⟨1#32, 1#32⟩ = .ok 1 15999999 ∧
      mapFrequency 16000000 cfg0 ⟨1#32, 1000#32⟩ = .ok 64 249999999 ∧
      mapFrequency 16000000 cfg0 ⟨1#32, 17179#32⟩ = .ok 256 1073687499 ∧
      mapFrequency 16000000 cfg0 ⟨1000#32, 17179840#32⟩ = .ok 1024 268434999 ∧
      mapFrequency 16000000 cfg0 ⟨8000001#32, 1#32⟩ = .ok 1 0 ∧
      mapFrequency 16000000 cfg1 ⟨1#32, 1000#32⟩ = .ok 1024 15624999 := by decide +kernel

/-- M7, M9, M15, M16, M30, M33, M34. -/
theorem test_mapper_rejects :
    mapFrequency 16000000 cfg0 ⟨1000#32, 17179841#32⟩ = .reject .belowGuard ∧
      mapFrequency 16000000 cfg0 ⟨16000001#32, 1#32⟩ = .reject .tooHigh ∧
      mapFrequency 16000000 cfg0 ⟨0#32, 1#32⟩ = .reject .zeroOperand ∧
      mapFrequency 16000000 cfg0 ⟨1#32, 0#32⟩ = .reject .zeroOperand ∧
      mapFrequency 16000000 cfg2 ⟨1#32, 1000#32⟩ = .reject .noFit ∧
      mapFrequency 16000000 cfg2 ⟨8000001#32, 1#32⟩ = .reject .tooHigh ∧
      mapFrequency 1000000000 cfg0 ⟨1#32, 17179#32⟩ = .reject .noFit := by decide +kernel

/-! ### One command each: 95_test_vectors.md 2.4 -/

/-- H29. -/
theorem test_map : (after (exec (.map 1#8) (withOperands State.reset 1#32 1000#32 0#32 0#32 0#32))).map
    (fun t => (t.result, t.mapDiv, t.mapTicks)) = some (0x00000100#32, 1024#32, 15624999#32) := by decide +kernel

/-- H28. -/
theorem test_map_zero_operand : (after (exec (.map 1#8) (withOperands State.reset 1000#32 0#32 0#32 0#32 0#32))).map
    (fun t => (t.result, t.mapDiv, t.mapTicks)) = some (0x0000FF02#32, 0#32, 0#32) := by decide +kernel

/-- Scenario A. -/
theorem test_bind : resultAnd 0 (exec (.bind (.explicit 0#8) false false)
    (withOperands State.reset 1#32 1#32 7#32 0#32 0#32)) = some (0x00000000#32, some hertz) := by decide +kernel

/-- H9: a paused channel is bound again. -/
theorem test_bind_paused : historyAfter (exec (.bind (.explicit 0#8) true false)
    (withOperands (withChannel 0 { hertz with paused := true }) 1000#32 1#32 9#32 0x11#32 0#32)) =
      some [.channel 0 (.port .ungateClock), .channel 0 (.port (.configure 1#32 15999#16)),
        .channel 0 (.port .clearPendingFlag), .channel 0 (.port .enableInterrupt)] := by decide +kernel

/-- H14. -/
theorem test_bindInterval : (after (exec (.bindInterval (.explicit 1#8) false false)
    (withOperands State.reset 10#32 0#32 0x42#32 0#32 0#32))).bind (fun t => t.channels[1]?.map fun k =>
      (t.result, k.divider, k.fullTicks, k.cmp, k.remaining)) =
        some (0x00000100#32, 1#32, 159999#32, 255#16, 159744#32) := by decide +kernel

/-- H10. -/
theorem test_bindInterval_zero : resultAnd 1 (exec (.bindInterval (.explicit 1#8) false false)
    (withOperands State.reset 0#32 0#32 7#32 0#32 0#32)) = some (0x0000FF02#32, some (Channel.free cfg1)) := by
  decide +kernel

/-- H27: STOP of a paused channel. -/
theorem test_stop_paused : historyAfter (exec (.stop 0#8) (withChannel 0 { hertz with paused := true })) =
    some [.channel 0 (.port .disableInterrupt), .channel 0 (.port .clearPendingFlag),
      .channel 0 (.port .ungateClock)] := by decide +kernel

/-- H15: STOP of a free channel. -/
theorem test_stop_free : resultAnd 0 (exec (.stop 0#8) State.reset) =
    some (0x0000FF01#32, some (Channel.free cfg0)) := by decide +kernel

/-- 42_host_commands.md R194. -/
theorem test_pause : historyAfter (exec (.pause 0#8) hertzState) = some [.channel 0 (.port .gateClock)] := by
  decide +kernel

/-- H26: PAUSE of a paused channel. -/
theorem test_pause_paused : after (exec (.pause 0#8) (withChannel 0 { hertz with paused := true })) =
    some (withChannel 0 { hertz with paused := true }) := by decide +kernel

/-- 42_host_commands.md R195. -/
theorem test_resume : resultAnd 0 (exec (.resume 0#8) (withChannel 0 { hertz with paused := true })) =
    some (0#32, some hertz) := by decide +kernel

/-- H25: RESUME of a running channel. -/
theorem test_resume_running : historyAfter (exec (.resume 0#8) hertzState) = some [] := by decide +kernel

/-- H21. -/
theorem test_restart_duration : resultAnd 0 (exec (.restart 0#8 true)
    (withOperands (withChannel 0 { hertz with remaining := 9459#32 }) 5000#32 0#32 0#32 0#32 0#32)) =
      some (0#32, some { hertz with repeats := 5#32 }) := by decide +kernel

/-- H23: the clamp. -/
theorem test_restart_clamp : resultAnd 0 (exec (.restart 0#8 true)
    (withOperands (withChannel 0 kilohertz) 0xFFFFFFFF#32 0#32 0#32 0#32 0#32)) =
      some (0#32, some { kilohertz with repeats := 2147483647#32 }) := by decide +kernel

/-- H17. -/
theorem test_changeFrequency : resultAnd 0 (exec (.changeFrequency 0#8)
    (withOperands hertzState 1000#32 1#32 0#32 0#32 0#32)) = some (0#32, some kilohertz) := by decide +kernel

/-- H16. -/
theorem test_changeFrequency_rejected : resultAnd 0 (exec (.changeFrequency 0#8)
    (withOperands hertzState 1#32 100000#32 0#32 0#32 0#32)) = some (0x0000FF02#32, some hertz) := by decide +kernel

/-- H18. -/
theorem test_changeInterval : (after (exec (.changeInterval 1#8)
    (withOperands chainedState 1000#32 0#32 0#32 0#32 0#32))).bind (fun t => t.channels[1]?.map fun k =>
      (t.result, k.divider, k.fullTicks, k.cmp, k.remaining)) =
        some (0x00000100#32, 8#32, 1999999#32, 255#16, 1999744#32) := by decide +kernel

/-! ### ELAPSE and TICK: 95_test_vectors.md 2.3 -/

/-- T10: a paused channel's ELAPSE is not enabled. -/
theorem test_elapse_paused : resultAnd 0 (step (scheduled (withChannel 0 { hertz with paused := true }) [.elapse 0])) =
    some (0#32, some { hertz with paused := true }) := by decide +kernel

/-- T2. -/
theorem test_tick_inside : resultAnd 1 (step (scheduled
    (withChannel 1 { chained with remaining := 90#32, pending := true }) [.tick 1])) =
      some (0#32, some { chained with remaining := 0#32, done := true, cmp := 90#16 }) := by decide +kernel

/-- T3: the callback comes first. -/
theorem test_tick_callback : historyAfter (step (scheduled (withChannel 1 complete) [.tick 1])) =
    some [.channel 1 (.callback 0x100#32 true 0x55#32), .channel 1 (.port (.armNextChunk 255#16)),
      .channel 1 (.port .enableInterrupt)] := by decide +kernel

/-- T8: a count of 0 releases without a callback. -/
theorem test_tick_exhausted : historyAfter (step (scheduled
    (withChannel 0 { hertz with repeats := 0#32, pending := true }) [.tick 0])) =
      some [.channel 0 (.port .disableInterrupt), .channel 0 (.port .clearPendingFlag)] := by decide +kernel

/-! ### Steps and the window -/

/-- 95_test_vectors.md 2.2: an illegal word, as the first action after reset. -/
theorem test_step_illegal : (after (step (State.reset.withFetchWord 32 0x0000000A))).map
    (fun t => (t.cmd, t.result, t.history)) =
      some (0x0000000A#32, 0x0000FF04#32, [.done 0x0000000A#32 0x0000FF04#32]) := by decide +kernel

/-- 95_test_vectors.md 2.2: STOP 3, as the first action after reset. -/
theorem test_step_command : resultAnd 0 (step (State.reset.withFetchWord 32 0x00000304)) =
    some (0x0000FF01#32, some (Channel.free cfg0)) := by decide +kernel

/-- L3-1, step 6: `CH_STATUS` of channel 1 is 0x23; 10_state.md R38: `CH_CONFIG` has width 8 and seven dividers. -/
theorem test_channel_words : readWindow chainedState 0x180 = 0x23#32 ∧ readWindow chainedState 0x184 = 0x0708#32 := by
  decide +kernel

/-- 20_memory.md R61: `CONFIG`, `CH_DIV[4]` of channel 0, and `CH_DIV[1]` of channel 2, which has one divider. -/
theorem test_window : readWindow State.reset 0x024 = 3#32 ∧ readWindow State.reset 0x150 = 1024#32 ∧
    readWindow State.reset 0x244 = 0#32 := by decide +kernel

/-- 20_memory.md R62: a two-byte access is refused. -/
theorem test_refused_width : step (scheduled State.reset [.memRead 0x018 2]) = .refused (.accessWidth 2) := rfl

/-! ### Witnesses: for each statement that has hypotheses, a state and operands that meet them all together -/

/-- An outcome that goes on with a state of which `P` holds. -/
def goesOn (r : Result) (P : State → Bool) : Bool :=
  match after r with
  | some t => P t
  | none => false

theorem goesOn_next {r : Result} {P : State → Bool} (h : goesOn r P = true) : ∃ t, r = .next t ∧ P t = true := by
  cases r with
  | next t => exact ⟨t, rfl, h⟩
  | fault e => cases e
  | refused e => simp [goesOn, after] at h

/-- The outcome goes on with a state. -/
theorem goesOn_any {r : Result} (h : goesOn r (fun _ => true) = true) : ∃ t, r = .next t :=
  (goesOn_next h).imp fun _ ht => ht.1

/-- Channel 0 bound, its period complete, an event pending. -/
def kilohertzPending : Channel := { kilohertz with pending := true }

/-- A block whose three channels are all bound. -/
def fullState : State :=
  { State.reset with channels := [hertz, chained, { hertz with cfg := cfg2, divider := 2#32 }], opc := 7#32 }

theorem witness_DecodeOfEncode :
    (Instr.map 0xFE#8).wellFormed = true ∧ (Instr.bindInterval (.auto .bits16) true true).wellFormed = true := by decide

theorem witness_EncodeOfDecode : decode 0x000BFF02#32 = .ok (.bind (.auto .bits16) true true) := by decide

/-- One word for each of the conditions (1) to (7), at the edge of its field. -/
theorem witness_IllegalWords_words :
    illegalWord 0x00100001#32 ∧ illegalWord 0x0000000A#32 ∧ illegalWord 0x00000000#32 ∧ illegalWord 0x00010004#32 ∧
      illegalWord 0x00020008#32 ∧ illegalWord 0x00040002#32 ∧ illegalWord 0x000CFF02#32 ∧
      illegalWord 0x0000FF07#32 := by
  refine ⟨?_, ?_, ?_, ?_, ?_, ?_, ?_, ?_⟩ <;> (unfold illegalWord; dsimp only; decide)

theorem witness_IllegalWords_step :
    (scheduled hertzState [commandWrite 0x0000FF04#32]).schedule = commandWrite 0x0000FF04#32 :: [] := rfl

theorem witness_IllegalWords_range :
    decode 0x00000304#32 = .ok (.stop 3#8) ∧ explicitId (.stop 3#8) = some 3#8 ∧
      hertzState.channels.length ≤ (3#8 : ChannelId).toNat ∧
      decode 0x0000FE02#32 = .ok (.bind (.explicit 254#8) false false) ∧
      explicitId (.bind (.explicit 254#8) false false) = some 254#8 ∧
      hertzState.channels.length ≤ (254#8 : ChannelId).toNat := by decide

theorem witness_DecodedWordMatchesItsRow : decode 0x0000FE07#32 = .ok (.restart 254#8 false) := by decide

theorem witness_StepRunsTheDecodedCommand :
    (scheduled hertzState [.memWrite 0x000 4 0x00000005#32]).schedule = .memWrite 0x000 4 0x00000005#32 :: [] ∧
      decode 0x00000005#32 = .ok (.pause 0#8) ∧
      ∃ t, exec (.pause 0#8) { scheduled hertzState [] with schedule := [], cmd := 0x00000005#32 } = .next t :=
  ⟨rfl, by decide, goesOn_any (by decide +kernel)⟩

/-- The edges of the existing accesses: the last word of the window, the first offset beyond it, an odd offset. -/
theorem witness_OnlyBadAccessesAreRefused :
    accessRefusal 0x7FFC 4 = none ∧ accessRefusal 0x8000 4 = some (.outsideWindow 0x8000) ∧
      accessRefusal 0x7FFE 4 = some (.misalignedOffset 0x7FFE) ∧ accessRefusal 0x000 8 = some (.accessWidth 8) := by
  decide

/-- The edges of the reserved ranges, with three channels: below 0x100, in a channel window, beyond the last one. -/
theorem witness_Reads_reserved :
    hertzState.channels.length = 3 ∧ (0x28 ≤ 0x28 ∧ 0x28 < 0x100) ∧ (0x28 ≤ 0xFC ∧ 0xFC < 0x100) ∧
      (2 ≤ (0x22C - 0x100) / 0x80 ∧ 0x2C ≤ (0x22C - 0x100) % 0x80 ∧ (0x22C - 0x100) % 0x80 < 0x40) ∧
      ((0x23C - 0x100) % 0x80 < 0x40 ∧ 0x60 ≤ (0x260 - 0x100) % 0x80) ∧
      (3 ≤ (0x280 - 0x100) / 0x80 ∧ 3 ≤ (0x7FFC - 0x100) / 0x80) ∧ 0x7FFC % 4 = 0 ∧ 0x7FFC < 0x8000 := by decide

theorem witness_Reads_read :
    (scheduled hertzState [.memRead 0x7FFC 4, .memRead 0x7FFC 4]).schedule =
      .memRead 0x7FFC 4 :: .memRead 0x7FFC 4 :: [] ∧ 0x7FFC % 4 = 0 ∧ 0x7FFC < 0x8000 := by decide

theorem witness_Reads_write :
    (scheduled hertzState [.memWrite 0x18 4 5#32]).schedule = .memWrite 0x18 4 5#32 :: [] ∧ 0x18 ≤ 0x18 ∧
      0x18 % 4 = 0 ∧ (scheduled hertzState [.memWrite 0x14 4 5#32]).schedule = .memWrite 0x14 4 5#32 :: [] ∧
      0x14 % 4 = 0 ∧ 0x14 < 0x8000 := by decide

theorem witness_WindowMap :
    chainedState.channels.length ≤ 255 ∧ chainedState.channels[1]? = some chained ∧
      (6 < 8 ∧ 6 < chained.cfg.divs.length) ∧ (7 < 8 ∧ chained.cfg.divs.length ≤ 7) := by decide

theorem witness_StatusAndConfigWordBits : chained.cfg.divs.length ≤ 8 ∧ 7 ≤ 31 := by decide

theorem witness_WindowBytesAreLittleEndian : 0x180 % 4 = 0 := by decide

theorem witness_NoCommandAndNoTickTraps :
    (scheduled (withChannel 1 complete) [.tick 1]).schedule = .tick 1 :: [] := rfl

theorem witness_CommandsKeepOperandsAndParameters : ∃ t, exec (.restart 0#8 true) hertzState = .next t :=
  goesOn_any (by decide +kernel)

theorem witness_FailedCommandRecordsOnlyResult :
    (scheduled hertzState [commandWrite 0x00000304#32]).schedule = commandWrite 0x00000304#32 :: [] ∧
      ∃ t, step (scheduled hertzState [commandWrite 0x00000304#32]) = .next t ∧
        decide (statusOf t.result ≠ 0#8) = true :=
  ⟨rfl, goesOn_next (by decide +kernel)⟩

theorem witness_SuccessTouchesOnlyTheSelectedChannel :
    chainedState.channels.length ≤ 255 ∧
      ∃ t, exec (.stop 1#8) chainedState = .next t ∧
        decide (statusOf t.result = 0#8 ∧ 0 ≠ (chselOf t.result).toNat) = true :=
  ⟨by decide, goesOn_next (by decide +kernel)⟩

theorem witness_MapRegisters_other :
    ∃ t, exec (.restart 1#8 false) chainedState = .next t ∧ decide (mapsFrequency (.restart 1#8 false) = false) = true :=
  goesOn_next (by decide +kernel)

theorem witness_MapRegisters_failed :
    ∃ t, exec (.map 1#8) chainedState = .next t ∧ decide (statusOf t.result ≠ 0#8) = true :=
  goesOn_next (by decide +kernel)

theorem witness_RearmingAndStopping :
    (withChannel 0 kilohertzPending).channels.length ≤ 255 ∧ dropsPending (.restart 0#8 false) = true ∧
      ∃ t, exec (.restart 0#8 false) (withChannel 0 kilohertzPending) = .next t ∧
        decide (statusOf t.result = 0#8 ∧ t.channels[(chselOf t.result).toNat]? = some kilohertz) = true :=
  ⟨by decide, rfl, goesOn_next (by decide +kernel)⟩

theorem witness_ChannelInvariant :
    (scheduled (withChannel 1 complete) [.tick 1]).Inv ∧
      ∃ t, step (scheduled (withChannel 1 complete) [.tick 1]) = .next t :=
  ⟨by decide +kernel, goesOn_any (by decide +kernel)⟩

theorem witness_InvariantsHoldAtReset : Params.ex.valid := by decide +kernel

/-- Channel 0 bound, with the one port action in the history that enabled it, and an ELAPSE to come. -/
def imageState : State :=
  { hertzState with history := [.channel 0 (.port .enableInterrupt)], schedule := [.elapse 0] }

theorem witness_ImageFollowsThePortActions : imageState.ImageInv ∧ ∃ t, step imageState = .next t := by
  refine ⟨?_, goesOn_any (by decide +kernel)⟩
  intro c k h
  rcases c with _ | _ | _ | c
  · obtain rfl : hertz = k := Option.some.inj h
    exact ⟨rfl, rfl⟩
  · obtain rfl : Channel.free cfg1 = k := Option.some.inj h
    exact ⟨rfl, rfl⟩
  · obtain rfl : Channel.free cfg2 = k := Option.some.inj h
    exact ⟨rfl, rfl⟩
  · simp [imageState, hertzState, withChannel, State.reset, State.resetWith, Params.ex] at h

theorem witness_EveryStepKeepsTheResultForm :
    1 ≤ hertzState.channels.length ∧ hertzState.channels.length ≤ 255 ∧
      (scheduled hertzState [commandWrite 0x00000304#32]).ResultInv ∧
      ∃ t, step (scheduled hertzState [commandWrite 0x00000304#32]) = .next t :=
  ⟨by decide, by decide, by decide +kernel, goesOn_any (by decide +kernel)⟩

theorem witness_ParametersNeverChange : ∃ t, step (scheduled hertzState [.reset]) = .next t :=
  goesOn_any (by decide +kernel)

theorem witness_HistoryOnlyGrows : ∃ t, step (scheduled (withChannel 1 complete) [.tick 1]) = .next t :=
  goesOn_any (by decide +kernel)

theorem witness_ResetPutsEveryFieldAtItsValue :
    (scheduled hertzState [.reset]).schedule = .reset :: [] ∧ hertzState.channels.length ≤ 255 := by decide

theorem witness_MapperResultFits :
    cfg0.valid ∧ mapFrequency 16000000 cfg0 ⟨1#32, 1#32⟩ = .ok 1 15999999 := by decide +kernel

/-- Both ends of the search: a divider that passes the chain test, and the largest when none does. -/
theorem witness_MapperPicksTheSmallestDivider :
    cfg1.valid ∧ mapFrequency 16000000 cfg1 ⟨1#32, 1#32⟩ = .ok 8 1999999 ∧
      mapFrequency 16000000 cfg1 ⟨1#32, 1000#32⟩ = .ok 1024 15624999 := by decide +kernel

theorem witness_MapperRejectsExactlyWhen : cfg2.valid := by decide +kernel

theorem witness_LongestInterval : (17179840#32 : Word) ≠ 0#32 ∧ (17179841#32 : Word) ≠ 0#32 := by decide

theorem witness_MapReportsTheMapping :
    State.reset.channels[(1#8 : ChannelId).toNat]? = some (Channel.free cfg1) ∧
      mapFrequency State.reset.clkHz cfg1 ⟨1#32, 1#32⟩ = .ok 8 1999999 ∧
      State.reset.channels.length ≤ (3#8 : ChannelId).toNat ∧
      mapFrequency State.reset.clkHz cfg1 ⟨0#32, 0#32⟩ = .reject .zeroOperand := by decide +kernel

/-- The operands of Scenario A, an explicit channel and an automatic one. -/
theorem witness_BindBindsAndArms :
    State.reset.channels.length ≤ 255 ∧
      bindsTo (withOperands State.reset 1#32 1#32 7#32 0#32 0#32) (.explicit 0#8) 0 (Channel.free cfg0) ∧
      bindsTo (withOperands State.reset 1#32 1#32 7#32 0#32 0#32) (.auto .bits8) 1 (Channel.free cfg1) ∧
      (withOperands State.reset 1#32 1#32 7#32 0#32 0#32).opc ≠ 0#32 ∧
      mapFrequency State.reset.clkHz cfg0 { num := 1#32, den := 1#32 } = .ok 1 15999999 ∧
      mapFrequency State.reset.clkHz cfg1 { num := 1#32, den := 1#32 } = .ok 8 1999999 := by
  refine ⟨by decide, ⟨rfl, rfl⟩, ⟨rfl, ⟨rfl, .inr (.inl ⟨rfl, rfl⟩)⟩, ?_⟩, by decide, by decide +kernel,
    by decide +kernel⟩
  intro j k' hj hk'
  obtain rfl : j = 0 := by omega
  obtain rfl : Channel.free cfg0 = k' := Option.some.inj hk'
  unfold freeOfKind
  decide

theorem witness_BindIntervalBindsAndArms :
    State.reset.channels.length ≤ 255 ∧
      bindsTo (withOperands State.reset 10#32 0#32 7#32 0#32 0#32) (.explicit 1#8) 1 (Channel.free cfg1) ∧
      (withOperands State.reset 10#32 0#32 7#32 0#32 0#32).opc ≠ 0#32 ∧
      mapFrequency State.reset.clkHz cfg1 { num := 1000#32, den := 10#32 } = .ok 1 159999 :=
  ⟨by decide, ⟨rfl, rfl⟩, by decide, by decide +kernel⟩

theorem witness_BindRejectionsInOrder :
    State.reset.channels.length ≤ (3#8 : ChannelId).toNat ∧ (∀ k ∈ fullState.channels, ¬ freeOfKind .any k) ∧
      bindsTo State.reset (.explicit 2#8) 2 (Channel.free cfg2) ∧ State.reset.opc = 0#32 ∧
      mapFrequency State.reset.clkHz cfg2 { num := 1#32, den := 1000#32 } = .reject .noFit ∧
      mapFrequency State.reset.clkHz cfg2 { num := 1000#32, den := 17179840#32 } = .reject .noFit := by
  refine ⟨by decide, ?_, ⟨rfl, rfl⟩, rfl, by decide +kernel, by decide +kernel⟩
  unfold freeOfKind
  decide

/-- A bound channel, for STOP and RESTART. -/
theorem witness_StopReleasesTheChannel :
    chainedState.channels[(1#8 : ChannelId).toNat]? = some chained ∧ chained.callback ≠ 0#32 := by decide

theorem witness_RestartArmsAgain :
    hertzState.channels[(0#8 : ChannelId).toNat]? = some hertz ∧ hertz.callback ≠ 0#32 ∧
      (true = true → hertz.freqDen ≠ 0#32) := by decide

/-- A running and a paused bound channel, for PAUSE and RESUME. -/
theorem witness_PauseGatesTheClock :
    hertzState.channels[(0#8 : ChannelId).toNat]? = some hertz ∧ hertz.callback ≠ 0#32 ∧ hertz.paused = false ∧
      (withChannel 0 { hertz with paused := true }).channels[(0#8 : ChannelId).toNat]? =
        some { hertz with paused := true } := by decide

theorem witness_ResumeUngatesTheClock :
    (withChannel 1 { chained with paused := true }).channels[(1#8 : ChannelId).toNat]? =
        some { chained with paused := true } ∧
      chained.callback ≠ 0#32 ∧ chainedState.channels[(1#8 : ChannelId).toNat]? = some chained ∧
      chained.paused = false := by decide

theorem witness_ChangeFrequencyArmsAgain :
    (withOperands hertzState 1000#32 1#32 0#32 0#32 0#32).channels[(0#8 : ChannelId).toNat]? = some hertz ∧
      hertz.callback ≠ 0#32 ∧
      mapFrequency hertzState.clkHz cfg0 { num := 1000#32, den := 1#32 } = .ok 1 15999 := by decide +kernel

theorem witness_ChangeIntervalArmsAgain :
    (withOperands chainedState 1000#32 0#32 0#32 0#32 0#32).channels[(1#8 : ChannelId).toNat]? = some chained ∧
      chained.callback ≠ 0#32 ∧
      mapFrequency chainedState.clkHz cfg1 { num := 1000#32, den := 1000#32 } = .ok 8 1999999 := by decide +kernel

theorem witness_BoundCommandFailures :
    Instr.changeInterval 3#8 ∈ boundCommandsOf 3#8 ∧ hertzState.channels.length ≤ (3#8 : ChannelId).toNat ∧
      (hertzState.channels[(2#8 : ChannelId).toNat]? = some (Channel.free cfg2) ∧
        (Channel.free cfg2).callback = 0#32) ∧
      hertzState.channels[(0#8 : ChannelId).toNat]? = some hertz ∧ hertz.callback ≠ 0#32 ∧
      mapFrequency hertzState.clkHz cfg0 { num := 1#32, den := 100000#32 } = .reject .belowGuard ∧
      mapFrequency hertzState.clkHz cfg0 { num := 1000#32, den := 17179841#32 } = .reject .belowGuard := by
  decide +kernel

theorem witness_DurationCountsWholePeriods : hertz.freqDen ≠ 0#32 ∧ (5000#32 : Word) ≠ 0#32 := by decide

theorem witness_PauseThenResume :
    (0#8 : ChannelId) ≠ 0xFF#8 ∧ hertzState.channels[(0#8 : ChannelId).toNat]? = some hertz ∧ hertz.callback ≠ 0#32 ∧
      hertz.paused = false ∧
      (scheduled hertzState [commandWrite 0x00000005#32, .elapse 0, .elapse 1, commandWrite 0x00000006#32]).schedule =
        commandWrite (encode (.pause 0#8)) ::
          ([0, 1].map Machine.Action.elapse ++ commandWrite (encode (.resume 0#8)) :: []) := by decide

/-- An enabled ELAPSE, one that is not (an event is pending), and an id that does not exist. -/
theorem witness_ElapseSetsPendingWhenEnabled :
    (scheduled hertzState [.elapse 0]).schedule = .elapse 0 :: [] ∧ hertzState.channels[0]? = some hertz ∧
      (hertz.callback ≠ 0#32 ∧ hertz.enabled = true ∧ hertz.paused = false ∧ hertz.pending = false) ∧
      (withChannel 1 complete).channels[1]? = some complete ∧ complete.pending = true ∧
      hertzState.channels.length ≤ 3 := by decide

theorem witness_TickIsTakenOnlyWhenEnabled :
    (scheduled hertzState [.tick 0]).schedule = .tick 0 :: [] ∧ hertzState.channels[0]? = some hertz ∧
      ¬ (hertz.pending = true ∧ hertz.enabled = true) ∧ hertzState.channels.length ≤ 3 := by decide

theorem witness_TickInsideAPeriod :
    (scheduled (withChannel 1 { chained with pending := true }) [.tick 1]).schedule = .tick 1 :: [] ∧
      (withChannel 1 { chained with pending := true }).channels[1]? = some { chained with pending := true } ∧
      chained.enabled = true ∧ chained.repeats ≠ 0#32 ∧ chained.done = false := by decide

/-- The edges of the two ranges of the count: 2, and -1 and -2^31. -/
theorem witness_TickEndsAPeriodAndReloads :
    (scheduled (withChannel 1 complete) [.tick 1]).schedule = .tick 1 :: [] ∧
      (withChannel 1 complete).channels[1]? = some complete ∧ complete.pending = true ∧ complete.enabled = true ∧
      complete.done = true ∧ 1 < complete.repeats.toInt ∧ (0xFFFFFFFF#32 : Word).toInt < 0 ∧
      (0x80000000#32 : Word).toInt < 0 := by decide

theorem witness_TickReleasesAnExhaustedChannel :
    (scheduled (withChannel 1 { complete with repeats := 0#32 }) [.tick 1]).schedule = .tick 1 :: [] ∧
      (withChannel 1 { complete with repeats := 0#32 }).channels[1]? = some { complete with repeats := 0#32 } ∧
      (withChannel 1 { complete with repeats := 1#32 }).channels[1]? = some { complete with repeats := 1#32 } ∧
      complete.pending = true ∧ complete.enabled = true ∧ complete.done = true := by decide

theorem witness_CallbackOnlyAtTheEndOfAPeriod :
    ∃ t, step (scheduled (withChannel 1 complete) [.tick 1]) = .next t ∧
      decide (callbacksOf 1 (scheduled (withChannel 1 complete) [.tick 1]).history < callbacksOf 1 t.history) = true :=
  goesOn_next (by decide +kernel)

/-- A period of exactly one chunk. -/
theorem witness_ShortPeriodsAreOneChunk :
    ({ complete with fullTicks := 255#32 } : Channel).fullTicks.toNat ≤ Channel.cm complete ∧ complete.done = true ∧
      complete.repeats ≠ 0#32 ∧ complete.repeats ≠ 1#32 := by decide

theorem witness_CadenceAndTickConservation :
    chainedState.channels[1]? = some chained ∧ chained.callback ≠ 0#32 ∧ chained.enabled = true ∧
      chained.paused = false ∧ chained.pending = false ∧ chained.repeats ≠ 0#32 ∧ chained = chained.opened ∧
      (scheduled chainedState (serviceRounds 1 3)).schedule = serviceRounds 1 chained.ticksPerPeriod ++ [] := by
  decide +kernel

theorem witness_FiniteChannel :
    chainedState.channels[1]? = some chained ∧ chained.callback ≠ 0#32 ∧ chained.enabled = true ∧
      chained.paused = false ∧ chained.pending = false ∧ chained = chained.opened ∧ 1 ≤ 2 ∧ 2 < 2 ^ 31 ∧
      chained.repeats = BitVec.ofNat 32 2 ∧
      (scheduled chainedState (serviceRounds 1 6)).schedule =
        serviceRounds 1 (2 * chained.ticksPerPeriod) ++ [] := by decide +kernel

theorem witness_ForeverChannelNeverStops :
    (withChannel 0 kilohertz).channels[0]? = some kilohertz ∧ kilohertz.callback ≠ 0#32 ∧ kilohertz.enabled = true ∧
      kilohertz.paused = false ∧ kilohertz.pending = false ∧ kilohertz = kilohertz.opened ∧
      kilohertz.repeats.toInt < 0 ∧
      (scheduled (withChannel 0 kilohertz) (serviceRounds 0 2)).schedule =
        serviceRounds 0 (2 * kilohertz.ticksPerPeriod) ++ [] := by decide +kernel

theorem witness_PausedChannel :
    (withChannel 0 { kilohertzPending with paused := true }).channels[0]? =
        some { kilohertzPending with paused := true } ∧
      (∀ a ∈ [Machine.Action.tick 0], a.isTimerStep = true) ∧
      ∃ t, core.run 1 (scheduled (withChannel 0 { kilohertzPending with paused := true }) [.tick 0]) = .next t ∧
        decide (callbacksOf 0 t.history = 1) = true :=
  ⟨by decide, by decide, goesOn_next (r := core.run 1 _) (by decide +kernel)⟩

theorem witness_FreeChannelStaysQuiet :
    State.reset.channels[2]? = some (Channel.free cfg2) ∧
      (∀ a ∈ [Machine.Action.tick 2, .elapse 2], a.isTimerStep = true) ∧
      ∃ t, core.run 2 (scheduled State.reset [.tick 2, .elapse 2]) = .next t :=
  ⟨by decide, by decide, goesOn_any (r := core.run 2 _) (by decide +kernel)⟩

theorem witness_ResetBlockWaitsForTheHost :
    ∀ a ∈ [Machine.Action.tick 2, .elapse 255], a.isTimerStep = true := by decide

theorem witness_TicksOfTwoChannelsCommute : (0 : Nat) ≠ 1 := by decide

theorem witness_ExhaustedIsToldApart :
    (withChannel 1 { complete with repeats := 1#32 }).channels[(1#8 : ChannelId).toNat]? =
        some { complete with repeats := 1#32 } ∧
      complete.callback ≠ 0#32 ∧ complete.pending = true ∧ complete.enabled = true ∧ complete.done = true ∧
      (scheduled chainedState [commandWrite 0x00000104#32]).schedule = commandWrite (encode (.stop 1#8)) :: [] ∧
      (1#8 : ChannelId) ≠ 0xFF#8 := by decide

theorem witness_StopAfterTheLastCallback :
    (withChannel 1 { complete with repeats := 1#32 }).channels[(1#8 : ChannelId).toNat]? =
        some { complete with repeats := 1#32 } ∧
      (1#8 : ChannelId) ≠ 0xFF#8 ∧ complete.pending = true ∧ complete.enabled = true ∧ complete.done = true ∧
      (scheduled chainedState [.tick 1, commandWrite 0x00000104#32]).schedule =
        .tick (1#8 : ChannelId).toNat :: commandWrite (encode (.stop 1#8)) :: [] := by decide

/-- A schedule of two channels' steps, some of them not enabled. -/
theorem witness_CallbackEveryNthTick :
    chainedState.channels[1]? = some chained ∧ chained.repeats ≠ 0#32 ∧ chained = chained.opened ∧
      ∀ a ∈ (scheduled chainedState [.tick 1, .elapse 1, .elapse 0, .tick 1]).schedule, a.isTimerStep = true := by
  decide +kernel

/-- The premises on the channel, for the counts -1, 0 and 2; a fair behaviour from any state is
`exists_fair_behaviour`. -/
theorem witness_FairChannel :
    ∀ k ∈ [kilohertz, { kilohertz with repeats := 0#32 }, { kilohertz with repeats := 2#32 }],
      (∃ states acts, IsBehaviour states acts ∧ WeaklyFair states acts ∧ (∀ n, (acts n).isQuiet = true) ∧
        (states 0).channels[0]? = some k) ∧
      k.callback ≠ 0#32 ∧ k.boundInv ∧ k.paused = false := by
  intro k hk
  refine ⟨?_, ?_⟩
  · obtain ⟨states, acts, h0, hb, hf, hq⟩ := exists_fair_behaviour (withChannel 0 k)
    exact ⟨states, acts, hb, hf, hq, by rw [h0]; rfl⟩
  · revert k
    decide

theorem witness_FairChannel_counts :
    kilohertz.repeats.toInt < 0 ∧ (0 : Int) ≤ (0#32 : Word).toInt ∧ (0 : Int) ≤ (2#32 : Word).toInt := by decide

end Sys2Proof.Tests
end

/-! # What one step does to the clock, the channels and the history

A step that is no reset keeps `CLK_HZ`, appends to the history, and either leaves every channel or makes one of the
changes of `ChannelChange` to one of them. Statements about every step of every agent follow from what each of these
changes keeps. -/

namespace Sys2Proof.Machine

/-! ## The changes of a channel -/

/-- What a step can make of the channel it acts on, under the clock `clkHz`: the peripheral's ELAPSE, the dispatcher's
TICK, or the procedure of a command that succeeds. -/
inductive ChannelChange (clkHz : Nat) (k : Channel) : Channel → Prop
  | elapse (h : k.elapseEnabled = true) : ChannelChange clkHz k k.elapse
  | tick (h : k.tickEnabled = true) : ChannelChange clkHz k k.tick.chan
  | command {i : Instr} {s t : State} {c div ticks : Nat} (hclk : s.clkHz = clkHz)
      (h : Succeeds i s t c k div ticks) : ChannelChange clkHz k (commandRun i s k div ticks).chan

/-- No change of a channel touches its parameters (10_state.md R37). -/
theorem ChannelChange.cfg_eq {clkHz : Nat} {k k' : Channel} (h : ChannelChange clkHz k k') : k'.cfg = k.cfg := by
  cases h with
  | elapse _ => rfl
  | tick _ => exact tick_cfg k
  | command _ _ => exact commandRun_cfg ..

/-! ## The effect of a step that is no reset -/

/-- How a step that is no reset takes `s` to `t`, on the fields the invariants of 10_state.md R39 and the history speak
of. -/
structure StepEffect (s t : State) : Prop where
  clkHz : t.clkHz = s.clkHz
  history : ∃ es, t.history = s.history ++ es
  channels : t.channels = s.channels ∨
    ∃ c k k', s.channels[c]? = some k ∧ ChannelChange s.clkHz k k' ∧ t.channels = s.channels.set c k'

/-- A change of the registers alone. -/
theorem StepEffect.of_eq {s t : State} (hclk : t.clkHz = s.clkHz) (hhist : t.history = s.history)
    (hchan : t.channels = s.channels) : StepEffect s t :=
  ⟨hclk, ⟨[], by rw [hhist, List.append_nil]⟩, .inl hchan⟩

/-- The effect may be counted from any state with the same clock, history and channels. -/
theorem StepEffect.of_start_eq {s s' t : State} (h : StepEffect s' t) (hclk : s'.clkHz = s.clkHz)
    (hhist : s'.history = s.history) (hchan : s'.channels = s.channels) : StepEffect s t := by
  obtain ⟨h1, h2, h3⟩ := h
  rw [hclk] at h1 h3
  rw [hhist] at h2
  rw [hchan] at h3
  exact ⟨h1, h2, h3⟩

/-- A channel's run put back into the state. -/
theorem StepEffect.of_applyRun {s : State} {c : Nat} {k : Channel} {r : ChannelRun} (hk : s.channels[c]? = some k)
    (hr : ChannelChange s.clkHz k r.chan) : StepEffect s (s.applyRun c r) :=
  ⟨rfl, ⟨_, rfl⟩, .inr ⟨c, k, r.chan, hk, hr, rfl⟩⟩

theorem StepEffect.emitDone {s t : State} (h : StepEffect s t) (w : Word) : StepEffect s (t.emitDone w) := by
  obtain ⟨es, hes⟩ := h.history
  exact ⟨h.clkHz, ⟨es ++ [.done w t.result], by simp [hes]⟩, h.channels⟩

theorem Succeeds.clkHz {i : Instr} {s t : State} {c : Nat} {k : Channel} {div ticks : Nat}
    (h : Succeeds i s t c k div ticks) : t.clkHz = s.clkHz := by
  rw [h.after]
  cases mapsFrequency i <;> rfl

theorem exec_effect {i : Instr} {s t : State} (h : exec i s = .next t) : StepEffect s t := by
  rcases exec_cases h with ⟨e, rfl⟩ | ⟨c, k, div, ticks, hs⟩
  · exact .of_eq rfl rfl rfl
  · exact ⟨hs.clkHz, ⟨_, hs.history⟩, .inr ⟨c, k, _, hs.found, .command rfl hs, hs.channels⟩⟩

theorem writeCommand_effect {w : Word} {s t : State} (h : writeCommand w s = .next t) : StepEffect s t := by
  obtain ⟨u, rfl, hu⟩ := writeCommand_cases h
  apply StepEffect.emitDone
  rcases hu with ⟨_, rfl⟩ | ⟨i, _, hi⟩
  · exact .of_eq rfl rfl rfl
  · exact (exec_effect hi).of_start_eq rfl rfl rfl

theorem writeWindow_effect {off : Nat} {v : Word} {s t : State} (h : writeWindow off v s = .next t) :
    StepEffect s t := by
  rcases writeWindow_cases h with rfl | rfl | rfl | rfl | rfl | rfl | hw
  on_goal 7 => exact writeCommand_effect hw
  all_goals exact .of_eq rfl rfl rfl

theorem elapseStep_effect (c : Nat) (s : State) : StepEffect s (elapseStep c s) := by
  rcases elapseStep_cases c s with he | ⟨k, hk, hen, he⟩ <;> rw [he]
  · exact .of_eq rfl rfl rfl
  · exact .of_applyRun hk (.elapse hen)

theorem tickStep_effect (c : Nat) (s : State) : StepEffect s (tickStep c s) := by
  rcases tickStep_cases c s with he | ⟨k, hk, hen, he⟩ <;> rw [he]
  · exact .of_eq rfl rfl rfl
  · exact .of_applyRun hk (.tick hen)

/-- A step is a reset of the block or has a `StepEffect`. -/
theorem step_reset_or_effect {s t : State} (h : step s = .next t) :
    (∃ rest, s.schedule = .reset :: rest ∧ t = resetBlock { s with schedule := rest }) ∨ StepEffect s t := by
  rcases step_cases h with ⟨_, rfl⟩ | ⟨a, rest, hs, ha⟩
  · exact .inr (.of_eq rfl rfl rfl)
  · rcases ha with ⟨off, v, _, rfl⟩ | ⟨off, v, _, _, hw⟩ | ⟨c, _, rfl⟩ | ⟨c, _, rfl⟩ | ⟨rfl, rfl⟩
    · exact .inr (.of_eq rfl rfl rfl)
    · exact .inr ((writeWindow_effect hw).of_start_eq rfl rfl rfl)
    · exact .inr ((elapseStep_effect c _).of_start_eq rfl rfl rfl)
    · exact .inr ((tickStep_effect c _).of_start_eq rfl rfl rfl)
    · exact .inl ⟨rest, hs, rfl⟩

/-- Settles O23: outside a reset the history grows at its end, by `StepEffect.history`. -/
theorem historyOnlyGrows : Obligations.HistoryOnlyGrows := by
  intro s t h
  rcases step_reset_or_effect h with ⟨rest, hs, rfl⟩ | heff
  · exact .inl ⟨rest, hs, rfl⟩
  · exact .inr heff.history

/-! ## The channel invariant (10_state.md R39) -/

theorem Channel.inv_free (cfg : ChannelParams) : (Channel.free cfg).Inv :=
  ⟨fun h => absurd rfl h, fun _ => rfl⟩

theorem Channel.inv_of_bound {k : Channel} (hb : k.callback ≠ 0#32) (h : k.boundInv) : k.Inv :=
  ⟨fun _ => h, fun h0 => absurd h0 hb⟩

/-- ARM establishes what R39 says of the period's progress, whatever the fields it overwrites held: a chunk within the
counter, no more than `FULLTICKS` left, `DONE` exactly when nothing is left (41_interval_runner.md R141, R142). -/
theorem Channel.armed_boundInv {k : Channel} (hdiv : k.divider.toNat ∈ k.cfg.divs) (hnum : k.freqNum ≠ 0#32)
    (hden : k.freqDen ≠ 0#32) (harg : k.hasArg = false → k.arg = 0#32) : k.armed.boundInv := by
  have hleft : k.armed.remaining.toNat = k.fullTicks.toNat - k.firstChunk := by
    have := k.fullTicks.isLt
    exact Nat.mod_eq_of_lt (by omega)
  have hcmp : k.armed.cmp.toNat = k.firstChunk :=
    Nat.mod_eq_of_lt ((firstChunk_le k).trans_lt (counterMax_lt _))
  have hdone : k.armed.done = true ↔ k.armed.remaining = 0#32 := by
    rw [← BitVec.toNat_inj, hleft]
    simp only [Channel.armed, Channel.opened, Channel.firstChunk, BitVec.toNat_ofNat, Nat.zero_mod, decide_eq_true_eq]
    omega
  refine ⟨rfl, hdiv, ?_, ?_, hnum, hden, hdone, harg⟩
  · rw [hleft]
    exact Nat.sub_le _ _
  · rw [hcmp]
    exact firstChunk_le k

/-- Arming a bound channel again, with any repeat count, keeps the invariant: RESTART and TICK's reload. -/
theorem Channel.rearmed_boundInv {k : Channel} (h : k.boundInv) (repeats : Word) :
    ({ k with repeats := repeats } : Channel).armed.boundInv := by
  obtain ⟨_, hdiv, _, _, hnum, hden, _, harg⟩ := h
  exact Channel.armed_boundInv hdiv hnum hden harg

/-- A mapping that succeeds supplies the divider and the frequency R39 asks for; arming does the rest
(42_host_commands.md R182, R200). -/
theorem Channel.mapped_armed_boundInv {k : Channel} {clkHz : Nat} {f : Freq} {div ticks : Nat} (hp : k.cfg.valid)
    (hm : mapFrequency clkHz k.cfg f = .ok div ticks) (hdiv : k.divider = BitVec.ofNat 32 div)
    (hnum : k.freqNum = f.num) (hden : k.freqDen = f.den) (harg : k.hasArg = false → k.arg = 0#32) :
    k.armed.boundInv := by
  obtain ⟨hn, hd, hmem, hle, _, _⟩ := mapFrequency_fits hp hm
  refine Channel.armed_boundInv ?_ (hnum ▸ hn) (hden ▸ hd) harg
  rwa [hdiv, BitVec.toNat_ofNat, Nat.mod_eq_of_lt (by omega)]

/-- BIND leaves a bound channel with the invariant, whatever the channel held (42_host_commands.md R182, R184). -/
theorem bindRun_inv {k : Channel} {s : State} {a r : Bool} {f : Freq} {div ticks : Nat} (hp : k.cfg.valid)
    (hopc : s.opc ≠ 0#32) (hm : mapFrequency s.clkHz k.cfg f = .ok div ticks) :
    (bindRun k a r f div ticks s).chan.Inv := by
  rw [bindRun, arm_eq, ungateIfPaused_eq]
  refine Channel.inv_of_bound hopc (Channel.mapped_armed_boundInv hp hm rfl rfl rfl ?_)
  rintro rfl
  rfl

theorem changeRun_inv {k : Channel} {clkHz : Nat} {f : Freq} {div ticks : Nat} (hp : k.cfg.valid) (hk : k.boundInv)
    (hb : k.callback ≠ 0#32) (hm : mapFrequency clkHz k.cfg f = .ok div ticks) :
    (changeRun k f div ticks).chan.Inv := by
  obtain ⟨_, _, _, _, _, _, _, harg⟩ := hk
  rw [changeRun, arm_eq]
  exact Channel.inv_of_bound hb (Channel.mapped_armed_boundInv hp hm rfl rfl rfl harg)

/-- Every command that succeeds leaves its channel with the invariant. -/
theorem commandRun_inv {i : Instr} {s t : State} {c : Nat} {k : Channel} {div ticks : Nat} (hp : k.cfg.valid)
    (hk : k.Inv) (h : Succeeds i s t c k div ticks) : (commandRun i s k div ticks).chan.Inv := by
  cases i with
  | map ch => exact hk
  | bind target a r => exact bindRun_inv hp (h.handle rfl) (h.mapped rfl)
  | bindInterval target a r => exact bindRun_inv hp (h.handle rfl) (h.mapped rfl)
  | stop ch =>
    rw [commandRun, release_eq]
    exact Channel.inv_free _
  | pause ch =>
    rw [commandRun, gateIfRunning_eq]
    exact Channel.inv_of_bound (h.bound rfl) (hk.1 (h.bound rfl))
  | resume ch =>
    rw [commandRun, ungateIfPaused_eq]
    exact Channel.inv_of_bound (h.bound rfl) (hk.1 (h.bound rfl))
  | restart ch d =>
    rw [commandRun, arm_eq]
    exact Channel.inv_of_bound (h.bound rfl) (Channel.rearmed_boundInv (hk.1 (h.bound rfl)) _)
  | changeFrequency ch => exact changeRun_inv hp (hk.1 (h.bound rfl)) (h.bound rfl) (h.mapped rfl)
  | changeInterval ch => exact changeRun_inv hp (hk.1 (h.bound rfl)) (h.bound rfl) (h.mapped rfl)

/-- Inside a period TICK programs and deducts a chunk of what is left (41_interval_runner.md R151). -/
theorem tick_intermediate_boundInv {k : Channel} (h : k.boundInv) (hr : k.repeats ≠ 0#32) (hd : k.done = false) :
    k.tick.chan.boundInv := by
  obtain ⟨_, hdiv, hrem, _, hnum, hden, _, harg⟩ := h
  rw [tick_intermediate k hr hd]
  refine ⟨rfl, hdiv, ?_, ?_, hnum, hden, doneFlag_eq_true_iff _, harg⟩
  · dsimp only
    rw [ticksAfter_toNat]
    exact (Nat.sub_le _ _).trans hrem
  · dsimp only
    rw [chunk_toNat]
    exact Nat.min_le_left _ _

/-- TICK keeps a bound channel's invariant, along its four ways (41_interval_runner.md R157). -/
theorem tick_inv {k : Channel} (hb : k.callback ≠ 0#32) (h : k.boundInv) : k.tick.chan.Inv := by
  by_cases h0 : k.repeats = 0#32
  · rw [tick_exhausted k h0]
    exact Channel.inv_free _
  cases hd : k.done with
  | false =>
    refine Channel.inv_of_bound ?_ (tick_intermediate_boundInv h h0 hd)
    rwa [tick_intermediate k h0 hd]
  | true =>
    by_cases h1 : k.repeats = 1#32
    · rw [tick_last k h1 hd]
      exact Channel.inv_free _
    · rw [tick_reload k h0 h1 hd]
      exact Channel.inv_of_bound hb (Channel.rearmed_boundInv h _)

/-- A free channel's interrupt is disabled, so a channel whose interrupt is enabled is bound (10_state.md R39(c)). -/
theorem Channel.Inv.bound_of_enabled {k : Channel} (hk : k.Inv) (he : k.enabled = true) : k.callback ≠ 0#32 := by
  intro h0
  rw [hk.2 h0] at he
  cases he

theorem ChannelChange.inv {clkHz : Nat} {k k' : Channel} (h : ChannelChange clkHz k k') (hp : k.cfg.valid)
    (hk : k.Inv) : k'.Inv := by
  cases h with
  | elapse he =>
    simp only [Channel.elapseEnabled, Bool.and_eq_true] at he
    obtain ⟨⟨⟨_, hen⟩, _⟩, _⟩ := he
    have hb := hk.bound_of_enabled hen
    exact Channel.inv_of_bound hb (hk.1 hb)
  | tick he =>
    simp only [Channel.tickEnabled, Bool.and_eq_true] at he
    obtain ⟨_, hen⟩ := he
    have hb := hk.bound_of_enabled hen
    exact tick_inv hb (hk.1 hb)
  | command _ hs => exact commandRun_inv hp hk hs

/-! ## The invariant of the state -/

theorem StepEffect.params_eq {s t : State} (h : StepEffect s t) : t.params = s.params := by
  rcases h.channels with hc | ⟨c, k, k', hk, hchange, hc⟩
  · simp only [State.params, h.clkHz, hc]
  · obtain ⟨hlt, rfl⟩ := List.getElem?_eq_some_iff.mp hk
    have hsame : k'.cfg = (s.channels.map Channel.cfg)[c]'(by simpa using hlt) := by
      rw [List.getElem_map, hchange.cfg_eq]
    simp only [State.params, h.clkHz, hc, List.map_set, hsame, List.set_getElem_self]

/-- Under valid parameters each channel's are valid (00_scope.md R7). -/
theorem State.cfg_valid {s : State} (h : s.params.valid) {k : Channel} (hk : k ∈ s.channels) : k.cfg.valid :=
  h.2.2 _ (List.mem_map_of_mem hk)

theorem StepEffect.inv {s t : State} (h : StepEffect s t) (hs : s.Inv) : t.Inv := by
  obtain ⟨hvalid, hinv⟩ := hs
  refine ⟨h.params_eq.symm ▸ hvalid, ?_⟩
  rcases h.channels with hc | ⟨c, k, k', hk, hchange, hc⟩ <;> rw [hc]
  · exact hinv
  · intro x hx
    rcases List.mem_or_eq_of_mem_set hx with hold | rfl
    · exact hinv x hold
    · have hmem := List.mem_of_getElem? hk
      exact hchange.inv (State.cfg_valid hvalid hmem) (hinv k hmem)

theorem resetBlock_params (s : State) : (resetBlock s).params = s.params := by
  simp only [resetBlock, State.resetWith, State.params, List.map_map]
  rfl

/-- A reset frees every channel and keeps the parameters (10_state.md R42). -/
theorem resetBlock_inv {s : State} (hs : s.params.valid) : (resetBlock s).Inv := by
  refine ⟨(resetBlock_params s).symm ▸ hs, ?_⟩
  intro k hk
  obtain ⟨cfg, _, rfl⟩ := List.mem_map.mp hk
  exact Channel.inv_free cfg

/-- Settles O18: a reset frees every channel, and each change any other step can make to a channel keeps its
invariant. -/
theorem everyStepKeepsTheChannelInvariant : Obligations.EveryStepKeepsTheChannelInvariant := by
  intro s t hs h
  rcases step_reset_or_effect h with ⟨rest, _, rfl⟩ | heff
  · exact resetBlock_inv hs.1
  · exact heff.inv hs

end Sys2Proof.Machine

/-! # The image of a channel and its port actions (10_state.md R34)

`ENABLED` and `PAUSED` change by port actions alone, and each port action leaves its event. So whatever a procedure of a
channel does, replaying what it emitted gives the two bits it leaves. -/

namespace Sys2Proof.Machine

/-! ## Replaying a list of events -/

/-- The events `es`, replayed for channel id `c` from the image of `k`, give the image of `k'`. -/
def ImageAfter (c : Nat) (es : List Event) (k k' : Channel) : Prop :=
  k'.enabled = es.foldl (replayEnabled c) k.enabled ∧ k'.paused = es.foldl (replayPaused c) k.paused

/-- The image agrees with the history when each channel's is what the history makes of a free channel's. -/
theorem State.imageInv_iff (s : State) :
    s.ImageInv ↔ ∀ c k, s.channels[c]? = some k → ImageAfter c s.history (Channel.free k.cfg) k :=
  Iff.rfl

theorem ImageAfter.of_image_eq {c : Nat} {k k' : Channel} (he : k'.enabled = k.enabled) (hp : k'.paused = k.paused) :
    ImageAfter c [] k k' :=
  ⟨he, hp⟩

theorem ImageAfter.append {c : Nat} {es es' : List Event} {k k' k'' : Channel} (h : ImageAfter c es k k')
    (h' : ImageAfter c es' k' k'') : ImageAfter c (es ++ es') k k'' := by
  obtain ⟨he, hp⟩ := h
  obtain ⟨he', hp'⟩ := h'
  constructor
  · rw [List.foldl_append, ← he, he']
  · rw [List.foldl_append, ← hp, hp']

/-- The event of a port action records the action's effect on the image. -/
theorem imageAfter_port (c : Nat) (op : PortOp) (k : Channel) :
    ImageAfter c [.channel c (.port op)] k (op.apply k) := by
  cases op <;> simp [ImageAfter, replayEnabled, replayPaused]

/-- A callback event is no port action. -/
theorem imageAfter_callback (c : Nat) (handle arg : Word) (hasArg : Bool) (k : Channel) :
    ImageAfter c [.channel c (.callback handle hasArg arg)] k k :=
  ⟨rfl, rfl⟩

/-- A command completion is no port action. -/
theorem imageAfter_done (c : Nat) (w result : Word) (k : Channel) : ImageAfter c [.done w result] k k :=
  ⟨rfl, rfl⟩

theorem replay_other {c d : Nat} (hd : d ≠ c) (x : Emission) (b : Bool) :
    replayEnabled c b (.channel d x) = b ∧ replayPaused c b (.channel d x) = b := by
  cases x with
  | callback _ _ _ => exact ⟨rfl, rfl⟩
  | port op => cases op <;> simp [replayEnabled, replayPaused, hd]

/-- The events of another channel say nothing of this one. -/
theorem imageAfter_other {c d : Nat} (hd : d ≠ c) (es : List Emission) (k : Channel) :
    ImageAfter c (es.map (Event.channel d)) k k := by
  induction es with
  | nil => exact ⟨rfl, rfl⟩
  | cons x es ih =>
    have hx : ImageAfter c [.channel d x] k k := ⟨(replay_other hd x _).1.symm, (replay_other hd x _).2.symm⟩
    exact hx.append ih

/-! ## The procedures of a channel -/

/-- A run that began on `k` has reached the image that its emissions make of `k`'s, under any channel id. -/
def ChannelRun.Follows (r : ChannelRun) (k : Channel) : Prop :=
  ∀ c, ImageAfter c (r.events.map (Event.channel c)) k r.chan

namespace ChannelRun.Follows

variable {r : ChannelRun} {k : Channel}

theorem start {k' : Channel} (he : k'.enabled = k.enabled) (hp : k'.paused = k.paused) :
    (ChannelRun.start k').Follows k :=
  fun _ => .of_image_eq he hp

/-- A write that leaves `ENABLED` and `PAUSED` needs no event. -/
theorem write (h : r.Follows k) {k' : Channel} (he : k'.enabled = r.chan.enabled) (hp : k'.paused = r.chan.paused) :
    (r.write k').Follows k := by
  intro c
  simpa using (h c).append (.of_image_eq he hp)

theorem port (h : r.Follows k) {op : PortOp} : (r.port op).Follows k := by
  intro c
  simpa using (h c).append (imageAfter_port c op r.chan)

theorem callback (h : r.Follows k) : r.callback.Follows k := by
  intro c
  simpa using (h c).append (imageAfter_callback c _ _ _ r.chan)

theorem ungateIfPaused (h : r.Follows k) : r.ungateIfPaused.Follows k := by
  unfold ChannelRun.ungateIfPaused
  cases r.chan.paused with
  | true => exact h.port
  | false => exact h

theorem gateIfRunning (h : r.Follows k) : r.gateIfRunning.Follows k := by
  unfold ChannelRun.gateIfRunning
  cases r.chan.paused with
  | true => exact h
  | false => exact h.port

theorem arm (h : r.Follows k) : r.arm.Follows k := by
  dsimp only [ChannelRun.arm]
  refine .port (.port (.port (.write h ?_ ?_))) <;> rfl

theorem armNext (h : r.Follows k) (ticks : Word) : (r.armNext ticks).Follows k := by
  dsimp only [ChannelRun.armNext]
  refine .port (.port (.write h ?_ ?_)) <;> rfl

theorem release (h : r.Follows k) : r.release.Follows k :=
  h.port.port.ungateIfPaused.write rfl rfl

theorem endPeriod (h : r.Follows k) : r.endPeriod.Follows k := by
  have h' : (r.callback.write r.chan.decrementRepeats).Follows k := h.callback.write rfl rfl
  unfold ChannelRun.endPeriod
  dsimp only
  cases (r.callback.write r.chan.decrementRepeats).chan.exhausted with
  | true => exact h'.release
  | false => exact h'.armNext _

end ChannelRun.Follows

theorem elapse_follows (k : Channel) : (ChannelRun.start k.elapse).Follows k := .start rfl rfl

theorem tick_follows (k : Channel) : k.tick.Follows k := by
  have h : (ChannelRun.start k.takeEvent).Follows k := .start rfl rfl
  unfold Channel.tick
  cases k.exhausted with
  | true => exact h.release
  | false =>
    cases k.done with
    | true => exact h.endPeriod
    | false => exact h.armNext _

theorem bindRun_follows (k : Channel) (a r : Bool) (f : Freq) (div ticks : Nat) (s : State) :
    (bindRun k a r f div ticks s).Follows k :=
  .arm (.write (.ungateIfPaused (.start rfl rfl)) rfl rfl)

theorem changeRun_follows (k : Channel) (f : Freq) (div ticks : Nat) : (changeRun k f div ticks).Follows k :=
  .arm (.start rfl rfl)

/-- No command changes the image of its channel but by port actions. -/
theorem commandRun_follows (i : Instr) (s : State) (k : Channel) (div ticks : Nat) :
    (commandRun i s k div ticks).Follows k := by
  cases i with
  | map _ => exact .start rfl rfl
  | bind _ _ _ => exact bindRun_follows _ _ _ _ _ _ _
  | bindInterval _ _ _ => exact bindRun_follows _ _ _ _ _ _ _
  | stop _ => exact ChannelRun.Follows.release (.start rfl rfl)
  | pause _ => exact ChannelRun.Follows.gateIfRunning (.start rfl rfl)
  | resume _ => exact ChannelRun.Follows.ungateIfPaused (.start rfl rfl)
  | restart _ _ => exact ChannelRun.Follows.arm (.start rfl rfl)
  | changeFrequency _ => exact changeRun_follows _ _ _ _
  | changeInterval _ => exact changeRun_follows _ _ _ _

/-! ## Properties that every step keeps -/

/-- A property of states that each part of a step keeps: a change of the registers and records it does not speak of, the
two timer steps when they are enabled, a command's meaning, the report of an illegal word, the completion event, and a
reset. -/
structure StepClosed (P : State → Prop) : Prop where
  frame {s t : State} : P s → t.channels = s.channels → t.history = s.history → t.result = s.result → P t
  elapse {s : State} {c : Nat} {k : Channel} :
    P s → s.channels[c]? = some k → P (s.applyRun c (ChannelRun.start k.elapse))
  tick {s : State} {c : Nat} {k : Channel} : P s → s.channels[c]? = some k → P (s.applyRun c k.tick)
  exec {i : Instr} {s t : State} : P s → exec i s = .next t → P t
  illegal {s : State} : P s → P (s.raise .illegalCommand)
  done {s : State} (w : Word) : P s → P (s.emitDone w)
  reset {s : State} : P s → P (resetBlock s)

namespace StepClosed

variable {P : State → Prop}

theorem writeCommand (hP : StepClosed P) {w : Word} {s t : State} (hs : P s) (h : writeCommand w s = .next t) :
    P t := by
  obtain ⟨u, rfl, hu⟩ := writeCommand_cases h
  have hcmd : P { s with cmd := w } := hP.frame hs rfl rfl rfl
  rcases hu with ⟨_, rfl⟩ | ⟨i, _, hi⟩
  · exact hP.done w (hP.illegal hcmd)
  · exact hP.done w (hP.exec hcmd hi)

theorem writeWindow (hP : StepClosed P) {off : Nat} {v : Word} {s t : State} (hs : P s)
    (h : writeWindow off v s = .next t) : P t := by
  rcases writeWindow_cases h with rfl | rfl | rfl | rfl | rfl | rfl | hw
  on_goal 7 => exact hP.writeCommand hs hw
  all_goals exact hP.frame hs rfl rfl rfl

theorem elapseStep (hP : StepClosed P) {s : State} (hs : P s) (c : Nat) : P (elapseStep c s) := by
  rcases elapseStep_cases c s with he | ⟨k, hk, _, he⟩ <;> rw [he]
  · exact hs
  · exact hP.elapse hs hk

theorem tickStep (hP : StepClosed P) {s : State} (hs : P s) (c : Nat) : P (tickStep c s) := by
  rcases tickStep_cases c s with he | ⟨k, hk, _, he⟩ <;> rw [he]
  · exact hs
  · exact hP.tick hs hk

/-- A property that each part of a step keeps is kept by every step of every agent. -/
theorem step (hP : StepClosed P) {s t : State} (hs : P s) (h : step s = .next t) : P t := by
  rcases step_cases h with ⟨_, rfl⟩ | ⟨a, rest, _, ha⟩
  · exact hs
  · have hrest : P { s with schedule := rest } := hP.frame hs rfl rfl rfl
    rcases ha with ⟨off, v, _, rfl⟩ | ⟨off, v, _, _, hw⟩ | ⟨c, _, rfl⟩ | ⟨c, _, rfl⟩ | ⟨_, rfl⟩
    · exact hP.frame hs rfl rfl rfl
    · exact hP.writeWindow hrest hw
    · exact hP.elapseStep hrest c
    · exact hP.tickStep hrest c
    · exact hP.reset hrest

end StepClosed

/-! ## The image of every channel -/

/-- A channel put back with the emissions of its run: the run's own channel follows them, and they say nothing of the
others. -/
theorem State.ImageInv.set {s t : State} {c : Nat} {k : Channel} {r : ChannelRun} (hs : s.ImageInv)
    (hk : s.channels[c]? = some k) (hr : r.Follows k) (hchan : t.channels = s.channels.set c r.chan)
    (hhist : t.history = s.history ++ r.events.map (Event.channel c)) : t.ImageInv := by
  rw [State.imageInv_iff] at hs ⊢
  intro c' k' hk'
  rw [hchan] at hk'
  rw [hhist]
  by_cases hc : c = c'
  · subst hc
    rw [List.getElem?_set_self (List.getElem?_eq_some_iff.mp hk).1] at hk'
    obtain rfl := Option.some.inj hk'
    exact (hs c k hk).append (hr c)
  · rw [List.getElem?_set_ne hc] at hk'
    exact (hs c' k' hk').append (imageAfter_other hc _ _)

theorem State.ImageInv.exec {i : Instr} {s t : State} (hs : s.ImageInv) (h : exec i s = .next t) : t.ImageInv := by
  rcases exec_cases h with ⟨e, rfl⟩ | ⟨c, k, div, ticks, hok⟩
  · exact hs
  · exact hs.set hok.found (commandRun_follows _ _ _ _ _) hok.channels hok.history

/-- A reset leaves an empty history and channels whose `ENABLED` and `PAUSED` are 0 (10_state.md R42). -/
theorem resetWith_imageInv (p : Params) : (State.resetWith p).ImageInv := by
  intro c k hk
  obtain ⟨cfg, _, rfl⟩ := List.mem_map.mp (List.mem_of_getElem? hk)
  exact ⟨rfl, rfl⟩

theorem imageInv_stepClosed : StepClosed State.ImageInv where
  frame hs hchan hhist _ := by
    rw [State.ImageInv, hchan, hhist]
    exact hs
  elapse hs hk := hs.set hk (elapse_follows _) rfl rfl
  tick hs hk := hs.set hk (tick_follows _) rfl rfl
  exec hs h := hs.exec h
  illegal hs := hs
  done w hs := by
    rw [State.imageInv_iff] at hs ⊢
    exact fun c k hk => (hs c k hk).append (imageAfter_done c w _ k)
  reset _ := resetWith_imageInv _

/-- Settles O20: the emissions of each procedure of a channel, replayed, give the image it leaves. -/
theorem imageFollowsThePortActions : Obligations.ImageFollowsThePortActions :=
  fun _ _ hs h => imageInv_stepClosed.step hs h

end Sys2Proof.Machine

/-! # Commands, registers and reset (10_state.md)

What a command leaves of the registers, the form of `RESULT`, the packed words, the states of the IntervalRunner and the
values after a reset. -/

namespace Sys2Proof.Machine

/-! ## What a command leaves unchanged -/

/-- Settles O13: a failure writes `RESULT` alone; a success writes a channel, the history, `RESULT` and the mapping. -/
theorem commandsKeepOperandsAndParameters : Obligations.CommandsKeepOperandsAndParameters := by
  intro i s t h
  have hparams : t.params = s.params := (exec_effect h).params_eq
  rcases exec_cases h with ⟨e, rfl⟩ | ⟨c, k, div, ticks, hok⟩
  · exact ⟨rfl, rfl, rfl, rfl, rfl, rfl, rfl, rfl, hparams⟩
  · refine ⟨?_, ?_, ?_, ?_, ?_, ?_, ?_, ?_, hparams⟩ <;> rw [hok.after] <;> cases mapsFrequency i <;> rfl

/-- With at most 255 channels the id of an existing channel fits `CHSEL` (00_scope.md R7). -/
theorem ofNat_channelId_toNat {s : State} {c : Nat} {k : Channel} (hn : s.channels.length ≤ 255)
    (hk : s.channels[c]? = some k) : (BitVec.ofNat 8 c).toNat = c := by
  obtain ⟨hc, _⟩ := List.getElem?_eq_some_iff.mp hk
  exact Nat.mod_eq_of_lt (by omega)

/-- Settles O15: `CHSEL` of a success is the id of the channel that was put back. -/
theorem successTouchesOnlyTheSelectedChannel : Obligations.SuccessTouchesOnlyTheSelectedChannel := by
  intro i s t hn h hstatus
  rcases exec_result_cases h with ⟨_, _, hfail, _⟩ | ⟨c, k, div, ticks, hok, _, hsel⟩
  · exact absurd hstatus hfail
  · rw [hsel, ofNat_channelId_toNat hn hok.found]
    refine ⟨fun d hd => ?_, _, hok.history⟩
    rw [hok.channels, List.getElem?_set_ne hd.symm]

/-- A command that runs no mapper notes no mapping (10_state.md R25). -/
theorem Succeeds.mapRegisters {i : Instr} {s t : State} {c : Nat} {k : Channel} {div ticks : Nat}
    (h : Succeeds i s t c k div ticks) (hi : mapsFrequency i = false) :
    t.mapDiv = s.mapDiv ∧ t.mapTicks = s.mapTicks := by
  rw [h.after, hi]
  exact ⟨rfl, rfl⟩

/-- Settles O16: a failure leaves the two registers, and so does a success without a mapping. -/
theorem mapRegistersNeedASuccessfulMapping : Obligations.MapRegistersNeedASuccessfulMapping := by
  intro i s t h hcase
  rcases exec_result_cases h with ⟨e, rfl, _, _⟩ | ⟨c, k, div, ticks, hok, hstatus, _⟩
  · exact ⟨rfl, rfl⟩
  · exact hok.mapRegisters (hcase.resolve_right (not_not_intro hstatus))

/-- Settles O22: a reset keeps the parameters, and no change of a channel touches its own. -/
theorem parametersNeverChange : Obligations.ParametersNeverChange := by
  intro s t h
  rcases step_reset_or_effect h with ⟨rest, _, rfl⟩ | heff
  · exact resetBlock_params _
  · exact heff.params_eq

/-! ## The form of `RESULT` (10_state.md R24) -/

theorem CommandError.code_le (e : CommandError) : e.code.toNat ≤ 4 := by cases e <;> decide

theorem raise_resultInv (s : State) (e : CommandError) : (s.raise e).ResultInv := by
  obtain ⟨_, hfail, hsel⟩ := raise_result s e
  refine ⟨resultWord_high _ _, ?_, fun h => absurd h hfail, fun _ => hsel⟩
  rw [State.raise_result, statusOf_resultWord]
  exact e.code_le

theorem Succeeds.resultInv {i : Instr} {s t : State} {c : Nat} {k : Channel} {div ticks : Nat}
    (h : Succeeds i s t c k div ticks) (hn : s.channels.length ≤ 255) : t.ResultInv := by
  have hlen : t.channels.length = s.channels.length := by rw [h.channels, List.length_set]
  obtain ⟨hc, _⟩ := List.getElem?_eq_some_iff.mp h.found
  rw [State.ResultInv, h.result, hlen, statusOf_resultWord, chselOf_resultWord, ofNat_channelId_toNat hn h.found]
  exact ⟨resultWord_high _ _, by decide, fun _ => hc, fun hne => absurd rfl hne⟩

/-- `RESULT` is 0 after a reset, the report of a success on channel 0. -/
theorem resultInv_of_result_zero {s : State} (hn : 1 ≤ s.channels.length) (h : s.result = 0#32) : s.ResultInv := by
  rw [State.ResultInv, h]
  exact ⟨rfl, by decide, fun _ => hn, fun hne => absurd rfl hne⟩

/-- The form of `RESULT` in a block of 1 to 255 channels (00_scope.md R7). -/
def State.ResultForm (s : State) : Prop :=
  (1 ≤ s.channels.length ∧ s.channels.length ≤ 255) ∧ s.ResultInv

theorem State.ResultForm.of_eq {s t : State} (hs : s.ResultForm) (hlen : t.channels.length = s.channels.length)
    (hresult : t.result = s.result) : t.ResultForm := by
  rw [State.ResultForm, State.ResultInv, hlen, hresult]
  exact hs

theorem State.ResultForm.exec {i : Instr} {s t : State} (hs : s.ResultForm) (h : exec i s = .next t) :
    t.ResultForm := by
  obtain ⟨hn, _⟩ := hs
  rcases exec_cases h with ⟨e, rfl⟩ | ⟨c, k, div, ticks, hok⟩
  · exact ⟨hn, raise_resultInv s e⟩
  · refine ⟨?_, hok.resultInv hn.2⟩
    rwa [hok.channels, List.length_set]

theorem resetBlock_channels_length (s : State) : (resetBlock s).channels.length = s.channels.length := by
  simp [resetBlock, State.resetWith, State.params]

theorem State.ResultForm.reset {s : State} (hs : s.ResultForm) : (resetBlock s).ResultForm := by
  obtain ⟨hn, _⟩ := hs
  rw [← resetBlock_channels_length s] at hn
  exact ⟨hn, resultInv_of_result_zero hn.1 rfl⟩

theorem resultForm_stepClosed : StepClosed State.ResultForm where
  frame hs hchan _ hresult := hs.of_eq (congrArg List.length hchan) hresult
  elapse hs _ := hs.of_eq List.length_set rfl
  tick hs _ := hs.of_eq List.length_set rfl
  exec hs h := hs.exec h
  illegal hs := ⟨hs.1, raise_resultInv _ _⟩
  done _ hs := hs
  reset hs := hs.reset

/-- Settles O21: `RESULT` is written by the two endings of a command and by a reset, each in the form. -/
theorem everyStepKeepsTheResultForm : Obligations.EveryStepKeepsTheResultForm := by
  intro s t hlow hhigh hs h
  have ht : t.ResultForm := resultForm_stepClosed.step ⟨⟨hlow, hhigh⟩, hs⟩ h
  exact ht.2

/-! ## The states of the IntervalRunner (10_state.md R40) -/

theorem runnerPhase_bound {s : State} {c : Nat} {k : Channel} (hk : s.channels[c]? = some k)
    (hb : k.callback ≠ 0#32) :
    s.runnerPhase c = some (if k.done = true then .periodComplete else .armedWaiting) := by
  simp only [State.runnerPhase, hk, bound_of_ne hb, cond_true]
  cases k.done <;> rfl

theorem runnerPhase_free {s : State} {c : Nat} {k : Channel} (hk : s.channels[c]? = some k)
    (hb : k.callback = 0#32) :
    s.runnerPhase c =
      some (if s.history.foldl (tickReleased c) false = true then .exhausted else .free) := by
  simp only [State.runnerPhase, hk, bound_of_eq hb, cond_false]
  cases s.history.foldl (tickReleased c) false <;> rfl

/-- The events of a release mark the channel as released by TICK, until a completion of STOP says otherwise. -/
theorem tickReleased_releaseEvents (c : Nat) (k : Channel) (soFar : Bool) :
    (releaseEvents c k).foldl (tickReleased c) soFar = true := by
  cases hp : k.paused <;> simp [releaseEvents, ungateEvents, hp, tickReleased]

/-- The completion of a STOP that succeeded marks the release as the host's. -/
theorem tickReleased_done_stop {w result : Word} {ch : ChannelId} (hw : decode w = .ok (.stop ch))
    (hr : statusOf result = statusOk) (soFar : Bool) :
    tickReleased ch.toNat soFar (.done w result) = false := by
  simp [tickReleased, hw, hr]

/-- The TICK that ends a channel's life frees it, and its last emissions are those of RELEASE
(41_interval_runner.md R150, R154). -/
theorem tick_releases (c : Nat) {k : Channel} (h : k.repeats = 0#32 ∨ k.repeats = 1#32 ∧ k.done = true) :
    k.tick.chan = Channel.free k.cfg ∧
      ∃ es, k.tick.events.map (Event.channel c) = es ++ releaseEvents c k := by
  rcases h with h0 | ⟨h1, hd⟩
  · rw [tick_exhausted k h0]
    refine ⟨rfl, [], ?_⟩
    cases hp : k.paused <;> simp [releaseEvents, ungateEvents, hp]
  · rw [tick_last k h1 hd]
    refine ⟨rfl, [.channel c (.callback k.callback k.hasArg k.arg)], ?_⟩
    cases hp : k.paused <;> simp [releaseEvents, ungateEvents, hp]

theorem tickStep_enabled {s : State} {c : Nat} {k : Channel} (hk : s.channels[c]? = some k)
    (he : k.tickEnabled = true) : tickStep c s = s.applyRun c k.tick := by
  simp [tickStep, hk, he]

/-- A TICK that releases leaves its channel EXHAUSTED. -/
theorem runnerPhase_tickStep {s : State} {c : Nat} {k : Channel} (hk : s.channels[c]? = some k)
    (he : k.tickEnabled = true) (h : k.repeats = 0#32 ∨ k.repeats = 1#32 ∧ k.done = true) :
    (tickStep c s).runnerPhase c = some .exhausted := by
  obtain ⟨hc, _⟩ := List.getElem?_eq_some_iff.mp hk
  obtain ⟨hfree, es, hes⟩ := tick_releases c h
  rw [tickStep_enabled hk he, runnerPhase_free (k := Channel.free k.cfg) _ rfl]
  · rw [State.applyRun_history, hes, List.foldl_append, List.foldl_append, tickReleased_releaseEvents]
    rfl
  · rw [State.applyRun_channels, hfree, List.getElem?_set_self hc]

/-- The word of STOP on an explicit channel decodes to that STOP (30_encoding.md R88). -/
theorem decode_encode_stop {ch : ChannelId} (h : ch ≠ autoId) : decode (encode (.stop ch)) = .ok (.stop ch) := by
  simp [encode, encodeOn, decode_toWord, decodeFields, Kind.ofBits, Opcode.command, h]

/-- STOP of a bound channel releases it (42_host_commands.md R190). -/
theorem exec_stop_bound {s : State} {ch : ChannelId} {k : Channel} (hk : s.channels[ch.toNat]? = some k)
    (hb : k.callback ≠ 0#32) :
    exec (.stop ch) s = .next ((s.applyRun ch.toNat (ChannelRun.start k).release).succeed ch.toNat) := by
  simp [exec, execStop, boundCommand, checkBound_some hk hb]

/-- A write of `CMD` with a legal word runs its command and emits `Done` (42_host_commands.md R180). -/
theorem writeCommand_decoded {w : Word} {i : Instr} {s t : State} (hw : decode w = .ok i)
    (h : exec i { s with cmd := w } = .next t) : writeCommand w s = .next (t.emitDone w) := by
  simp [writeCommand, hw, h]

/-- A STOP that releases leaves its channel FREE. -/
theorem runnerPhase_stop {s : State} {ch : ChannelId} {k : Channel} {w : Word}
    (hk : s.channels[ch.toNat]? = some k) (hw : decode w = .ok (.stop ch)) :
    (((s.applyRun ch.toNat (ChannelRun.start k).release).succeed ch.toNat).emitDone w).runnerPhase ch.toNat =
      some .free := by
  obtain ⟨hc, _⟩ := List.getElem?_eq_some_iff.mp hk
  rw [runnerPhase_free (k := Channel.free k.cfg) _ rfl]
  · rw [State.emitDone_history, List.foldl_append, List.foldl_cons, List.foldl_nil,
      State.succeed_result, tickReleased_done_stop hw (statusOf_resultWord _ _)]
    rfl
  · simp [release_eq, hc]

/-- Settles O57: the last events of the channel tell the two releases apart. -/
theorem exhaustedIsToldApartFromStopped : Obligations.ExhaustedIsToldApartFromStopped := by
  intro s k ch rest hk hb
  refine ⟨runnerPhase_bound hk hb, ?_, ?_⟩
  · intro hs hpending henabled hlast
    have he : k.tickEnabled = true := by simp [Channel.tickEnabled, hpending, henabled]
    exact ⟨_, step_tick hs, runnerPhase_tickStep hk he hlast⟩
  · intro hs hch
    have hw := decode_encode_stop hch
    refine ⟨_, (step_commandWrite hs).trans (writeCommand_decoded hw (exec_stop_bound hk hb)), ?_⟩
    exact runnerPhase_stop hk hw

/-! ## Packed words -/

/-- A field put into a word that has room for it. -/
theorem placed_toNat {n lo : Nat} (v : BitVec n) (h : lo + n ≤ 32) : (placed lo v).toNat = 2 ^ lo * v.toNat := by
  have hv : 2 ^ lo * v.toNat < 2 ^ 32 :=
    calc 2 ^ lo * v.toNat < 2 ^ lo * 2 ^ n := Nat.mul_lt_mul_of_pos_left v.isLt (by positivity)
      _ = 2 ^ (lo + n) := (Nat.pow_add 2 lo n).symm
      _ ≤ 2 ^ 32 := Nat.pow_le_pow_right (by decide) h
  rw [placed, BitVec.toNat_shiftLeft, BitVec.toNat_setWidth_of_le (by omega), Nat.shiftLeft_eq, Nat.mul_comm,
    Nat.mod_eq_of_lt hv]

/-- Two fields side by side. -/
theorem placed_or_placed_toNat {n lo : Nat} (v : BitVec n) (low : BitVec lo) (h : lo + n ≤ 32) :
    (placed lo v ||| placed 0 low).toNat = 2 ^ lo * v.toNat + low.toNat := by
  rw [BitVec.toNat_or, placed_toNat v h, placed_toNat low (by omega), Nat.pow_zero, Nat.one_mul,
    ← Nat.two_pow_add_eq_or_of_lt low.isLt]

theorem placedBit_getLsbD {lo : Nat} (h : lo < 32) (b : Bool) (i : Nat) :
    (placedBit lo b).getLsbD i = (decide (i = lo) && b) := by
  rw [placedBit, placed, BitVec.getLsbD_shiftLeft, BitVec.getLsbD_setWidth, BitVec.getLsbD_ofBool]
  by_cases hi : i = lo
  · simp [hi, h]
  · by_cases hlt : i < lo
    · simp [hi, hlt]
    · have hne : i - lo ≠ 0 := by omega
      simp [hi, hne]

theorem statusWord_getLsbD (k : Channel) (i : Nat) :
    k.statusWord.getLsbD i =
      (decide (i = 6) && k.is16 || decide (i = 5) && k.hasArg || decide (i = 4) && k.pending ||
        decide (i = 3) && k.done || decide (i = 2) && k.paused || decide (i = 1) && k.enabled ||
        decide (i = 0) && k.bound) := by
  simp [Channel.statusWord, placedBit_getLsbD]

/-- `K[ch]` and `WIDTH[ch]` side by side, for the table sizes of 00_scope.md R7. -/
theorem channel_configWord_toNat {k : Channel} (h : k.cfg.divs.length ≤ 8) :
    k.configWord.toNat = k.cfg.width.bits + 256 * k.cfg.divs.length := by
  have hw : k.cfg.width.bits ≤ 16 := by cases k.cfg.width <;> decide
  rw [Channel.configWord, placed_or_placed_toNat _ _ (by decide), BitVec.toNat_ofNat, BitVec.toNat_ofNat]
  omega

theorem is16_iff (k : Channel) : k.is16 = true ↔ k.cfg.width.bits = 16 := by
  rw [Channel.is16]
  cases k.cfg.width <;> decide

/-- Settles O10, from the bits of `CH_STATUS` and the value of `CH_CONFIG`. -/
theorem statusAndConfigWordBits : Obligations.StatusAndConfigWordBits := by
  intro k
  simp only [statusWord_getLsbD]
  refine ⟨?_, by simp, by simp, by simp, by simp, by simp, ?_, ?_, channel_configWord_toNat⟩
  · simp [Channel.bound]
  · simpa using is16_iff k
  · intro i hi
    have hne : ∀ j < 7, decide (i = j) = false := by
      intro j hj
      rw [decide_eq_false_iff_not]
      omega
    simp [hne]

/-! ## Reset (10_state.md R42) -/

theorem resetWith_params (p : Params) : (State.resetWith p).params = p := by
  simp only [State.params, State.resetWith, List.map_map, Function.comp_def, Channel.free_cfg, List.map_id']

theorem resetWith_channels_free {p : Params} {k : Channel} (hk : k ∈ (State.resetWith p).channels) :
    k = Channel.free k.cfg := by
  obtain ⟨cfg, _, rfl⟩ := List.mem_map.mp hk
  rfl

theorem resetWith_invariants {p : Params} (hp : p.valid) :
    (State.resetWith p).Inv ∧ (State.resetWith p).ResultInv ∧ (State.resetWith p).ImageInv := by
  refine ⟨⟨?_, fun k hk => ?_⟩, resultInv_of_result_zero ?_ rfl, resetWith_imageInv p⟩
  · rwa [resetWith_params]
  · rw [resetWith_channels_free hk]
    exact Channel.inv_free _
  · obtain ⟨_, hn, _⟩ := hp
    simpa [State.resetWith] using hn.1

/-- Settles O19, with the example configuration among the valid parameters. -/
theorem invariantsHoldAtReset : Obligations.InvariantsHoldAtReset :=
  ⟨fun _ hp => resetWith_invariants hp, resetWith_invariants (by decide)⟩

theorem step_reset {s : State} {rest : List Action} (h : s.schedule = .reset :: rest) :
    step s = .next (resetBlock { s with schedule := rest }) := by
  simp only [step, runSchedule, h, perform]

/-- The register at offset 0x024 is `CONFIG`, which holds the number of channels (10_state.md R26). -/
theorem readWindow_config {s : State} (h : s.channels.length ≤ 255) :
    (readWindow s 0x024).toNat = s.channels.length := by
  change s.configWord.toNat = _
  rw [State.configWord, placed_toNat _ (by decide), BitVec.toNat_ofNat]
  omega

/-- Settles O24: the block is rebuilt from its parameters, with every channel free. -/
theorem resetPutsEveryFieldAtItsValue : Obligations.ResetPutsEveryFieldAtItsValue := by
  intro s rest hs hn
  refine ⟨_, step_reset hs, ⟨rfl, rfl, rfl, rfl, rfl, rfl, rfl, rfl, rfl, rfl⟩, resetBlock_params _, ?_, ?_⟩
  · have hlen := resetBlock_channels_length { s with schedule := rest }
    rw [readWindow_config (hlen.trans_le hn), hlen]
  · intro k hk
    rw [resetWith_channels_free hk]
    exact ⟨rfl, rfl, rfl, rfl, rfl, rfl, rfl, rfl, rfl, rfl, rfl, rfl, rfl, rfl⟩

end Sys2Proof.Machine

/-! # The register window (20_memory.md R60 to R64)

First which host accesses exist and what a step makes of one, then which register an offset of the window names; the
statements about reads and writes follow from these. -/

namespace Sys2Proof.Machine

/-! ## Host accesses (R62) -/

theorem step_cons {s : State} {a : Action} {rest : List Action} (h : s.schedule = a :: rest) :
    step s = perform a { s with schedule := rest } := by
  simp only [step, runSchedule, h]

theorem accessRefusal_eq_some_of_bad {off width : Nat} (h : badAccess off width) :
    ∃ e, accessRefusal off width = some e := by
  rw [← Option.ne_none_iff_exists', Ne, accessRefusal_none_iff, not_not]
  exact h

/-- No register shows what is scheduled or what the host has read (log 1, log 2). -/
theorem readWindow_schedule_reads (s : State) (rest : List Action) (replies : List ReadReply) (off : Nat) :
    readWindow { s with schedule := rest, reads := replies } off = readWindow s off := rfl

/-- A host read that exists records the register's value `v` and nothing else. -/
theorem step_memRead {s : State} {off width : Nat} {v : Word} {rest : List Action}
    (h : s.schedule = .memRead off width :: rest) (ha : ¬ badAccess off width) (hv : readWindow s off = v) :
    step s = .next { s with schedule := rest, reads := s.reads ++ [{ off := off, value := v }] } := by
  rw [step_cons h, ← hv, ← readWindow_schedule_reads s rest s.reads off]
  simp only [perform, hostRead, (accessRefusal_none_iff off width).mpr ha]

/-- The second of two reads in a row answers the value of the first. -/
theorem run_memRead_twice {s : State} {off width : Nat} {rest : List Action}
    (h : s.schedule = .memRead off width :: .memRead off width :: rest) (ha : ¬ badAccess off width) :
    core.run 2 s = .next { s with
      schedule := rest,
      reads := s.reads ++ [{ off := off, value := readWindow s off }, { off := off, value := readWindow s off }] } := by
  rw [run_succ 1 (step_memRead h ha rfl),
    run_succ 0 (step_memRead rfl ha (readWindow_schedule_reads s (.memRead off width :: rest) _ off))]
  simp only [Host.Core.run, List.append_assoc, List.cons_append, List.nil_append]

/-- A host write that exists is the write of the register its offset names. -/
theorem step_memWrite {s : State} {off width : Nat} {v : Word} {rest : List Action}
    (h : s.schedule = .memWrite off width v :: rest) (ha : ¬ badAccess off width) :
    step s = writeWindow off v { s with schedule := rest } := by
  rw [step_cons h]
  simp only [perform, hostWrite, (accessRefusal_none_iff off width).mpr ha]

theorem step_refused_of_badAccessNext {s : State} (h : s.badAccessNext) : ∃ e, step s = .refused e := by
  rcases h with ⟨off, width, rest, hs, hbad⟩ | ⟨off, width, v, rest, hs, hbad⟩
  all_goals
    obtain ⟨e, he⟩ := accessRefusal_eq_some_of_bad hbad
    refine ⟨e, ?_⟩
    rw [step_cons hs]
    simp only [perform, hostRead, hostWrite, he]

/-! ## Every other step answers (60_exceptions.md R237) -/

theorem finishCommand_answers (s : State) (r : Except CommandError State) : ∃ t, finishCommand s r = .next t := by
  cases r with
  | ok t => exact ⟨t, rfl⟩
  | error e => exact ⟨s.raise e, rfl⟩

/-- Every command ends by `finishCommand`, so it answers a state. -/
theorem exec_answers (i : Instr) (s : State) : ∃ t, exec i s = .next t := by
  cases i <;> exact finishCommand_answers s _

theorem writeCommand_answers (w : Word) (s : State) : ∃ t, writeCommand w s = .next t := by
  cases hd : decode w with
  | error e => exact ⟨(({ s with cmd := w } : State).raise .illegalCommand).emitDone w, by simp only [writeCommand, hd]⟩
  | ok i =>
    obtain ⟨t, ht⟩ := exec_answers i { s with cmd := w }
    exact ⟨t.emitDone w, by simp only [writeCommand, hd, ht]⟩

theorem writeWindow_answers (off : Nat) (v : Word) (s : State) : ∃ t, writeWindow off v s = .next t := by
  unfold writeWindow
  split
  case h_1 => exact writeCommand_answers v s
  all_goals exact ⟨_, rfl⟩

theorem step_answers {s : State} (h : ¬ s.badAccessNext) : ∃ t, step s = .next t := by
  cases hs : s.schedule with
  | nil => exact ⟨s, by simp only [step, runSchedule, hs]⟩
  | cons a rest =>
    cases a with
    | memRead off width =>
      exact ⟨_, step_memRead hs (fun hbad => h (.inl ⟨off, width, rest, hs, hbad⟩)) rfl⟩
    | memWrite off width v =>
      rw [step_memWrite hs fun hbad => h (.inr ⟨off, width, v, rest, hs, hbad⟩)]
      exact writeWindow_answers off v _
    | elapse c => exact ⟨_, step_elapse hs⟩
    | tick c => exact ⟨_, step_tick hs⟩
    | reset => exact ⟨_, step_reset hs⟩

/-- Settles O7: a bad access is refused, and every other action answers, a write of `CMD` because every command does. -/
theorem onlyBadAccessesAreRefused : Obligations.OnlyBadAccessesAreRefused := by
  refine fun s => ⟨fun ⟨t, ht⟩ hbad => ?_, step_answers⟩
  obtain ⟨e, he⟩ := step_refused_of_badAccessNext hbad
  rw [ht] at he
  cases he

/-! ## Which register an offset names (R61) -/

/-- The global registers stand at the word indices of `globalRegs`, all below 0x100. -/
theorem windowReg_eq_global_iff {n off : Nat} {r : GlobalReg} :
    windowReg n off = .global r ↔ globalRegs[off / 4]? = some r := by
  by_cases hlt : off < 0x100
  · simp only [windowReg, if_pos hlt]
    cases globalRegs[off / 4]? <;> simp
  · have hout : globalRegs[off / 4]? = none := List.getElem?_eq_none (by simp only [globalRegs, List.length]; omega)
    simp only [windowReg, if_neg hlt, hout, reduceCtorEq, iff_false]
    split
    · split <;> simp
    · simp

/-- From word index 6 on the global registers are read-only (R64). -/
theorem globalRegs_readOnly {i : Nat} {r : GlobalReg} (hi : 6 ≤ i) (h : globalRegs[i]? = some r) :
    r = .result ∨ r = .mapDiv ∨ r = .mapTicks ∨ r = .config := by
  have hmem : r ∈ globalRegs.drop 6 := by
    rw [← Nat.add_sub_cancel' hi, ← List.getElem?_drop] at h
    exact List.mem_of_getElem? h
  simpa [globalRegs] using hmem

theorem windowReg_global_gap {n off : Nat} (hlo : 0x28 ≤ off) (hhi : off < 0x100) : windowReg n off = .reserved := by
  have hout : globalRegs[off / 4]? = none := List.getElem?_eq_none (by simp only [globalRegs, List.length]; omega)
  simp only [windowReg, if_pos hhi, hout]

theorem windowReg_beyond_channels {n off : Nat} (hlo : 0x100 ≤ off) (h : n ≤ (off - 0x100) / 0x80) :
    windowReg n off = .reserved := by
  simp only [windowReg, if_neg (Nat.not_lt.mpr hlo), if_neg (Nat.not_lt.mpr h)]

/-- The two gaps of a channel's window: between `CH_FREQDEN` and `CH_DIV[0]`, and after `CH_DIV[7]`. -/
theorem channelRegAt_gap {i : Nat} (h : 24 ≤ i ∨ 11 ≤ i ∧ i < 16) : channelRegAt i = none := by
  have hout : channelRegs[i]? = none := List.getElem?_eq_none (by simp only [channelRegs, List.length]; omega)
  simp only [channelRegAt, hout, if_neg (show ¬ (16 ≤ i ∧ i < 24) by omega)]

theorem channelRegAt_div {i : Nat} (h : i < 8) : channelRegAt (16 + i) = some (.div i) := by
  have hout : channelRegs[16 + i]? = none := List.getElem?_eq_none (by simp only [channelRegs, List.length]; omega)
  simp only [channelRegAt, hout, if_pos (show 16 ≤ 16 + i ∧ 16 + i < 24 by omega), Nat.add_sub_cancel_left]

theorem windowReg_channel_gap {n off : Nat} (hlo : 0x100 ≤ off)
    (h : 0x60 ≤ (off - 0x100) % 0x80 ∨ 0x2C ≤ (off - 0x100) % 0x80 ∧ (off - 0x100) % 0x80 < 0x40) :
    windowReg n off = .reserved := by
  have hgap : channelRegAt ((off - 0x100) % 0x80 / 4) = none := channelRegAt_gap (by omega)
  simp only [windowReg, if_neg (Nat.not_lt.mpr hlo), hgap, ite_self]

/-- The word at index `i` of channel `c`'s window, at `B(c) + 4 * i`. -/
theorem windowReg_channel {n c i : Nat} {r : ChannelReg} (hc : c < n) (hi : i < 32) (h : channelRegAt i = some r) :
    windowReg n (0x100 + 0x80 * c + 4 * i) = .channel c r := by
  have hch : (0x100 + 0x80 * c + 4 * i - 0x100) / 0x80 = c := by omega
  have hix : (0x100 + 0x80 * c + 4 * i - 0x100) % 0x80 / 4 = i := by omega
  simp only [windowReg, if_neg (show ¬ 0x100 + 0x80 * c + 4 * i < 0x100 by omega), hch, if_pos hc, hix, h]

/-! ## What a read returns and what a write does -/

theorem readWindow_reserved {s : State} {off : Nat} (h : windowReg s.channels.length off = .reserved) :
    readWindow s off = 0#32 := by
  simp only [readWindow, h]

theorem readWindow_global {s : State} {off : Nat} {r : GlobalReg} (h : globalRegs[off / 4]? = some r) :
    readWindow s off = readGlobal s r := by
  simp only [readWindow, windowReg_eq_global_iff.mpr h]

theorem readWindow_channel {s : State} {c i : Nat} {k : Channel} {r : ChannelReg} (hk : s.channels[c]? = some k)
    (hi : i < 32) (h : channelRegAt i = some r) :
    readWindow s (0x100 + 0x80 * c + 4 * i) = readChannel k r := by
  have hc : c < s.channels.length := (List.getElem?_eq_some_iff.mp hk).1
  simp only [readWindow, windowReg_channel hc hi h, hk]

/-- `CH_DIV[i]` (10_state.md R37): the divider table, which `getD` pads with 0. -/
theorem readWindow_channelDiv {s : State} {c i : Nat} {k : Channel} (hk : s.channels[c]? = some k) (hi : i < 8) :
    readWindow s (0x100 + 0x80 * c + 0x40 + 4 * i) = BitVec.ofNat 32 (k.cfg.divs.getD i 0) := by
  rw [show 0x100 + 0x80 * c + 0x40 + 4 * i = 0x100 + 0x80 * c + 4 * (16 + i) by omega]
  exact readWindow_channel hk (by omega) (channelRegAt_div hi)

/-- A write of a read-only register or of a reserved offset is ignored (R64). -/
theorem writeWindow_readOnly {off : Nat} (h : 0x18 ≤ off) (v : Word) (s : State) : writeWindow off v s = .next s := by
  cases hw : windowReg s.channels.length off with
  | global r =>
    have hr := globalRegs_readOnly (by omega) (windowReg_eq_global_iff.mp hw)
    rcases hr with rfl | rfl | rfl | rfl <;> simp only [writeWindow, hw]
  | channel c r => simp only [writeWindow, hw]
  | reserved => simp only [writeWindow, hw]

/-- Settles O8: what is reserved reads as zero, a read is `step_memRead` once or twice, and a write is the write of the
register its offset names. -/
theorem readsAndIgnoredWritesHaveNoSideEffect : Obligations.ReadsAndIgnoredWritesHaveNoSideEffect := by
  intro s off v rest halign hlt
  have hgood : ¬ badAccess off 4 := by
    unfold badAccess
    omega
  refine ⟨fun h => readWindow_reserved ?_, fun hs => step_memRead hs hgood rfl, fun hs => run_memRead_twice hs hgood,
    fun hs hoff => ?_, fun hs => ?_⟩
  · rcases h with ⟨hlo, hhi⟩ | ⟨hlo, hbeyond | hgap⟩
    · exact windowReg_global_gap hlo hhi
    · exact windowReg_beyond_channels hlo hbeyond
    · exact windowReg_channel_gap hlo hgap
  · rw [step_memWrite hs hgood, writeWindow_readOnly hoff]
  · rw [step_memWrite hs hgood]
    refine ⟨?_, ?_, ?_, ?_, ?_⟩ <;> rintro rfl <;> rfl

/-- Settles O9, by the word index of each register. -/
theorem windowMapNamesEveryRegister : Obligations.WindowMapNamesEveryRegister := by
  intro s hn
  have global : ∀ {off : Nat} (r : GlobalReg), globalRegs[off / 4]? = some r → readWindow s off = readGlobal s r :=
    fun _ => readWindow_global
  refine ⟨⟨global .cmd rfl, global .opa rfl, global .opb rfl, global .opc rfl, global .opd rfl, global .ope rfl,
    global .result rfl, global .mapDiv rfl, global .mapTicks rfl, readWindow_config hn⟩, fun c k hk => ?_⟩
  have named : ∀ (i : Nat) (r : ChannelReg), i < 32 → channelRegAt i = some r →
      readWindow s (0x100 + 0x80 * c + 4 * i) = readChannel k r := fun _ _ => readWindow_channel hk
  refine ⟨named 0 .status (by decide) rfl, named 1 .config (by decide) rfl, named 2 .callback (by decide) rfl,
    named 3 .arg (by decide) rfl, named 4 .divider (by decide) rfl, named 5 .fullTicks (by decide) rfl,
    named 6 .remaining (by decide) rfl, named 7 .repeats (by decide) rfl, named 8 .cmp (by decide) rfl,
    named 9 .freqNum (by decide) rfl, named 10 .freqDen (by decide) rfl, fun i hi => ⟨fun _ => ?_, fun hlen => ?_⟩⟩
  · exact readWindow_channelDiv hk hi
  · rw [readWindow_channelDiv hk hi, List.getD_eq_default _ _ hlen]

/-! ## The window's bytes (R63) -/

theorem windowByte_add {s : State} {off i : Nat} (ha : off % 4 = 0) (hi : i < 4) :
    windowByte s (off + i) = (readWindow s off).extractLsb' (8 * i) 8 := by
  have hmod : (off + i) % 4 = i := by omega
  rw [windowByte, hmod, Nat.add_sub_cancel]

theorem word_toNat_eq_bytes (w : Word) :
    w.toNat = (w.extractLsb' 0 8).toNat + 2 ^ 8 * (w.extractLsb' 8 8).toNat + 2 ^ 16 * (w.extractLsb' 16 8).toNat +
      2 ^ 24 * (w.extractLsb' 24 8).toNat := by
  have hw := w.isLt
  simp only [BitVec.extractLsb'_toNat, Nat.shiftRight_eq_div_pow]
  omega

/-- Settles O11: the four bytes at an aligned offset are the four bytes of its word. -/
theorem windowBytesAreLittleEndian : Obligations.WindowBytesAreLittleEndian := by
  intro s off ha
  have hlow : windowByte s off = (readWindow s off).extractLsb' 0 8 := windowByte_add (i := 0) ha (by decide)
  rw [hlow, windowByte_add ha (i := 1) (by decide), windowByte_add ha (i := 2) (by decide),
    windowByte_add ha (i := 3) (by decide)]
  exact word_toNat_eq_bytes (readWindow s off)

end Sys2Proof.Machine

/-! # The encoding of commands (30_encoding.md)

`LegalAs` says of the fields of a word what the checks of R90 ask of them. `decodeFields_eq_ok_iff` ties it to the
decoder, once; the round trips and the illegal words follow from it by going through the nine operations. -/

namespace Sys2Proof

open Machine

/-! ## The fields of a command -/

/-- `CH` of a target (30_encoding.md R80, R82). -/
def Target.ch : Target → ChannelId
  | .explicit ch => ch
  | .auto _ => autoId

/-- `KIND` of a target: an explicit id leaves it zero (30_encoding.md R82). -/
def Target.kind : Target → Kind
  | .explicit _ => .any
  | .auto kind => kind

/-- The fields of an operation's word on a target. -/
def Opcode.fields (o : Opcode) (target : Target) (a r : Bool) : Fields :=
  { op := o.toByte, ch := target.ch, a := a, r := r, kind := target.kind.toBits, rsv := 0#12 }

theorem encodeOn_eq (o : Opcode) (ch : ChannelId) (a r : Bool) :
    encodeOn o ch a r = (o.fields (.explicit ch) a r).toWord := rfl

theorem encodeBind_eq (o : Opcode) (target : Target) (a r : Bool) :
    encodeBind o target a r = (o.fields target a r).toWord := by
  cases target <;> rfl

theorem Target.ofFields_autoId (kind : Kind) : Target.ofFields autoId kind = .auto kind := if_pos rfl

theorem Target.ofFields_of_ne {ch : ChannelId} (h : ch ≠ autoId) (kind : Kind) :
    Target.ofFields ch kind = .explicit ch := if_neg h

theorem isExplicit_iff (ch : ChannelId) : ChannelId.isExplicit ch = true ↔ ch ≠ autoId := bne_iff_ne

/-- Reading back `CH` and `KIND` of a target. -/
theorem Target.ofFields_ch_kind {target : Target} (h : target.wellFormed = true) :
    Target.ofFields target.ch target.kind = target := by
  cases target with
  | explicit ch => exact Target.ofFields_of_ne ((isExplicit_iff ch).mp h) _
  | auto kind => exact Target.ofFields_autoId kind

theorem Target.ch_ofFields (ch : ChannelId) (kind : Kind) : (Target.ofFields ch kind).ch = ch := by
  by_cases h : ch = autoId
  · rw [h, Target.ofFields_autoId]; rfl
  · rw [Target.ofFields_of_ne h]; rfl

theorem Target.ofFields_wellFormed (ch : ChannelId) (kind : Kind) : (Target.ofFields ch kind).wellFormed = true := by
  by_cases h : ch = autoId
  · rw [h, Target.ofFields_autoId]; rfl
  · rw [Target.ofFields_of_ne h]; exact (isExplicit_iff ch).mpr h

/-! ## What the decoder checks (R90) -/

/-- The fields `f` are those of a legal word of operation `o` with the kind `kind`: the conditions of 30_encoding.md
R89, each in the form that lets the word pass. -/
structure LegalAs (f : Fields) (o : Opcode) (kind : Kind) : Prop where
  rsv : f.rsv = 0#12
  op : f.op = o.toByte
  kind : f.kind = kind.toBits
  /-- `A` only with a bind -/
  argument : f.a = true → o.isBind = true
  /-- bit 17 only where the row has it -/
  bit17 : f.r = true → o.takesBit17 = true
  /-- `KIND` only with an automatic bind -/
  kind_auto : f.kind ≠ 0#2 → o.isBind = true ∧ f.ch = autoId
  /-- `AUTO` only with a bind -/
  auto_bind : f.ch = autoId → o.isBind = true

theorem LegalAs.ofByte_op {f : Fields} {o : Opcode} {kind : Kind} (h : LegalAs f o kind) :
    Opcode.ofByte f.op = some o := by rw [h.op, ofByte_toByte]

theorem LegalAs.ofBits_kind {f : Fields} {o : Opcode} {kind : Kind} (h : LegalAs f o kind) :
    Kind.ofBits f.kind = some kind := by rw [h.kind, ofBits_toBits]

/-- The decoder answers exactly on the fields of a legal word, with the command they stand for. -/
theorem decodeFields_eq_ok_iff {f : Fields} {i : Instr} :
    decodeFields f = .ok i ↔ ∃ o kind, LegalAs f o kind ∧ o.command f kind = i := by
  constructor
  · intro h
    cases hop : Opcode.ofByte f.op with
    | none =>
      simp only [decodeFields, hop] at h
      split_ifs at h
    | some o =>
      cases hkind : Kind.ofBits f.kind with
      | none =>
        simp only [decodeFields, hop, hkind] at h
        split_ifs at h
      | some kind =>
        simp only [decodeFields, hop, hkind] at h
        split_ifs at h with hrsv ha hr hk hauto
        exact ⟨o, kind,
          { rsv := not_not.mp hrsv, op := ofByte_some hop, kind := (toBits_ofBits hkind).symm,
            argument := by simpa using ha, bit17 := by simpa using hr,
            kind_auto := by simpa using hk, auto_bind := by simpa using hauto },
          Except.ok.inj h⟩
  · rintro ⟨o, kind, h, rfl⟩
    have ha : ¬ (f.a = true ∧ o.isBind = false) := fun ⟨h1, h2⟩ => by simp [h.argument h1] at h2
    have hr : ¬ (f.r = true ∧ o.takesBit17 = false) := fun ⟨h1, h2⟩ => by simp [h.bit17 h1] at h2
    have hk : ¬ (f.kind ≠ 0#2 ∧ ¬ (o.isBind = true ∧ f.ch = autoId)) := fun ⟨h1, h2⟩ => h2 (h.kind_auto h1)
    have hauto : ¬ (f.ch = autoId ∧ o.isBind = false) := fun ⟨h1, h2⟩ => by simp [h.auto_bind h1] at h2
    simp only [decodeFields, h.ofByte_op, h.ofBits_kind, if_neg ha, if_neg hr, if_neg hk, if_neg hauto, h.rsv, ne_eq,
      not_true_eq_false, if_false]

theorem decode_eq_ok_iff {w : Word} {i : Instr} :
    decode w = .ok i ↔ ∃ o kind, LegalAs (Fields.ofWord w) o kind ∧ o.command (Fields.ofWord w) kind = i :=
  decodeFields_eq_ok_iff

/-! ## Decoding an encoding -/

/-- The fields of an operation on a target are legal when the operation has the flags and the target they use. -/
theorem legalAs_fields {o : Opcode} {target : Target} {a r : Bool} (ht : target.wellFormed = true)
    (ha : a = true → o.isBind = true) (hr : r = true → o.takesBit17 = true)
    (hauto : ∀ kind, target = .auto kind → o.isBind = true) : LegalAs (o.fields target a r) o target.kind where
  rsv := rfl
  op := rfl
  kind := rfl
  argument := ha
  bit17 := hr
  kind_auto hk := by
    cases target with
    | explicit ch => exact absurd rfl hk
    | auto kind => exact ⟨hauto kind rfl, rfl⟩
  auto_bind hch := by
    cases target with
    | explicit ch => exact absurd hch ((isExplicit_iff ch).mp ht)
    | auto kind => exact hauto kind rfl

/-- The word of an operation on an explicit channel decodes to the operation's command. -/
theorem decode_encodeOn {o : Opcode} {ch : ChannelId} {r : Bool} (hch : ChannelId.isExplicit ch = true)
    (hr : r = true → o.takesBit17 = true) :
    decode (encodeOn o ch false r) = .ok (o.command (o.fields (.explicit ch) false r) .any) := by
  rw [encodeOn_eq, decode_toWord]
  exact decodeFields_eq_ok_iff.mpr ⟨o, _, legalAs_fields hch nofun hr nofun, rfl⟩

theorem takesBit17_of_isBind {o : Opcode} (h : o.isBind = true) : o.takesBit17 = true := by
  revert h
  cases o <;> decide

/-- The word of a bind decodes to the bind of its target. -/
theorem decode_encodeBind {o : Opcode} (ho : o.isBind = true) {target : Target} (ht : target.wellFormed = true)
    (a r : Bool) :
    decode (encodeBind o target a r) = .ok (o.command (o.fields target a r) target.kind) := by
  have hr : o.takesBit17 = true := takesBit17_of_isBind ho
  rw [encodeBind_eq, decode_toWord]
  exact decodeFields_eq_ok_iff.mpr ⟨o, _, legalAs_fields ht (fun _ => ho) (fun _ => hr) (fun _ _ => ho), rfl⟩

/-- Settles O1: each command is a bind of its target or an operation on an explicit channel. -/
theorem decodeOfEncode : Obligations.DecodeOfEncode := by
  intro i hi
  cases i with
  | map ch | stop ch | pause ch | resume ch | changeFrequency ch | changeInterval ch => exact decode_encodeOn hi nofun
  | restart ch d => exact decode_encodeOn hi fun _ => rfl
  | bind target a r =>
    have htarget := congrArg (Instr.bind · a r) (Target.ofFields_ch_kind hi)
    exact (decode_encodeBind rfl hi a r).trans (congrArg Except.ok htarget)
  | bindInterval target a r =>
    have htarget := congrArg (Instr.bindInterval · a r) (Target.ofFields_ch_kind hi)
    exact (decode_encodeBind rfl hi a r).trans (congrArg Except.ok htarget)

/-! ## Encoding what was decoded -/

namespace LegalAs

variable {f : Fields} {o : Opcode} {kind : Kind}

theorem ch_ne_autoId (h : LegalAs f o kind) (ho : o.isBind = false) : f.ch ≠ autoId :=
  fun hch => by simp [h.auto_bind hch] at ho

theorem a_eq_false (h : LegalAs f o kind) (ho : o.isBind = false) : f.a = false :=
  Bool.eq_false_iff.mpr fun ha => by simp [h.argument ha] at ho

theorem r_eq_false (h : LegalAs f o kind) (ho : o.takesBit17 = false) : f.r = false :=
  Bool.eq_false_iff.mpr fun hr => by simp [h.bit17 hr] at ho

/-- An explicit id goes with `KIND` zero, so the target that `CH` and `KIND` name gives both back. -/
theorem target_kind (h : LegalAs f o kind) : (Target.ofFields f.ch kind).kind.toBits = f.kind := by
  by_cases hch : f.ch = autoId
  · rw [hch, Target.ofFields_autoId]
    exact h.kind.symm
  · rw [Target.ofFields_of_ne hch]
    exact (not_not.mp fun hk => hch (h.kind_auto hk).2).symm

/-- A legal word has no field but those its operation, its target and its flags determine. -/
theorem fields_eq (h : LegalAs f o kind) : o.fields (Target.ofFields f.ch kind) f.a f.r = f := by
  rw [Opcode.fields, Target.ch_ofFields, h.target_kind, ← h.op, ← h.rsv]

theorem encodeBind_target (h : LegalAs f o kind) : encodeBind o (Target.ofFields f.ch kind) f.a f.r = f.toWord := by
  rw [encodeBind_eq, h.fields_eq]

theorem encodeOn_ch (h : LegalAs f o kind) (ho : o.isBind = false) : encodeOn o f.ch false f.r = f.toWord := by
  rw [encodeOn_eq, ← h.a_eq_false ho, ← Target.ofFields_of_ne (h.ch_ne_autoId ho) kind, h.fields_eq]

theorem encodeOn_ch_plain (h : LegalAs f o kind) (ho : o.isBind = false) (hr : o.takesBit17 = false) :
    encodeOn o f.ch false false = f.toWord := by
  rw [← h.encodeOn_ch ho, h.r_eq_false hr]

theorem encode_command (h : LegalAs f o kind) : encode (o.command f kind) = f.toWord := by
  cases o with
  | bind | bindInterval => exact h.encodeBind_target
  | restart => exact h.encodeOn_ch rfl
  | map | stop | pause | resume | changeFrequency | changeInterval => exact h.encodeOn_ch_plain rfl rfl

theorem isExplicit_ch (h : LegalAs f o kind) (ho : o.isBind = false) : ChannelId.isExplicit f.ch = true :=
  (isExplicit_iff f.ch).mpr (h.ch_ne_autoId ho)

theorem command_wellFormed (h : LegalAs f o kind) : (o.command f kind).wellFormed = true := by
  cases o with
  | bind | bindInterval => exact Target.ofFields_wellFormed f.ch kind
  | map | stop | pause | resume | restart | changeFrequency | changeInterval => exact h.isExplicit_ch rfl

end LegalAs

/-- Settles O2: the decoder reads off the fields, and the encoder puts back each of them. -/
theorem encodeOfDecode : Obligations.EncodeOfDecode := by
  intro w i h
  obtain ⟨o, kind, hlegal, rfl⟩ := decode_eq_ok_iff.mp h
  exact ⟨hlegal.command_wellFormed, hlegal.encode_command.trans (toWord_ofWord w)⟩

/-! ## Illegal words (R89) -/

theorem ofBits_none_iff (b : BitVec 2) : Kind.ofBits b = none ↔ b.toNat = 3 := by
  revert b
  decide

theorem eq_autoId_iff (ch : ChannelId) : ch = autoId ↔ ch.toNat = 0xFF := BitVec.toNat_inj.symm

/-- Which fields are legal, each field read as a number: the negations of the conditions (1) to (7) of R89. -/
theorem exists_legalAs_iff (f : Fields) :
    (∃ o kind, LegalAs f o kind) ↔
      f.rsv.toNat = 0 ∧ ¬ (f.op.toNat = 0 ∨ 10 ≤ f.op.toNat) ∧
        (f.a = true → f.op.toNat = 2 ∨ f.op.toNat = 3) ∧
        (f.r = true → (f.op.toNat = 2 ∨ f.op.toNat = 3) ∨ f.op.toNat = 7) ∧
        (f.kind.toNat ≠ 0 → (f.op.toNat = 2 ∨ f.op.toNat = 3) ∧ f.ch.toNat = 0xFF) ∧ f.kind.toNat ≠ 3 ∧
        (f.ch.toNat = 0xFF → f.op.toNat = 2 ∨ f.op.toNat = 3) := by
  have hzero {n : Nat} (b : BitVec n) : b.toNat = 0 ↔ b = 0#n := BitVec.toNat_inj (y := 0#n)
  simp only [ne_eq]
  rw [← ofByte_none_iff, ← ofBits_none_iff, ← eq_autoId_iff, hzero, hzero]
  constructor
  · rintro ⟨o, kind, h⟩
    obtain ⟨hbind, h17⟩ := ofByte_classes f.op o h.ofByte_op
    rw [← h17, ← hbind, h.ofByte_op, h.ofBits_kind]
    exact ⟨h.rsv, nofun, h.argument, h.bit17, h.kind_auto, nofun, h.auto_bind⟩
  · rintro ⟨hrsv, hop, ha, hr, hk, hkind, hauto⟩
    obtain ⟨o, ho⟩ := Option.ne_none_iff_exists'.mp hop
    obtain ⟨kind, hkind⟩ := Option.ne_none_iff_exists'.mp hkind
    obtain ⟨hbind, h17⟩ := ofByte_classes f.op o ho
    rw [← hbind] at ha hk hauto
    rw [← h17] at hr
    exact ⟨o, kind, hrsv, ofByte_some ho, (toBits_ofBits hkind).symm, ha, hr, hk, hauto⟩

/-- A word is legal exactly when it meets none of the conditions of R89. -/
theorem legalAs_ofWord_iff (w : Word) : (∃ o kind, LegalAs (Fields.ofWord w) o kind) ↔ ¬ illegalWord w := by
  obtain ⟨hop, hch, ha, hr, hkind, hrsv⟩ := ofWord_toNat w
  rw [exists_legalAs_iff, hop, hch, ha, hr, hkind, hrsv]
  simp only [illegalWord]
  omega

/-- The decoder refuses what is not legal (R89, R90). -/
theorem decode_error_iff (w : Word) : (∃ e, decode w = .error e) ↔ illegalWord w := by
  rw [← not_iff_not, ← legalAs_ofWord_iff]
  cases hd : decode w with
  | error e =>
    refine iff_of_false (by simp) ?_
    rintro ⟨o, kind, h⟩
    cases hd.symm.trans (decode_eq_ok_iff.mpr ⟨o, kind, h, rfl⟩)
  | ok i =>
    obtain ⟨o, kind, h, _⟩ := decode_eq_ok_iff.mp hd
    exact iff_of_true (by simp) ⟨o, kind, h⟩

/-- A write of an illegal word to `CMD` (60_exceptions.md R234). -/
theorem writeCommand_error {w : Word} {e : Illegal} (s : State) (h : decode w = .error e) :
    writeCommand w s = .next ((({ s with cmd := w } : State).raise .illegalCommand).emitDone w) := by
  simp only [writeCommand, h]

/-! ## An explicit id beyond the last channel -/

section MissingChannel

variable {s : State} {ch : ChannelId}

theorem mapCommand_missingChannel (h : s.channels.length ≤ ch.toNat) : mapCommand ch s = .error .invalidChannel := by
  simp only [mapCommand, checkId_none h]

theorem bindCommand_missingChannel (h : s.channels.length ≤ ch.toNat) (a r : Bool) (f : Freq) :
    bindCommand (.explicit ch) a r f s = .error .invalidChannel := by
  simp only [bindCommand, bindTarget, checkId_none h]

theorem boundCommand_missingChannel (h : s.channels.length ≤ ch.toNat) (procedure : Channel → ChannelRun) :
    boundCommand ch procedure s = .error .invalidChannel := by
  simp only [boundCommand, checkBound_none h]

theorem changeCommand_missingChannel (h : s.channels.length ≤ ch.toNat) (f : Freq) :
    changeCommand ch f s = .error .invalidChannel := by
  simp only [changeCommand, checkBound_none h]

/-- A command on an explicit id fails its channel check first when there is no such channel (60_exceptions.md R231,
R235). -/
theorem exec_missingChannel {i : Instr} (hi : explicitId i = some ch) (h : s.channels.length ≤ ch.toNat) :
    exec i s = .next (s.raise .invalidChannel) := by
  have hfail {r : Except CommandError State} (hr : r = .error .invalidChannel) :
      finishCommand s r = .next (s.raise .invalidChannel) := hr ▸ rfl
  cases i with
  | map c => cases hi; exact hfail (mapCommand_missingChannel h)
  | bind target a r =>
    cases target with
    | explicit c => cases hi; exact hfail (bindCommand_missingChannel h a r _)
    | auto kind => cases hi
  | bindInterval target a r =>
    cases target with
    | explicit c => cases hi; exact hfail (bindCommand_missingChannel h a r _)
    | auto kind => cases hi
  | stop c | pause c | resume c | restart c d => cases hi; exact hfail (boundCommand_missingChannel h _)
  | changeFrequency c | changeInterval c => cases hi; exact hfail (changeCommand_missingChannel h _)

end MissingChannel

/-- Settles O3: `decode_error_iff`, the write of an illegal word, and `exec_missingChannel`. -/
theorem illegalWordsAndTheirExecution : Obligations.IllegalWordsAndTheirExecution := by
  refine ⟨decode_error_iff, fun w s rest hw hs => ?_, fun w i ch s _ hi hch => exec_missingChannel hi hch⟩
  obtain ⟨e, he⟩ := (decode_error_iff w).mpr hw
  rw [step_commandWrite hs, writeCommand_error _ he]
  rfl

/-! ## Rows of the opcode table and written-out words -/

/-- The word of every well-formed command agrees with its row (R88). -/
theorem encode_matchesRow (i : Instr) : Laws.EncodedInTableRow.Statement i := by
  cases i with
  | map ch => exact Laws.EncodedInTableRow.map ch
  | bind target a r => exact Laws.EncodedInTableRow.bind target a r
  | bindInterval target a r => exact Laws.EncodedInTableRow.bindInterval target a r
  | stop ch => exact Laws.EncodedInTableRow.stop ch
  | pause ch => exact Laws.EncodedInTableRow.pause ch
  | resume ch => exact Laws.EncodedInTableRow.resume ch
  | restart ch d => exact Laws.EncodedInTableRow.restart ch d
  | changeFrequency ch => exact Laws.EncodedInTableRow.changeFrequency ch
  | changeInterval ch => exact Laws.EncodedInTableRow.changeInterval ch

/-- Settles O4: a word that decodes is the encoding of its command, and an encoding agrees with its row. -/
theorem decodedWordMatchesItsRow : Obligations.DecodedWordMatchesItsRow := by
  intro w i h
  obtain ⟨hwf, rfl⟩ := encodeOfDecode w i h
  exact encode_matchesRow i hwf

/-- Settles O5: each word is the encoding of its command. -/
theorem writtenOutWordsDecode : Obligations.WrittenOutWordsDecode :=
  ⟨decodeOfEncode (.map 1#8) rfl, decodeOfEncode (.bind (.explicit 1#8) true true) rfl,
    decodeOfEncode (.bind (.auto .bits8) true false) rfl,
    decodeOfEncode (.bindInterval (.auto .bits16) false true) rfl, decodeOfEncode (.stop 2#8) rfl,
    decodeOfEncode (.pause 0#8) rfl, decodeOfEncode (.resume 0#8) rfl, decodeOfEncode (.restart 2#8 true) rfl,
    decodeOfEncode (.changeFrequency 0#8) rfl, decodeOfEncode (.changeInterval 1#8) rfl⟩

end Sys2Proof

/-! # The FrequencyMapper (40_frequency_mapper.md)

`RejectedFor` says of each reason when the mapper gives it, and `mapFrequency_reject_iff` ties it to the mapper, once.
What an accepted mapping has passed is `mapFrequency_ok`. The statements follow from these two and from how the table
of dividers is ordered. -/

namespace Sys2Proof.Machine

/-! ## `T` along the table -/

/-- On a frequency of numerator 0, which the mapper never gets to divide by, the model's quotient is 0. -/
theorem ticksAt_of_num_eq_zero (clkHz : Nat) {f : Freq} (hf : f.num = 0#32) (d : Nat) : ticksAt clkHz f d = -1 := by
  simp [ticksAt, hf]

/-- `T` does not increase along the table (40_frequency_mapper.md R120). -/
theorem ticksAt_pairwise_antitone (clkHz : Nat) {p : ChannelParams} (f : Freq) (hp : p.valid) :
    p.divs.Pairwise fun d d' => ticksAt clkHz f d' ≤ ticksAt clkHz f d := by
  obtain ⟨_, _, hsorted, hrange⟩ := hp
  refine hsorted.imp_of_mem fun {d d'} hd _ hlt => ?_
  by_cases hf : f.num = 0#32
  · rw [ticksAt_of_num_eq_zero clkHz hf, ticksAt_of_num_eq_zero clkHz hf]
  · exact ticksAt_antitone clkHz f hf (hrange d hd).1 hlt.le

/-- `T` is -1 exactly when the clock is too slow for the frequency and the divider (40_frequency_mapper.md R114,
R118). -/
theorem ticksAt_neg_iff (clkHz : Nat) {f : Freq} {d : Nat} (hf : f.num ≠ 0#32) (hd : 0 < d) :
    ticksAt clkHz f d < 0 ↔ clkHz * f.den.toNat < f.num.toNat * d := by
  have hn : 0 < f.num.toNat := Nat.pos_of_ne_zero fun h0 => hf (BitVec.eq_of_toNat_eq h0)
  rw [ticksAt, sub_neg, Nat.cast_lt_one, Nat.div_eq_zero_iff_lt (Nat.mul_pos hn hd)]

/-- Dividers are within 1 to 65535 (00_scope.md R7), so where one of them gives -1 ticks every other gives few. -/
theorem ticksAt_lt_of_neg {clkHz : Nat} {p : ChannelParams} {f : Freq} {d d' : Nat} (hp : p.valid) (hf : f.num ≠ 0#32)
    (hd : d ∈ p.divs) (hd' : d' ∈ p.divs) (h : ticksAt clkHz f d < 0) : ticksAt clkHz f d' < 65535 := by
  obtain ⟨_, _, _, hrange⟩ := hp
  have hslow := (ticksAt_neg_iff clkHz hf (hrange d hd).1).mp h
  have hquot : clkHz * f.den.toNat / (f.num.toNat * d') < d := by
    refine Nat.div_lt_of_lt_mul (hslow.trans_le ?_)
    exact Nat.mul_le_mul_right d (Nat.le_mul_of_pos_right _ (hrange d' hd').1)
  have := (hrange d hd).2
  simp only [ticksAt]
  omega

/-! ## The two tests of a divider -/

/-- The chain test's bound lies below the accumulator's (00_scope.md R8), so what fails the second fails the first. -/
theorem chainLimit_le_ticksAt_of_not_fits {clkHz : Nat} {f : Freq} {d : Nat} (p : ChannelParams)
    (h : fitsAccumulator clkHz f d = false) : ((16384 * p.width.counterMax : Nat) : Int) ≤ ticksAt clkHz f d := by
  have hfit := mt (fitsAccumulator_iff clkHz f d).mpr (by simp [h])
  have := counterMax_lt p.width
  omega

theorem chainFits_eq_false_iff (clkHz : Nat) (p : ChannelParams) (f : Freq) (d : Nat) :
    chainFits clkHz p f d = false ↔ ((16384 * p.width.counterMax : Nat) : Int) ≤ ticksAt clkHz f d := by
  rw [Bool.eq_false_iff, ne_eq, chainFits_iff, not_lt]

/-- The search has nowhere to start exactly when `T` overflows at every divider (40_frequency_mapper.md R115). -/
theorem dropWhile_eq_nil_iff_overflow (clkHz : Nat) (p : ChannelParams) (f : Freq) :
    p.divs.dropWhile (fun d => !fitsAccumulator clkHz f d) = [] ↔
      ∀ d ∈ p.divs, ((2 ^ 32 - 1 : Nat) : Int) < ticksAt clkHz f d := by
  simp only [List.dropWhile_eq_nil_iff, Bool.not_eq_true', Bool.eq_false_iff, ne_eq, fitsAccumulator_iff, not_le]

/-! ## The divider of an accepted mapping -/

/-- Settles O25: `mapFrequency_fits`, and the order of the table. -/
theorem mapperResultFits : Obligations.MapperResultFits := by
  refine fun clkHz p f hp => ⟨fun div ticks h => ?_, ticksAt_pairwise_antitone clkHz f hp⟩
  obtain ⟨_, _, hmem, _, hle, hticks⟩ := mapFrequency_fits hp h
  refine ⟨hmem, hle, ?_⟩
  simp only [ticksAt] at hticks
  omega

/-- Settles O26: what stands in the table before the chosen divider overflows the accumulator or fails the chain
test. -/
theorem mapperPicksTheSmallestDivider : Obligations.MapperPicksTheSmallestDivider := by
  intro clkHz p f div ticks ⟨_, _, hsorted, _⟩ h
  obtain ⟨_, _, _, first, rest, hstart, rfl, hticks⟩ := mapFrequency_ok h
  obtain ⟨skipped, hdivs, hskipped, _⟩ := dropWhile_cons hstart
  have hlong : ∀ d ∈ skipped, ((16384 * p.width.counterMax : Nat) : Int) ≤ ticksAt clkHz f d := fun d hd =>
    chainLimit_le_ticksAt_of_not_fits p (hskipped d hd)
  rcases chooseDivider_cases clkHz p f first rest with ⟨before, after, hcut, hbefore, hfits⟩ | ⟨hnone, hlast⟩
  · have hshort := (chainFits_iff ..).mp hfits
    refine .inl ⟨by omega, fun d hd hlt => ?_⟩
    rw [hdivs, hcut, ← List.append_assoc] at hd hsorted
    obtain ⟨_, hafter, _⟩ := List.pairwise_append.mp hsorted
    rcases List.mem_append.mp hd with hd | hd
    · rcases List.mem_append.mp hd with hd | hd
      · exact hlong d hd
      · exact (chainFits_eq_false_iff ..).mp (hbefore d hd)
    · rcases List.mem_cons.mp hd with rfl | hd
      · exact absurd hlt (lt_irrefl _)
      · exact absurd hlt (List.rel_of_pairwise_cons hafter hd).asymm
  · refine .inr ⟨?_, fun d hd => ?_⟩
    · rw [hdivs, List.getLast?_append_of_ne_nil _ (List.cons_ne_nil _ _), hlast]
    · rw [hdivs] at hd
      rcases List.mem_append.mp hd with hd | hd
      · exact hlong d hd
      · exact (chainFits_eq_false_iff ..).mp (hnone d hd)

/-! ## The rejections -/

/-- When the mapper rejects for a reason, in the order of its checks (40_frequency_mapper.md R119). -/
def RejectedFor (clkHz : Nat) (p : ChannelParams) (f : Freq) : RejectReason → Prop
  | .zeroOperand => f.num = 0#32 ∨ f.den = 0#32
  | .belowGuard => f.num ≠ 0#32 ∧ f.den ≠ 0#32 ∧ 429496 * f.num.toNat < 25 * f.den.toNat
  | .noFit => f.num ≠ 0#32 ∧ f.den ≠ 0#32 ∧ 25 * f.den.toNat ≤ 429496 * f.num.toNat ∧
      ∀ d ∈ p.divs, ((2 ^ 32 - 1 : Nat) : Int) < ticksAt clkHz f d
  | .tooHigh => f.num ≠ 0#32 ∧ f.den ≠ 0#32 ∧ 25 * f.den.toNat ≤ 429496 * f.num.toNat ∧
      ∃ first rest, p.divs.dropWhile (fun d => !fitsAccumulator clkHz f d) = first :: rest ∧
        ticksAt clkHz f (chooseDivider clkHz p f first rest) < 0

theorem belowGuard_iff (f : Freq) : belowGuard f = true ↔ 429496 * f.num.toNat < 25 * f.den.toNat :=
  decide_eq_true_iff

/-- A rejection passes every check before its own (40_frequency_mapper.md R119). -/
theorem rejectedFor_of_mapFrequency {clkHz : Nat} {p : ChannelParams} {f : Freq} {reason : RejectReason}
    (h : mapFrequency clkHz p f = .reject reason) : RejectedFor clkHz p f reason := by
  unfold mapFrequency at h
  split at h
  next hzero => cases h; exact hzero
  next hzero =>
    obtain ⟨hn, hd⟩ := not_or.mp hzero
    split at h
    next hguard => cases h; exact ⟨hn, hd, (belowGuard_iff f).mp hguard⟩
    next hguard =>
      have habove := not_lt.mp (mt (belowGuard_iff f).mpr hguard)
      split at h
      next hnil => cases h; exact ⟨hn, hd, habove, (dropWhile_eq_nil_iff_overflow clkHz p f).mp hnil⟩
      next first rest hstart =>
        dsimp only at h
        split at h <;> cases h
        next hneg => exact ⟨hn, hd, habove, first, rest, hstart, hneg⟩

theorem mapFrequency_of_rejectedFor {clkHz : Nat} {p : ChannelParams} {f : Freq} {reason : RejectReason}
    (h : RejectedFor clkHz p f reason) : mapFrequency clkHz p f = .reject reason := by
  unfold mapFrequency
  cases reason with
  | zeroOperand => exact if_pos h
  | belowGuard =>
    obtain ⟨hn, hd, hguard⟩ := h
    rw [if_neg (not_or.mpr ⟨hn, hd⟩), if_pos ((belowGuard_iff f).mpr hguard)]
  | noFit =>
    obtain ⟨hn, hd, hguard, hover⟩ := h
    rw [if_neg (not_or.mpr ⟨hn, hd⟩), if_neg (mt (belowGuard_iff f).mp hguard.not_gt),
      (dropWhile_eq_nil_iff_overflow clkHz p f).mpr hover]
  | tooHigh =>
    obtain ⟨hn, hd, hguard, first, rest, hstart, hneg⟩ := h
    rw [if_neg (not_or.mpr ⟨hn, hd⟩), if_neg (mt (belowGuard_iff f).mp hguard.not_gt), hstart]
    exact if_pos hneg

theorem mapFrequency_reject_iff {clkHz : Nat} {p : ChannelParams} {f : Freq} {reason : RejectReason} :
    mapFrequency clkHz p f = .reject reason ↔ RejectedFor clkHz p f reason :=
  ⟨rejectedFor_of_mapFrequency, mapFrequency_of_rejectedFor⟩

/-- Where one divider of the table gives -1 ticks, the search starts at the smallest and stays there. -/
theorem search_of_neg {clkHz : Nat} {p : ChannelParams} {f : Freq} {d first : Nat} {rest : List Nat} (hp : p.valid)
    (hf : f.num ≠ 0#32) (hdivs : p.divs = first :: rest) (hd : d ∈ p.divs) (h : ticksAt clkHz f d < 0) :
    p.divs.dropWhile (fun d => !fitsAccumulator clkHz f d) = first :: rest ∧
      chooseDivider clkHz p f first rest = first := by
  have hfirst := ticksAt_lt_of_neg hp hf hd (hdivs ▸ List.mem_cons_self) h
  have haccumulator : fitsAccumulator clkHz f first = true := (fitsAccumulator_iff ..).mpr (by omega)
  have hchain : chainFits clkHz p f first = true := by
    have := counterMax_cases p.width
    exact (chainFits_iff ..).mpr (by omega)
  rw [hdivs, List.dropWhile_cons_of_neg (by simp [haccumulator]), chooseDivider, List.find?_cons_of_pos hchain]
  exact ⟨rfl, rfl⟩

/-- `TooHigh` is decided at the smallest divider (40_frequency_mapper.md R118). -/
theorem search_neg_iff {clkHz : Nat} {p : ChannelParams} {f : Freq} (hp : p.valid) (hf : f.num ≠ 0#32) :
    (∃ first rest, p.divs.dropWhile (fun d => !fitsAccumulator clkHz f d) = first :: rest ∧
        ticksAt clkHz f (chooseDivider clkHz p f first rest) < 0) ↔
      ∃ d rest, p.divs = d :: rest ∧ clkHz * f.den.toNat < f.num.toNat * d := by
  have ⟨hlen, _, _, hrange⟩ := hp
  obtain ⟨d, tail, hdivs⟩ := List.exists_cons_of_length_pos hlen
  have hd : d ∈ p.divs := hdivs ▸ List.mem_cons_self
  have hslow := ticksAt_neg_iff clkHz hf (hrange d hd).1
  constructor
  · rintro ⟨first, rest, hstart, hneg⟩
    obtain ⟨skipped, hcut, _, _⟩ := dropWhile_cons hstart
    have hmem : chooseDivider clkHz p f first rest ∈ p.divs :=
      hcut ▸ List.mem_append_right skipped (chooseDivider_mem ..)
    obtain ⟨hall, hchosen⟩ := search_of_neg hp hf hdivs hmem hneg
    obtain ⟨rfl, rfl⟩ := List.cons.inj (hstart.symm.trans hall)
    exact ⟨first, rest, hdivs, hslow.mp (hchosen ▸ hneg)⟩
  · rintro ⟨d', rest, hdivs', hlt⟩
    obtain ⟨rfl, rfl⟩ := List.cons.inj (hdivs.symm.trans hdivs')
    obtain ⟨hall, hchosen⟩ := search_of_neg hp hf hdivs hd (hslow.mpr hlt)
    exact ⟨d, tail, hall, hchosen.symm ▸ hslow.mpr hlt⟩

/-- Settles O27: `mapFrequency_reject_iff` for each reason, `TooHigh` by `search_neg_iff`. -/
theorem mapperRejectsExactlyWhen : Obligations.MapperRejectsExactlyWhen := by
  refine fun clkHz p f hp =>
    ⟨mapFrequency_reject_iff, mapFrequency_reject_iff, mapFrequency_reject_iff, mapFrequency_reject_iff.trans ?_⟩
  exact and_congr_right fun hn => and_congr_right' (and_congr_right' (search_neg_iff hp hn))

/-! ## The longest interval -/

/-- The guard's bound at the numerator 1000 of an interval: 17,179,840 is 429496 * 1000 / 25 (R113, R123). -/
theorem intervalToFreq_belowGuard_iff (m : Word) :
    429496 * (intervalToFreq m).num.toNat < 25 * (intervalToFreq m).den.toNat ↔ 17179840 < m.toNat := by
  change 429496 * 1000 < 25 * m.toNat ↔ 17179840 < m.toNat
  omega

/-- Settles O28: the guard rejects by `mapFrequency_reject_iff`, and two runs of the mapper. -/
theorem longestInterval : Obligations.LongestInterval := by
  refine ⟨fun clkHz p m hm => mapFrequency_reject_iff.trans ?_, by decide, by decide⟩
  have hnum : (intervalToFreq m).num ≠ 0#32 := show 1000#32 ≠ 0#32 by decide
  exact ⟨fun ⟨_, _, hguard⟩ => (intervalToFreq_belowGuard_iff m).mp hguard,
    fun hlong => ⟨hnum, hm, (intervalToFreq_belowGuard_iff m).mpr hlong⟩⟩

/-! ## The command MAP (R122) -/

theorem mapOrReject_reject {s : State} {k : Channel} {f : Freq} {reason : RejectReason}
    (h : mapFrequency s.clkHz k.cfg f = .reject reason) : mapOrReject s k f = .error .rejectedFrequency := by
  rw [mapOrReject, h]

/-- Every failure writes `RESULT` alone, in the spelling of 60_exceptions.md R230. -/
theorem raise_eq_failResult (s : State) (e : CommandError) :
    s.raise e = { s with result := failResult e.code.toNat } := by
  rw [State.raise, failResult_eq]

theorem exec_map_ok {s : State} {ch : ChannelId} {k : Channel} {div ticks : Nat}
    (hk : s.channels[ch.toNat]? = some k) (h : mapFrequency s.clkHz k.cfg (freqOperand s) = .ok div ticks) :
    exec (.map ch) s = .next ((s.noteMap div ticks).succeed ch.toNat) := by
  change finishCommand s (mapCommand ch s) = _
  simp only [mapCommand, checkId_some hk, mapOrReject_ok h, finishCommand_ok]

theorem exec_map_reject {s : State} {ch : ChannelId} {k : Channel} {reason : RejectReason}
    (hk : s.channels[ch.toNat]? = some k) (h : mapFrequency s.clkHz k.cfg (freqOperand s) = .reject reason) :
    exec (.map ch) s = .next (s.raise .rejectedFrequency) := by
  change finishCommand s (mapCommand ch s) = _
  simp only [mapCommand, checkId_some hk, mapOrReject_reject h, finishCommand_error]

/-- Settles O29: the three ways MAP ends. -/
theorem mapReportsTheMapping : Obligations.MapReportsTheMapping := by
  refine fun s ch => ⟨fun k div ticks hk h => ?_, fun hch => ?_, fun k reason hk h => ?_⟩
  · rw [exec_map_ok hk h, State.succeed, okResult_channelId]
    rfl
  · rw [exec_missingChannel rfl hch, raise_eq_failResult]
    rfl
  · rw [exec_map_reject hk h, raise_eq_failResult]
    rfl

end Sys2Proof.Machine

/-! # One step of the IntervalRunner (41_interval_runner.md)

What a scheduled ELAPSE and a scheduled TICK do, enabled or not, and where a callback can come from. -/

namespace Sys2Proof.Machine

/-! ## Enabling conditions (R145, R148) -/

theorem Channel.elapseEnabled_iff (k : Channel) :
    k.elapseEnabled = true ↔ k.callback ≠ 0#32 ∧ k.enabled = true ∧ k.paused = false ∧ k.pending = false := by
  simp [Channel.elapseEnabled, Channel.bound, and_assoc]

theorem Channel.tickEnabled_iff (k : Channel) : k.tickEnabled = true ↔ k.pending = true ∧ k.enabled = true := by
  simp [Channel.tickEnabled]

theorem elapseStep_enabled {s : State} {c : Nat} {k : Channel} (hk : s.channels[c]? = some k)
    (he : k.elapseEnabled = true) : elapseStep c s = s.applyRun c (ChannelRun.start k.elapse) := by
  simp [elapseStep, hk, he]

theorem elapseStep_disabled {s : State} {c : Nat} {k : Channel} (hk : s.channels[c]? = some k)
    (he : ¬ k.elapseEnabled = true) : elapseStep c s = s := by
  simp [elapseStep, hk, he]

theorem elapseStep_missing {s : State} {c : Nat} (h : s.channels.length ≤ c) : elapseStep c s = s := by
  simp [elapseStep, List.getElem?_eq_none h]

theorem tickStep_disabled {s : State} {c : Nat} {k : Channel} (hk : s.channels[c]? = some k)
    (he : ¬ k.tickEnabled = true) : tickStep c s = s := by
  simp [tickStep, hk, he]

theorem tickStep_missing {s : State} {c : Nat} (h : s.channels.length ≤ c) : tickStep c s = s := by
  simp [tickStep, List.getElem?_eq_none h]

/-- A scheduled ELAPSE that is enabled sets `PENDING` and emits nothing. -/
theorem step_elapse_enabled {s : State} {c : Nat} {k : Channel} {rest : List Action}
    (hs : s.schedule = .elapse c :: rest) (hk : s.channels[c]? = some k) (he : k.elapseEnabled = true) :
    step s = .next { s with schedule := rest, channels := s.channels.set c k.elapse } := by
  rw [step_elapse hs, elapseStep_enabled (s := { s with schedule := rest }) hk he]
  simp only [State.applyRun, ChannelRun.start, List.map_nil, List.append_nil]

/-- A scheduled TICK that is enabled runs the channel's tick. -/
theorem step_tick_enabled {s : State} {c : Nat} {k : Channel} {rest : List Action}
    (hs : s.schedule = .tick c :: rest) (hk : s.channels[c]? = some k) (he : k.tickEnabled = true) :
    step s = .next (({ s with schedule := rest } : State).applyRun c k.tick) := by
  rw [step_tick hs, tickStep_enabled (s := { s with schedule := rest }) hk he]

/-- Settles O43: the two sides of the enabling condition, and an id beyond the last channel. -/
theorem elapseSetsPendingWhenEnabled : Obligations.ElapseSetsPendingWhenEnabled := by
  intro s c rest hs
  refine ⟨fun k hk => ⟨fun h => step_elapse_enabled hs hk (k.elapseEnabled_iff.mpr h), fun h => ?_⟩, fun h => ?_⟩
  · rw [step_elapse hs, elapseStep_disabled (s := { s with schedule := rest }) hk (mt k.elapseEnabled_iff.mp h)]
  · rw [step_elapse hs, elapseStep_missing (s := { s with schedule := rest }) h]

/-- Settles O44: a channel whose TICK is not enabled, and an id beyond the last channel. -/
theorem tickIsTakenOnlyWhenEnabled : Obligations.TickIsTakenOnlyWhenEnabled := by
  intro s c rest hs
  rw [step_tick hs]
  refine ⟨fun k hk h => ?_, fun h => ?_⟩
  · rw [tickStep_disabled (s := { s with schedule := rest }) hk (mt k.tickEnabled_iff.mp h)]
  · rw [tickStep_missing (s := { s with schedule := rest }) h]

/-! ## An enabled TICK, case by case (R150 to R156) -/

/-- What TICK programs inside a period, in the arithmetic of R151; the interrupt is enabled already. -/
theorem tick_inside {k : Channel} (he : k.enabled = true) (hr : k.repeats ≠ 0#32) (hd : k.done = false) :
    k.tick = { chan := { k with
                           pending := false,
                           remaining := BitVec.ofNat 32 (k.remaining.toNat - min k.cm k.remaining.toNat),
                           cmp := BitVec.ofNat 16 (min k.cm k.remaining.toNat),
                           done := decide (k.remaining.toNat ≤ k.cm) },
               events := [.port (.armNextChunk (BitVec.ofNat 16 (min k.cm k.remaining.toNat))),
                 .port .enableInterrupt] } := by
  have hdone : doneFlag (ticksAfter k.remaining (k.chunk k.remaining)) = decide (k.remaining.toNat ≤ k.cm) :=
    doneFlag_ticksAfter { k with fullTicks := k.remaining }
  rw [tick_intermediate k hr hd, hdone, ticksAfter, chunk_toNat, ← he]
  rfl

/-- The reload of a channel whose interrupt is enabled already (R155). -/
theorem tick_reload_of_enabled {k : Channel} (he : k.enabled = true) (h0 : k.repeats ≠ 0#32) (h1 : k.repeats ≠ 1#32)
    (hd : k.done = true) :
    k.tick = { chan := { k.opened with repeats := countAfterCallback k.repeats, pending := false },
               events := [.callback k.callback k.hasArg k.arg,
                 .port (.armNextChunk (BitVec.ofNat 16 k.firstChunk)), .port .enableInterrupt] } := by
  rw [tick_reload k h0 h1 hd, ← he]
  rfl

/-- Settles O45, by `tick_inside`. -/
theorem tickInsideAPeriod : Obligations.TickInsideAPeriod := by
  intro s c k rest hs hk hpending henabled hr hd
  rw [step_tick_enabled hs hk (k.tickEnabled_iff.mpr ⟨hpending, henabled⟩), tick_inside henabled hr hd]
  rfl

/-- The decrement of R153 as signed arithmetic, on a count that is not 0. -/
theorem countAfterCallback_eq {r : Word} (h : 1 < r.toInt ∨ r.toInt < 0) :
    countAfterCallback r = if r.toInt < 0 then r else BitVec.ofInt 32 (r.toInt - 1) := by
  rcases h with h | h
  · rw [countAfterCallback, if_pos (by omega), if_neg (by omega)]
    apply BitVec.eq_of_toInt_eq
    rw [BitVec.toInt_sub, BitVec.toInt_ofInt]
    rfl
  · rw [countAfterCallback, if_neg (by omega), if_pos h]

/-- Settles O46, by `tick_reload_of_enabled`. -/
theorem tickEndsAPeriodAndReloads : Obligations.TickEndsAPeriodAndReloads := by
  intro s c k rest hs hk hpending henabled hd hcount
  have h0 : k.repeats ≠ 0#32 := by rintro h; simp [h] at hcount
  have h1 : k.repeats ≠ 1#32 := by rintro h; simp [h] at hcount
  rw [step_tick_enabled hs hk (k.tickEnabled_iff.mpr ⟨hpending, henabled⟩), tick_reload_of_enabled henabled h0 h1 hd,
    countAfterCallback_eq hcount]
  rfl

theorem map_ungateEvents (c : Nat) (k : Channel) :
    (bif k.paused then [Emission.port .ungateClock] else []).map (Event.channel c) = ungateEvents c k := by
  cases hp : k.paused <;> simp [ungateEvents, hp]

/-- Settles O47, by the two ways TICK releases. -/
theorem tickReleasesAnExhaustedChannel : Obligations.TickReleasesAnExhaustedChannel := by
  intro s c k rest hs hk hpending henabled
  rw [step_tick_enabled hs hk (k.tickEnabled_iff.mpr ⟨hpending, henabled⟩)]
  refine ⟨fun h0 => ?_, fun h1 hd => ?_⟩
  · rw [tick_exhausted k h0]
    simp only [State.applyRun, afterRelease, releaseEvents, List.map_append, map_ungateEvents]
    rfl
  · rw [tick_last k h1 hd]
    simp only [State.applyRun, afterRelease, releaseEvents, List.map_append, map_ungateEvents]
    rfl

/-- The ticks a new period leaves for later chunks (R142). -/
theorem Channel.opened_remaining_toNat (k : Channel) : k.opened.remaining.toNat = k.fullTicks.toNat - k.firstChunk := by
  have := k.fullTicks.isLt
  exact Nat.mod_eq_of_lt (by omega)

/-- The chunk in flight of a new period (R142). -/
theorem Channel.opened_cmp_toNat (k : Channel) : k.opened.cmp.toNat = k.firstChunk :=
  Nat.mod_eq_of_lt ((firstChunk_le k).trans_lt (counterMax_lt _))

/-- Settles O49: a first chunk of the whole period leaves nothing. -/
theorem shortPeriodsAreOneChunk : Obligations.ShortPeriodsAreOneChunk := by
  intro k hle
  have hfirst : k.firstChunk = k.fullTicks.toNat := Nat.min_eq_right hle
  have hrem : k.opened.remaining = 0#32 := by simp [Channel.opened, hfirst]
  have hdone : k.opened.done = true := decide_eq_true hle
  have hcmp : k.opened.cmp.toNat = k.fullTicks.toNat := k.opened_cmp_toNat.trans hfirst
  refine ⟨?_, fun hd h0 h1 => ?_⟩
  · rw [arm_eq]
    exact ⟨hrem, hdone, hcmp⟩
  · rw [tick_reload k h0 h1 hd]
    exact ⟨hrem, hdone, hcmp, rfl⟩

/-! ## Where a callback comes from (R152, R166) -/

/-- The run has emitted port actions alone. -/
def ChannelRun.PortsOnly (r : ChannelRun) : Prop := ∀ e ∈ r.events, ∃ op, e = .port op

namespace ChannelRun.PortsOnly

variable {r : ChannelRun}

theorem start (k : Channel) : (ChannelRun.start k).PortsOnly := by simp [ChannelRun.PortsOnly]

theorem write (h : r.PortsOnly) (k : Channel) : (r.write k).PortsOnly := h

theorem port (h : r.PortsOnly) (op : PortOp) : (r.port op).PortsOnly := by
  intro e he
  rcases List.mem_append.mp he with hold | hnew
  · exact h e hold
  · exact ⟨op, List.mem_singleton.mp hnew⟩

theorem ungateIfPaused (h : r.PortsOnly) : r.ungateIfPaused.PortsOnly := by
  unfold ChannelRun.ungateIfPaused
  cases r.chan.paused with
  | true => exact h.port _
  | false => exact h

theorem gateIfRunning (h : r.PortsOnly) : r.gateIfRunning.PortsOnly := by
  unfold ChannelRun.gateIfRunning
  cases r.chan.paused with
  | true => exact h
  | false => exact h.port _

theorem arm (h : r.PortsOnly) : r.arm.PortsOnly := (((h.write _).port _).port _).port _

theorem release (h : r.PortsOnly) : r.release.PortsOnly := ((h.port _).port _).ungateIfPaused.write _

theorem callbacksOf_eq_zero (h : r.PortsOnly) (c d : Nat) : callbacksOf c (r.events.map (Event.channel d)) = 0 := by
  unfold callbacksOf
  rw [List.countP_eq_zero]
  intro e he
  obtain ⟨x, hx, rfl⟩ := List.mem_map.mp he
  obtain ⟨op, rfl⟩ := h x hx
  simp [Event.isCallbackOf]

end ChannelRun.PortsOnly

/-- No command calls back. -/
theorem commandRun_portsOnly (i : Instr) (s : State) (k : Channel) (div ticks : Nat) :
    (commandRun i s k div ticks).PortsOnly := by
  cases i with
  | map _ => exact .start k
  | bind _ _ _ => exact ((ChannelRun.PortsOnly.start k).ungateIfPaused.write _).arm
  | bindInterval _ _ _ => exact ((ChannelRun.PortsOnly.start k).ungateIfPaused.write _).arm
  | stop _ => exact (ChannelRun.PortsOnly.start k).release
  | pause _ => exact (ChannelRun.PortsOnly.start k).gateIfRunning
  | resume _ => exact (ChannelRun.PortsOnly.start k).ungateIfPaused
  | restart _ _ => exact (ChannelRun.PortsOnly.start _).arm
  | changeFrequency _ => exact (ChannelRun.PortsOnly.start _).arm
  | changeInterval _ => exact (ChannelRun.PortsOnly.start _).arm

theorem callbacksOf_exec {i : Instr} {s t : State} (h : exec i s = .next t) (c : Nat) :
    callbacksOf c t.history = callbacksOf c s.history := by
  rcases exec_cases h with ⟨e, rfl⟩ | ⟨d, k, div, ticks, hok⟩
  · rfl
  · rw [hok.history, callbacksOf_append, (commandRun_portsOnly i s k div ticks).callbacksOf_eq_zero, Nat.add_zero]

/-- A completion is no callback. -/
theorem callbacksOf_emitDone (c : Nat) (s : State) (w : Word) :
    callbacksOf c (s.emitDone w).history = callbacksOf c s.history :=
  callbacksOf_not_isOf (by simp [Event.isOf])

theorem callbacksOf_writeWindow {off : Nat} {v : Word} {s t : State} (h : writeWindow off v s = .next t) (c : Nat) :
    callbacksOf c t.history = callbacksOf c s.history := by
  rcases writeWindow_cases h with rfl | rfl | rfl | rfl | rfl | rfl | hw
  on_goal 7 =>
    obtain ⟨u, rfl, hu⟩ := writeCommand_cases hw
    rw [callbacksOf_emitDone]
    rcases hu with ⟨_, rfl⟩ | ⟨i, _, hi⟩
    · rfl
    · exact callbacksOf_exec hi c
  all_goals rfl

/-- Only an enabled TICK of the channel can add a callback of it; every other step keeps the count or empties the
history. -/
theorem step_callback_cases {s t : State} (h : step s = .next t) (c : Nat) :
    callbacksOf c t.history ≤ callbacksOf c s.history ∨
      ∃ k rest, s.schedule = .tick c :: rest ∧ s.channels[c]? = some k ∧ k.tickEnabled = true ∧
        t = ({ s with schedule := rest } : State).applyRun c k.tick := by
  rcases step_cases h with ⟨_, rfl⟩ | ⟨a, rest, hs, ha⟩
  · exact .inl le_rfl
  rcases ha with ⟨off, v, _, rfl⟩ | ⟨off, v, _, _, hw⟩ | ⟨d, _, rfl⟩ | ⟨d, rfl, rfl⟩ | ⟨_, rfl⟩
  · exact .inl le_rfl
  · exact .inl (callbacksOf_writeWindow hw c).le
  · left
    rcases elapseStep_cases d { s with schedule := rest } with he | ⟨k, _, _, he⟩ <;> rw [he]
    simp [ChannelRun.start]
  · rcases tickStep_cases d { s with schedule := rest } with he | ⟨k, hk, hen, he⟩ <;> rw [he]
    · exact .inl le_rfl
    by_cases hd : d = c
    · subst hd
      exact .inr ⟨k, rest, hs, hk, hen, rfl⟩
    · left
      rw [State.applyRun_history, callbacksOf_append, callbacksOf_other hd, Nat.add_zero]
  · exact .inl (Nat.zero_le _)

/-- A period just opened has its ticks in the chunk in flight and in `REMAINING`, and `DONE` says whether any remain
(R142). -/
theorem Channel.opened_split (k : Channel) :
    (k.opened.done = true ↔ k.opened.remaining = 0#32) ∧
      k.opened.remaining.toNat + k.opened.cmp.toNat = k.fullTicks.toNat := by
  rw [← BitVec.toNat_inj, k.opened_remaining_toNat, k.opened_cmp_toNat]
  simp only [Channel.opened, Channel.firstChunk, BitVec.toNat_ofNat, Nat.zero_mod, decide_eq_true_eq]
  omega

/-- Settles O48: the one step that can add a callback is a TICK, and `callbacksOf_tick` says when it does. -/
theorem callbackOnlyAtTheEndOfAPeriod : Obligations.CallbackOnlyAtTheEndOfAPeriod := by
  intro s t c h hlt
  rcases step_callback_cases h c with hle | ⟨k, rest, hs, hk, hen, rfl⟩
  · exact absurd hlt (Nat.not_lt.mpr hle)
  obtain ⟨hpending, henabled⟩ := k.tickEnabled_iff.mp hen
  obtain ⟨hc, _⟩ := List.getElem?_eq_some_iff.mp hk
  rw [State.applyRun_history, callbacksOf_append, callbacksOf_tick] at hlt ⊢
  by_cases hend : k.repeats ≠ 0#32 ∧ k.done = true
  · obtain ⟨h0, hd⟩ := hend
    refine ⟨k, rest, hs, hk, hd, hpending, henabled, by rw [if_pos ⟨h0, hd⟩], ?_⟩
    rw [State.applyRun_channels, List.getElem?_set_self hc]
    by_cases h1 : k.repeats = 1#32
    · rw [tick_last k h1 hd]
      exact .inl rfl
    · rw [tick_reload k h0 h1 hd]
      exact .inr ⟨_, rfl, k.opened_split⟩
  · rw [if_neg hend] at hlt
    exact absurd hlt (lt_irrefl _)

/-! ## Commands and the pending event (R141, R159) -/

theorem arm_pending (r : ChannelRun) : r.arm.chan.pending = false := by
  rw [arm_eq]
  rfl

theorem release_pending (r : ChannelRun) : r.release.chan.pending = false := by
  rw [release_eq]
  rfl

/-- A command that arms or releases its channel leaves no event pending on it. -/
theorem commandRun_pending {i : Instr} (h : dropsPending i = true) (s : State) (k : Channel) (div ticks : Nat) :
    (commandRun i s k div ticks).chan.pending = false := by
  cases i with
  | bind _ _ _ => exact arm_pending _
  | bindInterval _ _ _ => exact arm_pending _
  | stop _ => exact release_pending _
  | restart _ _ => exact arm_pending _
  | changeFrequency _ => exact arm_pending _
  | changeInterval _ => exact arm_pending _
  | map _ => cases h
  | pause _ => cases h
  | resume _ => cases h

/-- Settles O17: `CHSEL` names the channel the command has armed or released. -/
theorem rearmingAndStoppingDropThePendingEvent : Obligations.RearmingAndStoppingDropThePendingEvent := by
  intro i s t k' hn h hi hstatus hk'
  rcases exec_result_cases h with ⟨_, _, hfail, _⟩ | ⟨c, k, div, ticks, hok, _, hsel⟩
  · exact absurd hstatus hfail
  · obtain ⟨hc, _⟩ := List.getElem?_eq_some_iff.mp hok.found
    rw [hsel, ofNat_channelId_toNat hn hok.found, hok.channels, List.getElem?_set_self hc] at hk'
    rw [← Option.some.inj hk']
    exact commandRun_pending hi s k div ticks

/-- STOP of a free channel is `InvalidChannel` (42_host_commands.md R181). -/
theorem exec_stop_free {s : State} {ch : ChannelId} {k : Channel} (hk : s.channels[ch.toNat]? = some k)
    (hb : k.callback = 0#32) : exec (.stop ch) s = .next (s.raise .invalidChannel) := by
  simp [exec, execStop, boundCommand, checkBound_free hk hb]

/-- Settles O58: the TICK of the last repetition frees the channel, and the STOP after it finds it free. -/
theorem stopAfterTheLastCallbackIsInvalid : Obligations.StopAfterTheLastCallbackIsInvalid := by
  intro s k ch rest hk hch hpending henabled h1 hd hs
  obtain ⟨hc, _⟩ := List.getElem?_eq_some_iff.mp hk
  have htick := step_tick_enabled hs hk (k.tickEnabled_iff.mpr ⟨hpending, henabled⟩)
  generalize hu : ({ s with schedule := commandWrite (encode (.stop ch)) :: rest } : State).applyRun ch.toNat k.tick = u
    at htick
  have hfree : u.channels[ch.toNat]? = some (Channel.free k.cfg) := by
    rw [← hu, State.applyRun_channels, List.getElem?_set_self hc, tick_last k h1 hd]
  have hstop : step u = .next _ :=
    (step_commandWrite (rest := rest) (by rw [← hu]; rfl)).trans
      (writeCommand_decoded (decode_encode_stop hch) (exec_stop_free hfree rfl))
  exact ⟨_, (run_succ 1 htick).trans (run_succ 0 hstop), failResult_eq _, hfree⟩

end Sys2Proof.Machine

/-! # TICK after TICK on one channel (R160 to R163)

`TickedTo n k k' es` says that `n` TICKs take the channel `k` to `k'` and emit `es`, each from a channel on which
ELAPSE and TICK alternate. What a period, a finite count and an endless one do is said here of channels alone; a
schedule that takes each event at once, and a fair behaviour, then both realise such a sequence. -/

namespace Sys2Proof.Machine

/-! ## The position inside a period -/

/-- `DONE` is set exactly when nothing remains (10_state.md R39(b)). -/
def Channel.Counted (k : Channel) : Prop := k.done = true ↔ k.remaining = 0#32

/-- The TICKs up to and with the next callback: one for each chunk still to be programmed, and the one that ends the
period. -/
def Channel.ticksLeft (k : Channel) : Nat := (k.remaining.toNat + k.cm - 1) / k.cm + 1

/-- The channel as it was when its period was opened, with nothing pending. -/
def Channel.rewound (k : Channel) : Channel := { k.opened with pending := false }

theorem Channel.opened_counted (k : Channel) : k.opened.Counted := k.opened_split.1

theorem Channel.rewound_counted (k : Channel) : k.rewound.Counted := k.opened_counted

/-- `n = max(1, ceil(FULLTICKS / CM))` is the number of TICKs from the opening of a period to its callback (R161). -/
theorem Channel.ticksLeft_opened (k : Channel) : k.opened.ticksLeft = k.ticksPerPeriod := by
  rw [Channel.ticksLeft, Channel.ticksPerPeriod, opened_remaining_toNat]
  change (k.fullTicks.toNat - min k.cm k.fullTicks.toNat + k.cm - 1) / k.cm + 1 = _
  rcases counterMax_cases k.cfg.width with h | h <;> rw [Channel.cm, h] <;> omega

theorem Channel.ticksLeft_rewound (k : Channel) : k.rewound.ticksLeft = k.ticksPerPeriod := k.ticksLeft_opened

theorem Channel.Counted.done_iff {k : Channel} (hc : k.Counted) : k.done = true ↔ k.ticksLeft = 1 := by
  refine Iff.trans hc ?_
  rw [← BitVec.toNat_inj, Channel.ticksLeft]
  rcases counterMax_cases k.cfg.width with h | h <;> rw [Channel.cm, h] <;>
    simp only [BitVec.toNat_ofNat, Nat.zero_mod] <;> omega

/-- A TICK inside a period is one TICK nearer to the callback, in the same period. -/
theorem tick_inside_progress {k : Channel} (hc : k.Counted) (hr : k.repeats ≠ 0#32) (hd : k.done = false) :
    k.ticksLeft = k.tick.chan.ticksLeft + 1 ∧ k.tick.chan.Counted ∧
      k.tick.chan.ticksPerPeriod = k.ticksPerPeriod ∧ k.tick.chan.repeats = k.repeats := by
  have hpos : k.remaining.toNat ≠ 0 := by
    intro h0
    rw [hc.mpr (BitVec.eq_of_toNat_eq h0)] at hd
    cases hd
  have hleft : k.tick.chan.remaining.toNat = k.remaining.toNat - min k.cm k.remaining.toNat := by
    rw [tick_intermediate k hr hd, ← chunk_toNat]
    exact ticksAfter_toNat _ _
  refine ⟨?_, ?_, ?_, ?_⟩
  · rw [Channel.ticksLeft, Channel.ticksLeft, hleft, Channel.cm, Channel.cm, tick_cfg]
    rcases counterMax_cases k.cfg.width with h | h <;> rw [h] <;> omega
  all_goals rw [tick_intermediate k hr hd]
  · exact doneFlag_eq_true_iff _
  · rfl

/-! ## Channels on which ELAPSE and TICK alternate -/

/-- The channel is bound, its interrupt is enabled and its clock runs: ELAPSE or TICK is enabled (R145, R148). -/
structure Channel.Live (k : Channel) : Prop where
  bound : k.callback ≠ 0#32
  enabled : k.enabled = true
  running : k.paused = false

/-- What a live channel is in the course of its period is live. -/
theorem Channel.Live.of_rewound_eq {k k' : Channel} (h : k.Live) (he : k'.rewound = k.rewound) : k'.Live where
  bound := by
    have := congrArg Channel.callback he
    exact this.trans_ne h.bound
  enabled := by
    have := congrArg Channel.enabled he
    exact this.trans h.enabled
  running := by
    have := congrArg Channel.paused he
    exact this.trans h.running

theorem Channel.Live.tick_inside_rewound {k : Channel} (h : k.Live) (hr : k.repeats ≠ 0#32) (hd : k.done = false) :
    k.tick.chan.rewound = k.rewound := by
  rw [tick_inside h.enabled hr hd]
  rfl

/-- `n` TICKs, each of a live channel, take `k` to `k'` and emit `es`. -/
inductive TickedTo : Nat → Channel → Channel → List Emission → Prop
  | refl (k : Channel) : TickedTo 0 k k []
  | tick {n : Nat} {k k' : Channel} {es : List Emission} (h : k.Live) (hrest : TickedTo n k.tick.chan k' es) :
      TickedTo (n + 1) k k' (k.tick.events ++ es)

theorem TickedTo.one {k : Channel} (h : k.Live) : TickedTo 1 k k.tick.chan k.tick.events := by
  simpa using TickedTo.tick h (.refl _)

theorem TickedTo.trans {m n : Nat} {k k' k'' : Channel} {es es' : List Emission} (h : TickedTo m k k' es)
    (h' : TickedTo n k' k'' es') : TickedTo (m + n) k k'' (es ++ es') := by
  induction h with
  | refl k => simpa using h'
  | tick hl _ ih =>
    rw [Nat.add_right_comm, List.append_assoc]
    exact .tick hl (ih h')

/-! ## The TICKs inside a period (R151, R160) -/

/-- The events call nothing back and program `ticks` ticks into channel `c`, in chunks of at most `cm`. -/
structure ProgramsTicks (c cm ticks : Nat) (h : List Event) : Prop where
  silent : callbacksOf c h = 0
  sum : ticksProgrammed c h = ticks
  bounded : ∀ e ∈ h, e.chunkOf c ≤ cm

theorem ProgramsTicks.nil (c cm : Nat) : ProgramsTicks c cm 0 [] := ⟨rfl, rfl, by simp⟩

theorem ProgramsTicks.append {c cm m n : Nat} {h h' : List Event} (hm : ProgramsTicks c cm m h)
    (hn : ProgramsTicks c cm n h') : ProgramsTicks c cm (m + n) (h ++ h') where
  silent := by rw [callbacksOf_append, hm.silent, hn.silent]
  sum := by simp only [ticksProgrammed, List.map_append, List.sum_append, ← hm.sum, ← hn.sum]
  bounded e he := (List.mem_append.mp he).elim (hm.bounded e) (hn.bounded e)

/-- A TICK inside a period programs what it takes out of `REMAINING`. -/
theorem tick_inside_programs (c : Nat) {k : Channel} (hr : k.repeats ≠ 0#32) (hd : k.done = false) :
    ProgramsTicks c k.cm (k.remaining.toNat - k.tick.chan.remaining.toNat) (k.tick.events.map (Event.channel c)) := by
  have hle : (k.chunk k.remaining).toNat ≤ k.remaining.toNat := (chunk_toNat k _).trans_le (Nat.min_le_right _ _)
  have hcm : (k.chunk k.remaining).toNat ≤ k.cm := (chunk_toNat k _).trans_le (Nat.min_le_left _ _)
  constructor
  · rw [callbacksOf_tick, if_neg (by simp [hd])]
  · rw [tick_intermediate k hr hd, ticksAfter_toNat, Nat.sub_sub_self hle]
    simp [ticksProgrammed, Event.chunkOf]
  · rw [tick_intermediate k hr hd]
    simpa [Event.chunkOf] using hcm

/-- All TICKs of a period but the last: they program the rest of the period and call nothing back. -/
theorem ticks_inside_period (c : Nat) {n : Nat} {k : Channel} (hl : k.Live) (hc : k.Counted) (hr : k.repeats ≠ 0#32)
    (hn : k.ticksLeft = n + 1) :
    ∃ k' es, TickedTo n k k' es ∧ k'.done = true ∧ k'.rewound = k.rewound ∧
      ProgramsTicks c k.cm k.remaining.toNat (es.map (Event.channel c)) := by
  induction n generalizing k with
  | zero =>
    have hd : k.done = true := hc.done_iff.mpr hn
    refine ⟨k, [], .refl k, hd, rfl, ?_⟩
    rw [hc.mp hd]
    exact .nil c k.cm
  | succ n ih =>
    have hd : k.done = false := by
      rw [← Bool.not_eq_true, hc.done_iff]
      omega
    obtain ⟨hleft, hc', _, hr'⟩ := tick_inside_progress hc hr hd
    have hsame := hl.tick_inside_rewound hr hd
    obtain ⟨k', es, hticks, hdone, hrew, hprog⟩ :=
      ih (hl.of_rewound_eq hsame) hc' (hr'.trans_ne hr) (by omega)
    refine ⟨k', _, .tick hl hticks, hdone, hrew.trans hsame, ?_⟩
    rw [Channel.cm, tick_cfg] at hprog
    have hle : k.tick.chan.remaining.toNat ≤ k.remaining.toNat := by
      rw [tick_intermediate k hr hd]
      exact (ticksAfter_toNat _ _).trans_le (Nat.sub_le _ _)
    have hall := (tick_inside_programs c hr hd).append hprog
    rwa [Nat.sub_add_cancel hle, ← List.map_append] at hall

/-! ## Whole periods (R153 to R155, R161 to R163) -/

/-- The channel after the TICK that ends its period. -/
def Channel.afterPeriod (k : Channel) : Channel :=
  if k.repeats = 1#32 then Channel.free k.cfg else { k.rewound with repeats := countAfterCallback k.repeats }

theorem tick_end_chan {k : Channel} (hl : k.Live) (hr : k.repeats ≠ 0#32) (hd : k.done = true) :
    k.tick.chan = k.afterPeriod := by
  unfold Channel.afterPeriod
  split
  next h1 => rw [tick_last k h1 hd]
  next h1 =>
    rw [tick_reload_of_enabled hl.enabled hr h1 hd]
    rfl

theorem Channel.afterPeriod_congr {k k' : Channel} (h : k'.rewound = k.rewound) : k'.afterPeriod = k.afterPeriod :=
  calc k'.afterPeriod = k'.rewound.afterPeriod := rfl
    _ = k.rewound.afterPeriod := by rw [h]
    _ = k.afterPeriod := rfl

/-- From anywhere in a period, the TICKs up to its end call back once. -/
theorem ticks_to_callback (c : Nat) {k : Channel} (hl : k.Live) (hc : k.Counted) (hr : k.repeats ≠ 0#32) :
    ∃ es, TickedTo k.ticksLeft k k.afterPeriod es ∧ callbacksOf c (es.map (Event.channel c)) = 1 := by
  obtain ⟨k', es, hticks, hd, hrew, hprog⟩ := ticks_inside_period c hl hc hr rfl
  have hl' : k'.Live := hl.of_rewound_eq hrew
  have hr' : k'.repeats ≠ 0#32 := (congrArg Channel.repeats hrew).trans_ne hr
  have hlast := TickedTo.one hl'
  rw [tick_end_chan hl' hr' hd, Channel.afterPeriod_congr hrew] at hlast
  refine ⟨_, hticks.trans hlast, ?_⟩
  rw [List.map_append, callbacksOf_append, hprog.silent, callbacksOf_tick, if_pos ⟨hr', hd⟩]

theorem Channel.Live.rewound {k : Channel} (hl : k.Live) : k.rewound.Live := ⟨hl.bound, hl.enabled, hl.running⟩

theorem afterPeriod_of_negative {k : Channel} (h : k.repeats.toInt < 0) : k.afterPeriod = k.rewound := by
  have h1 : k.repeats ≠ 1#32 := by
    rintro h1
    rw [h1] at h
    exact absurd h (by decide)
  rw [Channel.afterPeriod, if_neg h1, countAfterCallback, if_neg (by omega)]
  rfl

/-- A negative count never runs out: one callback a period, and the same period opens again (R163). -/
theorem ticks_forever (c periods : Nat) {k : Channel} (hl : k.Live) (hc : k.Counted) (hneg : k.repeats.toInt < 0) :
    ∃ es, TickedTo (k.ticksLeft + periods * k.ticksPerPeriod) k k.rewound es ∧
      callbacksOf c (es.map (Event.channel c)) = periods + 1 := by
  have h0 : k.repeats ≠ 0#32 := by
    rintro h0
    rw [h0] at hneg
    exact absurd hneg (by decide)
  induction periods generalizing k with
  | zero =>
    rw [Nat.zero_mul, Nat.add_zero, ← afterPeriod_of_negative hneg]
    exact ticks_to_callback c hl hc h0
  | succ p ih =>
    obtain ⟨es, hfirst, hone⟩ := ticks_to_callback c hl hc h0
    rw [afterPeriod_of_negative hneg] at hfirst
    obtain ⟨es', hrest, hcount⟩ := ih hl.rewound k.rewound_counted hneg h0
    rw [Channel.ticksLeft_rewound] at hrest
    refine ⟨es ++ es', ?_, ?_⟩
    · rw [Nat.succ_mul, Nat.add_comm (p * _)]
      exact hfirst.trans hrest
    · rw [List.map_append, callbacksOf_append, hone, hcount, Nat.add_comm]

theorem countAfterCallback_toNat {r : Word} {n : Nat} (hr : r.toNat = n + 1) (hn : n + 1 < 2 ^ 31) :
    (countAfterCallback r).toNat = n := by
  have hpos : 0 < r.toInt := by
    rw [BitVec.toInt_eq_toNat_of_lt (by omega)]
    omega
  rw [countAfterCallback, if_pos hpos, BitVec.toNat_sub_of_le (by rw [BitVec.le_def, hr]; simp), hr]
  rfl

/-- A positive count calls back as often as it says and the channel is then free (R162). -/
theorem ticks_to_release (c : Nat) {n : Nat} {k : Channel} (hl : k.Live) (hc : k.Counted)
    (hr : k.repeats.toNat = n + 1) (hn : n + 1 < 2 ^ 31) :
    ∃ es, TickedTo (k.ticksLeft + n * k.ticksPerPeriod) k (Channel.free k.cfg) es ∧
      callbacksOf c (es.map (Event.channel c)) = n + 1 := by
  have h0 : k.repeats ≠ 0#32 := by
    rintro h0
    rw [h0] at hr
    cases hr
  induction n generalizing k with
  | zero =>
    have h1 : k.repeats = 1#32 := BitVec.eq_of_toNat_eq hr
    have hperiod := ticks_to_callback c hl hc h0
    rw [Channel.afterPeriod, if_pos h1] at hperiod
    rwa [Nat.zero_mul, Nat.add_zero]
  | succ n ih =>
    have h1 : k.repeats ≠ 1#32 := by
      rintro h1
      rw [h1] at hr
      cases hr
    obtain ⟨es, hfirst, hone⟩ := ticks_to_callback c hl hc h0
    rw [Channel.afterPeriod, if_neg h1] at hfirst
    have hr' := countAfterCallback_toNat hr hn
    obtain ⟨es', hrest, hcount⟩ :=
      ih (k := { k.rewound with repeats := countAfterCallback k.repeats }) ⟨hl.bound, hl.enabled, hl.running⟩
        k.rewound_counted hr' (by omega) (mt (countAfterCallback_eq_zero_iff _ h0).mp h1)
    have hleft : ({ k.rewound with repeats := countAfterCallback k.repeats } : Channel).ticksLeft = k.ticksPerPeriod :=
      k.ticksLeft_rewound
    rw [hleft] at hrest
    refine ⟨es ++ es', ?_, ?_⟩
    · rw [Nat.succ_mul, Nat.add_comm (n * _)]
      exact hfirst.trans hrest
    · rw [List.map_append, callbacksOf_append, hone, hcount, Nat.add_comm]

end Sys2Proof.Machine

/-! # Compare-match events taken at once (R160 to R163)

The schedule `serviceRounds c n` realises every sequence of `n` TICKs on channel `c`. -/

namespace Sys2Proof.Machine

theorem serviceRounds_succ (c n : Nat) :
    serviceRounds c (n + 1) = .elapse c :: .tick c :: serviceRounds c n := by
  simp [serviceRounds, List.replicate_succ]

theorem serviceRounds_add (c m n : Nat) : serviceRounds c (m + n) = serviceRounds c m ++ serviceRounds c n := by
  rw [serviceRounds, List.replicate_add, List.flatten_append]
  rfl

/-- A TICK leaves no event pending (R149). -/
theorem tick_pending (k : Channel) : k.tick.chan.pending = false := by
  by_cases h0 : k.repeats = 0#32
  · rw [tick_exhausted k h0]
    rfl
  cases hd : k.done with
  | false => rw [tick_intermediate k h0 hd]
  | true =>
    by_cases h1 : k.repeats = 1#32
    · rw [tick_last k h1 hd]
      rfl
    · rw [tick_reload k h0 h1 hd]

/-- TICK clears `PENDING` first, so it does the same after an ELAPSE (R149). -/
theorem elapse_tick (k : Channel) : k.elapse.tick = k.tick := rfl

theorem Channel.Live.elapseEnabled {k : Channel} (hl : k.Live) (hp : k.pending = false) : k.elapseEnabled = true :=
  k.elapseEnabled_iff.mpr ⟨hl.bound, hl.enabled, hl.running, hp⟩

theorem Channel.Live.tickEnabled {k : Channel} (hl : k.Live) (hp : k.pending = true) : k.tickEnabled = true :=
  k.tickEnabled_iff.mpr ⟨hp, hl.enabled⟩

/-- One compare-match event of a live channel, taken at once. -/
theorem run_serviceRound {s : State} {c : Nat} {k : Channel} {rest : List Action} (hl : k.Live)
    (hp : k.pending = false) (hk : s.channels[c]? = some k) (hs : s.schedule = .elapse c :: .tick c :: rest) :
    ∃ t, core.run 2 s = .next t ∧ t.history = s.history ++ k.tick.events.map (Event.channel c) ∧ t.schedule = rest ∧
      t.channels[c]? = some k.tick.chan := by
  obtain ⟨hc, _⟩ := List.getElem?_eq_some_iff.mp hk
  have helapse := step_elapse_enabled hs hk (hl.elapseEnabled hp)
  have htick := step_tick_enabled (k := k.elapse)
    (s := { s with schedule := .tick c :: rest, channels := s.channels.set c k.elapse }) rfl
    (List.getElem?_set_self hc) (k.elapse.tickEnabled_iff.mpr ⟨rfl, hl.enabled⟩)
  exact ⟨_, (run_succ 1 helapse).trans (run_succ 0 htick), rfl, rfl, by simp [hc, elapse_tick]⟩

/-- A schedule that takes each compare-match event at once realises a sequence of TICKs. -/
theorem run_serviceRounds {n : Nat} {k k' : Channel} {es : List Emission} (h : TickedTo n k k' es) {s : State}
    {c : Nat} {rest : List Action} (hk : s.channels[c]? = some k) (hp : k.pending = false)
    (hs : s.schedule = serviceRounds c n ++ rest) :
    ∃ t, core.run (2 * n) s = .next t ∧ t.history = s.history ++ es.map (Event.channel c) ∧ t.schedule = rest ∧
      t.channels[c]? = some k' := by
  induction h generalizing s with
  | refl k => exact ⟨s, rfl, (List.append_nil _).symm, hs, hk⟩
  | @tick n k k' es hl _ ih =>
    rw [serviceRounds_succ] at hs
    obtain ⟨u, hu, huh, hus, huk⟩ := run_serviceRound hl hp hk hs
    obtain ⟨t, ht, hth, hts, htk⟩ := ih huk (tick_pending k) hus
    refine ⟨t, ?_, ?_, hts, htk⟩
    · rw [Nat.mul_succ, Nat.add_comm, run_add 2 _ hu, ht]
    · rw [hth, huh, List.append_assoc, List.map_append]

/-! ## From the opening of a period -/

theorem rewound_eq_self {k : Channel} (hopen : k = k.opened) (hp : k.pending = false) : k.rewound = k := by
  rw [Channel.rewound, ← hopen, ← hp]

theorem counted_of_opened {k : Channel} (hopen : k = k.opened) : k.Counted := by
  rw [hopen]
  exact k.opened_counted

theorem ticksLeft_of_opened {k : Channel} (hopen : k = k.opened) : k.ticksLeft = k.ticksPerPeriod := by
  rw [← k.ticksLeft_opened, ← hopen]

theorem one_le_ticksPerPeriod (k : Channel) : 1 ≤ k.ticksPerPeriod := Nat.le_max_left _ _

/-- Settles O50: `ticks_inside_period` for the first `n - 1` events, `ticks_to_callback` for all `n`. -/
theorem cadenceAndTickConservation : Obligations.CadenceAndTickConservation := by
  intro s c k rest hk hb he hrun hp hr hopen hs
  have hl : k.Live := ⟨hb, he, hrun⟩
  have hc := counted_of_opened hopen
  have hn := ticksLeft_of_opened hopen
  have hpos := one_le_ticksPerPeriod k
  constructor
  · obtain ⟨k', es, hticks, hd, _, hprog⟩ :=
      ticks_inside_period c hl hc hr (n := k.ticksPerPeriod - 1) (by omega)
    rw [← Nat.sub_add_cancel hpos, serviceRounds_add, List.append_assoc] at hs
    obtain ⟨u, hu, huh, _, huk⟩ := run_serviceRounds hticks hk hp hs
    have hsplit := k.opened_split.2
    rw [← hopen] at hsplit
    refine ⟨u, _, hu, huh, hprog.silent, ?_, hprog.bounded, k', huk, hd⟩
    rw [hprog.sum, Nat.add_comm, hsplit]
  · obtain ⟨es, hticks, hone⟩ := ticks_to_callback c hl hc hr
    rw [hn] at hticks
    obtain ⟨t, ht, hth, hts, htk⟩ := run_serviceRounds hticks hk hp hs
    rw [Channel.afterPeriod, rewound_eq_self hopen hp] at htk
    exact ⟨t, _, ht, hth, hone, hts, htk⟩

/-- Settles O51: `ticks_to_release` from the opening of a period. -/
theorem finiteChannelCallsBackExactlyNTimes : Obligations.FiniteChannelCallsBackExactlyNTimes := by
  intro s c k rest count hk hb he hrun hp hopen hpos hlt hr hs
  obtain ⟨n, rfl⟩ := Nat.exists_eq_add_of_le' hpos
  have hnat : k.repeats.toNat = n + 1 := by
    rw [hr, BitVec.toNat_ofNat]
    omega
  obtain ⟨es, hticks, hcount⟩ := ticks_to_release c ⟨hb, he, hrun⟩ (counted_of_opened hopen) hnat hlt
  rw [ticksLeft_of_opened hopen, Nat.add_comm, ← Nat.succ_mul] at hticks
  obtain ⟨t, ht, hth, hts, htk⟩ := run_serviceRounds hticks hk hp hs
  exact ⟨t, _, ht, hth, hcount, htk, hts⟩

/-- Settles O52: `ticks_forever` from the opening of a period. -/
theorem foreverChannelNeverStops : Obligations.ForeverChannelNeverStops := by
  intro s c k rest periods hk hb he hrun hp hopen hneg hs
  have hticks : ∃ es, TickedTo (periods * k.ticksPerPeriod) k k es ∧
      callbacksOf c (es.map (Event.channel c)) = periods := by
    cases periods with
    | zero => exact ⟨[], by simpa using TickedTo.refl k, rfl⟩
    | succ p =>
      have h := ticks_forever c p ⟨hb, he, hrun⟩ (counted_of_opened hopen) hneg
      rwa [ticksLeft_of_opened hopen, Nat.add_comm, ← Nat.succ_mul, rewound_eq_self hopen hp] at h
  obtain ⟨es, hticks, hcount⟩ := hticks
  obtain ⟨t, ht, hth, hts, htk⟩ := run_serviceRounds hticks hk hp hs
  exact ⟨t, _, ht, hth, hcount, htk, hts⟩

end Sys2Proof.Machine

/-! # Any interleaving of ELAPSE and TICK (R161)

Every run of timer steps is taken apart step by step by `step_quiet_cases`: on a free channel nothing happens, and on a
channel inside a period each TICK taken is one TICK nearer to the callback. -/

namespace Sys2Proof.Machine

/-- A timer step at the head of the schedule is taken or passed over, and the rest stays scheduled. -/
theorem step_timer_next {s : State} {a : Action} {rest : List Action} (hs : s.schedule = a :: rest)
    (ha : a.isTimerStep = true) : ∃ u, step s = .next u := by
  cases a with
  | elapse c => exact ⟨_, step_elapse hs⟩
  | tick c => exact ⟨_, step_tick hs⟩
  | memRead _ _ => cases ha
  | memWrite _ _ _ => cases ha
  | reset => cases ha

/-- The count of the TICKs taken, one step at a time. -/
theorem ticksTaken_cons {s u : State} {c n : Nat} {k : Channel} {a : Action} {rest : List Action}
    (hs : s.schedule = a :: rest) (hk : s.channels[c]? = some k) (h : step s = .next u) :
    ticksTaken c (n + 1) s = (if a = .tick c ∧ k.tickEnabled = true then 1 else 0) + ticksTaken c n u := by
  simp [ticksTaken, h, hs, timerEnabled_tick hk]

/-- On a free channel no timer step does anything and no TICK is taken. -/
theorem run_timers_free {s : State} {c : Nat} {cfg : ChannelParams} (hk : s.channels[c]? = some (Channel.free cfg))
    (htimers : ∀ a ∈ s.schedule, a.isTimerStep = true) :
    ∃ t es, core.run s.schedule.length s = .next t ∧ t.channels[c]? = some (Channel.free cfg) ∧
      t.history = s.history ++ es ∧ (∀ e ∈ es, e.isOf c = false) ∧ ticksTaken c s.schedule.length s = 0 := by
  induction hs : s.schedule generalizing s with
  | nil => exact ⟨s, [], rfl, hk, (List.append_nil _).symm, by simp, rfl⟩
  | cons a rest ih =>
    rw [hs, List.forall_mem_cons] at htimers
    obtain ⟨ha, hrest⟩ := htimers
    obtain ⟨u, hu⟩ := step_timer_next hs ha
    obtain ⟨hus, hcases⟩ := step_quiet_cases hs (isQuiet_of_isTimerStep ha) hk hu
    rcases hcases with ⟨_, hen, _⟩ | ⟨_, hen, _⟩ | ⟨_, hno, huk, es, hes, hother⟩
    · cases hen
    · cases hen
    obtain ⟨t, es', ht, htk, htes, hother', hzero⟩ := ih huk (hus.symm ▸ hrest) hus
    refine ⟨t, es ++ es', by rw [List.length_cons, run_succ _ hu, ht], htk, by rw [htes, hes, List.append_assoc],
      fun e he => (List.mem_append.mp he).elim (hother e) (hother' e), ?_⟩
    rw [List.length_cons, ticksTaken_cons hs hk hu, if_neg hno, hzero]

/-- Settles O54, by `run_timers_free`. -/
theorem freeChannelStaysQuiet : Obligations.FreeChannelStaysQuiet := by
  intro s t c cfg hk htimers ht
  obtain ⟨t', es, ht', htk, hes, hother, _⟩ := run_timers_free hk htimers
  rw [ht] at ht'
  injection ht' with heq
  subst heq
  exact ⟨htk, es, hes, hother⟩

/-- In the run of the whole schedule, with `past` TICKs of the period taken before it, channel `c` calls back at every
`n`-th TICK. -/
def CountsCallbacks (c n past : Nat) (s : State) : Prop :=
  ∃ t, core.run s.schedule.length s = .next t ∧
    callbacksOf c t.history = callbacksOf c s.history + (ticksTaken c s.schedule.length s + past) / n

theorem CountsCallbacks.of_nil {c n past : Nat} {s : State} (hs : s.schedule = []) (hpast : past < n) :
    CountsCallbacks c n past s := by
  refine ⟨s, by rw [hs]; rfl, ?_⟩
  rw [hs, List.length_nil, ticksTaken, Nat.zero_add, Nat.div_eq_of_lt hpast, Nat.add_zero]

theorem CountsCallbacks.of_free {c n : Nat} {cfg : ChannelParams} {s : State}
    (hk : s.channels[c]? = some (Channel.free cfg)) (htimers : ∀ a ∈ s.schedule, a.isTimerStep = true) :
    CountsCallbacks c n 0 s := by
  obtain ⟨t, es, ht, _, hes, hother, hzero⟩ := run_timers_free hk htimers
  refine ⟨t, ht, ?_⟩
  rw [hes, callbacksOf_not_isOf hother, hzero, Nat.zero_div, Nat.add_zero]

/-- The balance of one step: the TICKs of the period before it and the one it takes are those of the periods it ends
and those of the period after it. -/
theorem CountsCallbacks.of_step {c n past past' ended : Nat} {s u : State} {k : Channel} {a : Action}
    {rest : List Action} (h : CountsCallbacks c n past' u) (hn : 0 < n) (hs : s.schedule = a :: rest)
    (hk : s.channels[c]? = some k) (hu : step s = .next u) (hus : u.schedule = rest)
    (hended : callbacksOf c u.history = callbacksOf c s.history + ended)
    (hbalance : past + (if a = .tick c ∧ k.tickEnabled = true then 1 else 0) = past' + n * ended) :
    CountsCallbacks c n past s := by
  obtain ⟨t, ht, hcount⟩ := h
  rw [hus] at ht hcount
  refine ⟨t, by rw [hs, List.length_cons, run_succ _ hu, ht], ?_⟩
  have hsum : ticksTaken c (rest.length + 1) s + past = ticksTaken c rest.length u + past' + n * ended := by
    rw [ticksTaken_cons hs hk hu]
    omega
  rw [hcount, hended, hs, List.length_cons, hsum, Nat.add_mul_div_left _ _ hn, Nat.add_assoc, Nat.add_comm ended]

/-- From anywhere in a period, `past` TICKs after its opening, every run of timer steps counts the callbacks. -/
theorem countsCallbacks_of_counted {s : State} {c past : Nat} {k : Channel} (hk : s.channels[c]? = some k)
    (hr : k.repeats ≠ 0#32) (hc : k.Counted) (hpast : past + k.ticksLeft = k.ticksPerPeriod)
    (htimers : ∀ a ∈ s.schedule, a.isTimerStep = true) : CountsCallbacks c k.ticksPerPeriod past s := by
  induction hs : s.schedule generalizing s k past with
  | nil =>
    have hleft : 1 ≤ k.ticksLeft := Nat.le_add_left _ _
    exact .of_nil hs (by omega)
  | cons a rest ih =>
    rw [hs, List.forall_mem_cons] at htimers
    obtain ⟨ha, hrest⟩ := htimers
    obtain ⟨u, hu⟩ := step_timer_next hs ha
    obtain ⟨hus, hcases⟩ := step_quiet_cases hs (isQuiet_of_isTimerStep ha) hk hu
    have hrest' : ∀ a ∈ u.schedule, a.isTimerStep = true := hus.symm ▸ hrest
    have hn := one_le_ticksPerPeriod k
    rcases hcases with ⟨rfl, _, huk, hh⟩ | ⟨rfl, hen, huk, hh⟩ | ⟨_, hno, huk, es, hh, hother⟩
    · exact (ih (k := k.elapse) huk hr hc hpast hrest' hus).of_step (ended := 0) hn hs hk hu hus (by rw [hh]; rfl)
        (by simp)
    · have hended := congrArg (callbacksOf c) hh
      rw [callbacksOf_append, callbacksOf_tick] at hended
      cases hd : k.done with
      | false =>
        obtain ⟨hleft, hc', hper, hr'⟩ := tick_inside_progress hc hr hd
        have hnext := ih (past := past + 1) huk (hr'.trans_ne hr) hc' (by omega) hrest' hus
        rw [hper] at hnext
        rw [if_neg (by simp [hd])] at hended
        exact hnext.of_step hn hs hk hu hus hended (by rw [if_pos ⟨rfl, hen⟩, Nat.mul_zero])
      | true =>
        rw [hc.done_iff.mp hd] at hpast
        rw [if_pos ⟨hr, hd⟩] at hended
        have hnext : CountsCallbacks c k.ticksPerPeriod 0 u := by
          by_cases h1 : k.repeats = 1#32
          · rw [tick_last k h1 hd] at huk
            exact .of_free huk hrest'
          · rw [tick_reload k hr h1 hd] at huk
            have hreload := ih huk (mt (countAfterCallback_eq_zero_iff _ hr).mp h1) k.opened_counted
              ((Nat.zero_add _).trans k.ticksLeft_opened) hrest' hus
            exact hreload
        exact hnext.of_step hn hs hk hu hus hended (by rw [if_pos ⟨rfl, hen⟩]; omega)
    · exact (ih huk hr hc hpast hrest' hus).of_step (ended := 0) hn hs hk hu hus
        (by rw [hh, callbacksOf_not_isOf hother]; rfl) (by rw [if_neg hno]; rfl)

/-- Settles O59, from the opening of a period. -/
theorem callbackEveryNthTick : Obligations.CallbackEveryNthTick := by
  intro s c k hk hr hopen htimers
  exact countsCallbacks_of_counted (past := 0) hk hr (counted_of_opened hopen)
    ((Nat.zero_add _).trans (ticksLeft_of_opened hopen)) htimers

end Sys2Proof.Machine

/-! # Fair behaviours (R147)

Weak fairness makes a live channel's next step eventually happen: ELAPSE when nothing is pending, TICK when something
is. So a fair behaviour without commands realises every sequence of TICKs that `TickedTo` describes. -/

namespace Sys2Proof.Machine

/-- A weakly fair behaviour in which no command and no reset comes. -/
structure QuietFair (states : Nat → State) (acts : Nat → Action) : Prop where
  behaviour : IsBehaviour states acts
  fair : WeaklyFair states acts
  quiet : ∀ n, (acts n).isQuiet = true

/-- In the state `s` the channel with id `c` is `k`, and it has called back `b` times. -/
structure ChannelAt (s : State) (c : Nat) (k : Channel) (b : Nat) : Prop where
  channel : s.channels[c]? = some k
  callbacks : callbacksOf c s.history = b

namespace QuietFair

variable {states : Nat → State} {acts : Nat → Action} {c m n b : Nat} {k k' : Channel}

/-- The next step of the behaviour, seen from one channel: `step_quiet_cases`. -/
theorem next_cases (h : QuietFair states acts) (hk : ChannelAt (states n) c k b) :
    (acts n = .elapse c ∧ k.elapseEnabled = true ∧ ChannelAt (states (n + 1)) c k.elapse b) ∨
      (acts n = .tick c ∧ k.tickEnabled = true ∧
        ChannelAt (states (n + 1)) c k.tick.chan (b + callbacksOf c (k.tick.events.map (Event.channel c)))) ∨
      (¬ (acts n = .elapse c ∧ k.elapseEnabled = true) ∧ ¬ (acts n = .tick c ∧ k.tickEnabled = true) ∧
        ChannelAt (states (n + 1)) c k b) := by
  obtain ⟨hchan, rfl⟩ := hk
  obtain ⟨_, hcases⟩ :=
    step_quiet_cases (s := { states n with schedule := [acts n] }) rfl (h.quiet n) hchan (h.behaviour n)
  rcases hcases with ⟨ha, hen, huk, hh⟩ | ⟨ha, hen, huk, hh⟩ | ⟨hno, hno', huk, es, hh, hother⟩
  · exact .inl ⟨ha, hen, huk, by rw [hh]⟩
  · exact .inr (.inl ⟨ha, hen, huk, by rw [hh, callbacksOf_append]⟩)
  · exact .inr (.inr ⟨hno, hno', huk, by rw [hh, callbacksOf_not_isOf hother]⟩)

/-- The use of fairness: when the channel enables the timer step `a`, and every other step leaves the channel as it is,
then `a` is eventually taken, from the channel as it is now. -/
theorem eventually_taken (h : QuietFair states acts) {a : Action} (ha : a.isTimerStep = true)
    (hen : ∀ s : State, s.channels[c]? = some k → s.timerEnabled a = true)
    (hstay : ∀ m, acts m ≠ a → ChannelAt (states m) c k b → ChannelAt (states (m + 1)) c k b)
    (hk : ChannelAt (states n) c k b) : ∃ m, ChannelAt (states m) c k b ∧ acts m = a := by
  by_contra hnever
  have hforever : ∀ m, n ≤ m → ChannelAt (states m) c k b := by
    intro m hm
    induction m, hm using Nat.le_induction with
    | base => exact hk
    | succ m _ ih => exact hstay m (fun hact => hnever ⟨m, ih, hact⟩) ih
  obtain ⟨m, hm, hact⟩ := h.fair a ha n fun m hm => hen _ (hforever m hm).channel
  exact hnever ⟨m, hforever m hm, hact⟩

/-- A live channel with nothing pending eventually takes its ELAPSE. -/
theorem eventually_elapse (h : QuietFair states acts) (hl : k.Live) (hp : k.pending = false)
    (hk : ChannelAt (states n) c k b) : ∃ m, ChannelAt (states m) c k.elapse b := by
  have hnotick : ¬ k.tickEnabled = true := by
    rw [k.tickEnabled_iff, hp]
    simp
  obtain ⟨m, hm, hact⟩ := h.eventually_taken (a := .elapse c) rfl
    (fun s hs => (timerEnabled_elapse hs).trans (hl.elapseEnabled hp))
    (fun m hne hm => by
      rcases h.next_cases hm with ⟨hact, _⟩ | ⟨_, hen, _⟩ | ⟨_, _, hsame⟩
      · exact absurd hact hne
      · exact absurd hen hnotick
      · exact hsame) hk
  rcases h.next_cases hm with ⟨_, _, hnext⟩ | ⟨hact', _⟩ | ⟨hno, _⟩
  · exact ⟨m + 1, hnext⟩
  · rw [hact] at hact'
    cases hact'
  · exact absurd ⟨hact, hl.elapseEnabled hp⟩ hno

/-- A live channel with an event pending eventually takes its TICK. -/
theorem eventually_tick_of_pending (h : QuietFair states acts) (hl : k.Live) (hp : k.pending = true)
    (hk : ChannelAt (states n) c k b) :
    ∃ m, ChannelAt (states m) c k.tick.chan (b + callbacksOf c (k.tick.events.map (Event.channel c))) := by
  have hnoelapse : ¬ k.elapseEnabled = true := by
    rw [k.elapseEnabled_iff, hp]
    simp
  obtain ⟨m, hm, hact⟩ := h.eventually_taken (a := .tick c) rfl
    (fun s hs => (timerEnabled_tick hs).trans (hl.tickEnabled hp))
    (fun m hne hm => by
      rcases h.next_cases hm with ⟨_, hen, _⟩ | ⟨hact, _⟩ | ⟨_, _, hsame⟩
      · exact absurd hen hnoelapse
      · exact absurd hact hne
      · exact hsame) hk
  rcases h.next_cases hm with ⟨hact', _⟩ | ⟨_, _, hnext⟩ | ⟨_, hno, _⟩
  · rw [hact] at hact'
    cases hact'
  · exact ⟨m + 1, hnext⟩
  · exact absurd ⟨hact, hl.tickEnabled hp⟩ hno

/-- A live channel eventually takes a TICK, after an ELAPSE when nothing is pending. -/
theorem eventually_tick (h : QuietFair states acts) (hl : k.Live) (hk : ChannelAt (states n) c k b) :
    ∃ m, ChannelAt (states m) c k.tick.chan (b + callbacksOf c (k.tick.events.map (Event.channel c))) := by
  cases hp : k.pending with
  | true => exact h.eventually_tick_of_pending hl hp hk
  | false =>
    obtain ⟨m, hm⟩ := h.eventually_elapse hl hp hk
    exact h.eventually_tick_of_pending (k := k.elapse) ⟨hl.bound, hl.enabled, hl.running⟩ rfl hm

/-- A fair behaviour realises a sequence of TICKs. -/
theorem eventually_tickedTo (h : QuietFair states acts) {j : Nat} {es : List Emission} (hticks : TickedTo j k k' es)
    (hk : ChannelAt (states n) c k b) :
    ∃ m, ChannelAt (states m) c k' (b + callbacksOf c (es.map (Event.channel c))) := by
  induction hticks generalizing n b with
  | refl k => exact ⟨n, hk⟩
  | tick hl _ ih =>
    obtain ⟨m, hm⟩ := h.eventually_tick hl hk
    obtain ⟨m', hm'⟩ := ih hm
    refine ⟨m', ?_⟩
    rwa [List.map_append, callbacksOf_append, ← Nat.add_assoc]

/-- A free channel stays free and calls nothing back. -/
theorem free_forever (h : QuietFair states acts) {cfg : ChannelParams}
    (hk : ChannelAt (states n) c (Channel.free cfg) b) (hm : n ≤ m) : ChannelAt (states m) c (Channel.free cfg) b := by
  induction m, hm using Nat.le_induction with
  | base => exact hk
  | succ m _ ih =>
    rcases h.next_cases ih with ⟨_, hen, _⟩ | ⟨_, hen, _⟩ | ⟨_, _, hsame⟩
    · cases hen
    · cases hen
    · exact hsame

end QuietFair

/-- A count of 0 or more is used up: that many callbacks, and the channel is free (R150, R162). -/
theorem ticks_until_free (c : Nat) {k : Channel} (hl : k.Live) (hc : k.Counted) (hr : 0 ≤ k.repeats.toInt) :
    ∃ j es, TickedTo j k (Channel.free k.cfg) es ∧ callbacksOf c (es.map (Event.channel c)) = k.repeats.toNat := by
  cases hn : k.repeats.toNat with
  | zero =>
    have h0 : k.repeats = 0#32 := BitVec.eq_of_toNat_eq hn
    have htick := TickedTo.one hl
    rw [tick_exhausted k h0] at htick
    refine ⟨1, _, htick, ?_⟩
    have hnone := callbacksOf_tick c k
    rwa [tick_exhausted k h0, if_neg (by simp [h0])] at hnone
  | succ n =>
    have hlt : n + 1 < 2 ^ 31 := by
      rw [BitVec.toInt_eq_toNat_cond, hn] at hr
      split at hr <;> omega
    obtain ⟨es, hticks, hcount⟩ := ticks_to_release c hl hc hn hlt
    exact ⟨_, es, hticks, hcount⟩

/-- Settles O60: a fair behaviour realises the TICKs of `ticks_forever` and of `ticks_until_free`. -/
theorem fairChannelEventuallyCallsBack : Obligations.FairChannelEventuallyCallsBack := by
  intro states acts c k hbeh hfair hquiet hk hb hinv hrun
  obtain ⟨henabled, _, _, _, _, _, hc, _⟩ := hinv
  have h : QuietFair states acts := ⟨hbeh, hfair, hquiet⟩
  have hl : k.Live := ⟨hb, henabled, hrun⟩
  have hstart : ChannelAt (states 0) c k (callbacksOf c (states 0).history) := ⟨hk, rfl⟩
  refine ⟨fun hneg bound => ?_, fun hnonneg => ?_⟩
  · obtain ⟨es, hticks, hcount⟩ := ticks_forever c bound hl hc hneg
    obtain ⟨n, hn⟩ := h.eventually_tickedTo hticks hstart
    refine ⟨n, ?_⟩
    rw [hn.callbacks, hcount]
    omega
  · obtain ⟨j, es, hticks, hcount⟩ := ticks_until_free c hl hc hnonneg
    obtain ⟨n, hn⟩ := h.eventually_tickedTo hticks hstart
    rw [hcount] at hn
    exact ⟨n, fun m hm => ⟨(h.free_forever hn hm).callbacks, (h.free_forever hn hm).channel⟩⟩

end Sys2Proof.Machine

/-! # The host commands (42_host_commands.md)

Each shape of command (`boundCommand`, `changeCommand`, `bindCommand`) gets one lemma for its success and one for each
of its failures; a statement about a command takes it at that command's procedure or frequency. -/

namespace Sys2Proof.Machine

/-! ## How a write of `CMD` runs a command (R180) -/

/-- Settles O6: the step writes `CMD`, and the word written is decoded and run. -/
theorem stepRunsTheDecodedCommand : Obligations.StepRunsTheDecodedCommand :=
  fun _ _ _ _ _ hs hw hexec => (step_commandWrite hs).trans (writeCommand_decoded hw hexec)

/-! ## Commands on one bound channel -/

section BoundCommand

variable {s : State} {ch : ChannelId} {k : Channel}

/-- The end of a command on a bound channel: its procedure's channel and events are put back, and `RESULT` names the
channel (R181, R190 to R196). -/
theorem finish_boundCommand (procedure : Channel → ChannelRun) (hk : s.channels[ch.toNat]? = some k)
    (hb : k.callback ≠ 0#32) :
    finishCommand s (boundCommand ch procedure s) =
      .next { s.applyRun ch.toNat (procedure k) with result := okResult ch.toNat } := by
  simp only [boundCommand, checkBound_some hk hb, finishCommand_ok, State.succeed, okResult_channelId]

/-- A procedure that leaves the channel as it is and emits nothing changes `RESULT` only. -/
theorem finish_boundCommand_start {procedure : Channel → ChannelRun} (hk : s.channels[ch.toNat]? = some k)
    (hb : k.callback ≠ 0#32) (hprocedure : procedure k = ChannelRun.start k) :
    finishCommand s (boundCommand ch procedure s) = .next { s with result := okResult ch.toNat } := by
  rw [finish_boundCommand procedure hk hb, hprocedure, applyRun_start hk]

theorem gateIfRunning_start_paused (h : k.paused = true) :
    (ChannelRun.start k).gateIfRunning = ChannelRun.start k := by
  simp only [ChannelRun.gateIfRunning, ChannelRun.start_chan, h, cond_true]

theorem gateIfRunning_start_running (h : k.paused = false) :
    (ChannelRun.start k).gateIfRunning = (ChannelRun.start k).port .gateClock := by
  simp only [ChannelRun.gateIfRunning, ChannelRun.start_chan, h, cond_false]

theorem ungateIfPaused_start_paused (h : k.paused = true) :
    (ChannelRun.start k).ungateIfPaused = (ChannelRun.start k).port .ungateClock := by
  simp only [ChannelRun.ungateIfPaused, ChannelRun.start_chan, h, cond_true]

theorem ungateIfPaused_start_running (h : k.paused = false) :
    (ChannelRun.start k).ungateIfPaused = ChannelRun.start k := by
  simp only [ChannelRun.ungateIfPaused, ChannelRun.start_chan, h, cond_false]

end BoundCommand

/-- What RELEASE puts back and emits on a channel of the state (41_interval_runner.md R159). -/
theorem applyRun_release (s : State) (c : Nat) (k : Channel) :
    s.applyRun c (ChannelRun.start k).release = afterRelease s c k := by
  simp only [State.applyRun, afterRelease, releaseEvents, release_eq, List.map_append, ← map_ungateEvents]
  rfl

/-- Settles O33: STOP is RELEASE on a bound channel. -/
theorem stopReleasesTheChannel : Obligations.StopReleasesTheChannel := by
  intro s ch k hk hb
  rw [← applyRun_release]
  exact finish_boundCommand _ hk hb

/-- Settles O34: a running clock is gated by one port action, a gated one is left alone. -/
theorem pauseGatesTheClock : Obligations.PauseGatesTheClock := by
  refine fun s ch k hk hb => ⟨fun hrunning => ?_, fun hpaused => ?_⟩
  · have hpause := finish_boundCommand (fun k => (ChannelRun.start k).gateIfRunning) hk hb
    rwa [gateIfRunning_start_running hrunning] at hpause
  · exact finish_boundCommand_start hk hb (gateIfRunning_start_paused hpaused)

/-- Settles O35: a gated clock is ungated by one port action, a running one is left alone. -/
theorem resumeUngatesTheClock : Obligations.ResumeUngatesTheClock := by
  refine fun s ch k hk hb => ⟨fun hpaused => ?_, fun hrunning => ?_⟩
  · have hresume := finish_boundCommand (fun k => (ChannelRun.start k).ungateIfPaused) hk hb
    rwa [ungateIfPaused_start_paused hpaused] at hresume
  · exact finish_boundCommand_start hk hb (ungateIfPaused_start_running hrunning)

/-! ## Arming again (R196, R197, R200, R201) -/

/-- ARM's events on channel id `c` follow what the run has emitted before (41_interval_runner.md R141). -/
theorem map_arm_events (c : Nat) (r : ChannelRun) :
    r.arm.events.map (Event.channel c) = r.events.map (Event.channel c) ++ armEvents c r.chan := by
  rw [arm_eq, List.map_append]
  rfl

/-- The first chunk does not depend on the fields ARM writes. -/
theorem armEvents_armed (c : Nat) (k : Channel) : armEvents c k.armed = armEvents c k := rfl

/-- What ARM puts back and emits on a channel of the state. -/
theorem applyRun_arm (s : State) (c : Nat) (r : ChannelRun) :
    s.applyRun c r.arm = { s with
      channels := s.channels.set c r.chan.armed,
      history := s.history ++ (r.events.map (Event.channel c) ++ armEvents c r.chan) } := by
  rw [State.applyRun, map_arm_events, arm_eq]

/-- Settles O36: ARM, on the channel with the repeat count RESTART writes. -/
theorem restartArmsAgain : Obligations.RestartArmsAgain := by
  intro s ch hasDuration k hk hb _
  have hrestart := finish_boundCommand
    (fun k => (ChannelRun.start { k with repeats := restartRepeats hasDuration s k }).arm) hk hb
  rwa [applyRun_arm] at hrestart

/-- Settles O41: the clamped count is below 2^31, so its sign bit is 0. -/
theorem durationCountsWholePeriods : Obligations.DurationCountsWholePeriods := by
  refine fun millis f _ => ⟨fun h0 => ?_, fun h => ?_⟩
  · rw [durationToRepeats, if_pos h0]
    rfl
  · rw [durationToRepeats, if_neg h]
    generalize millis.toNat * f.num.toNat / (1000 * f.den.toNat) = periods
    have hclamped : min (2 ^ 31 - 1) periods < 2 ^ 31 := by omega
    generalize min (2 ^ 31 - 1) periods = count at hclamped
    have hcount : (BitVec.ofNat 32 count).toNat = count := Nat.mod_eq_of_lt (by omega)
    rw [BitVec.toInt_eq_toNat_of_lt (by omega), hcount]

/-- A successful change of frequency: the whole state it leaves (R200). -/
theorem finish_changeCommand {s : State} {ch : ChannelId} {k : Channel} {f : Freq} {div ticks : Nat}
    (hk : s.channels[ch.toNat]? = some k) (hb : k.callback ≠ 0#32)
    (hmap : mapFrequency s.clkHz k.cfg f = .ok div ticks) :
    finishCommand s (changeCommand ch f s) = .next (afterChange s ch.toNat k f.num f.den div ticks) := by
  simp only [changeCommand, checkBound_some hk hb, mapOrReject_ok hmap, finishCommand_ok, changeRun, applyRun_arm,
    State.succeed, okResult_channelId]
  rfl

/-- Settles O37: the change to the frequency `OPA / OPB`. -/
theorem changeFrequencyArmsAgain : Obligations.ChangeFrequencyArmsAgain :=
  fun _ _ _ _ _ hk hb hmap => finish_changeCommand hk hb hmap

/-- Settles O38: the change to the frequency 1000 / `OPA`. -/
theorem changeIntervalArmsAgain : Obligations.ChangeIntervalArmsAgain :=
  fun _ _ _ _ _ hk hb hmap => finish_changeCommand hk hb hmap

/-! ## Failures of the commands that need a bound channel (R181, R231, R232) -/

/-- A command that needs a bound channel fails with the error of its channel check. -/
theorem exec_unbound {s : State} {ch : ChannelId} {e : CommandError} (hcheck : checkBound s ch = .error e) :
    ∀ i ∈ boundCommandsOf ch, exec i s = .next (s.raise e) := by
  have hbound (procedure : Channel → ChannelRun) :
      finishCommand s (boundCommand ch procedure s) = .next (s.raise e) := by
    simp only [boundCommand, hcheck, finishCommand_error]
  have hchange (f : Freq) : finishCommand s (changeCommand ch f s) = .next (s.raise e) := by
    simp only [changeCommand, hcheck, finishCommand_error]
  simp only [boundCommandsOf, List.forall_mem_cons]
  exact ⟨hbound _, hbound _, hbound _, hbound _, hbound _, hchange _, hchange _, nofun⟩

/-- A rejected frequency of any reason (60_exceptions.md R232). -/
theorem finish_changeCommand_reject {s : State} {ch : ChannelId} {k : Channel} {f : Freq} {reason : RejectReason}
    (hk : s.channels[ch.toNat]? = some k) (hb : k.callback ≠ 0#32)
    (hmap : mapFrequency s.clkHz k.cfg f = .reject reason) :
    finishCommand s (changeCommand ch f s) = .next (s.raise .rejectedFrequency) := by
  simp only [changeCommand, checkBound_some hk hb, mapOrReject_reject hmap, finishCommand_error]

/-- Settles O39: the channel check fails on a missing id and on a free channel, then the mapper may reject. -/
theorem boundCommandFailures : Obligations.BoundCommandFailures := by
  refine fun s ch => ⟨fun i hi => ⟨fun hmissing => ?_, fun k hk hfree => ?_⟩,
    fun k hk hb => ⟨fun reason hmap => ?_, fun reason hmap => ?_⟩⟩
  · exact (exec_unbound (checkBound_none hmissing) i hi).trans (congrArg _ (raise_eq_failResult s _))
  · exact (exec_unbound (checkBound_free hk hfree) i hi).trans (congrArg _ (raise_eq_failResult s _))
  · exact (finish_changeCommand_reject hk hb hmap).trans (congrArg _ (raise_eq_failResult s _))
  · exact (finish_changeCommand_reject hk hb hmap).trans (congrArg _ (raise_eq_failResult s _))

/-! ## Binding (R182 to R188) -/

/-- What a bind puts back and emits: the ungating of a paused clock, then ARM's events (R182). -/
theorem applyRun_bindRun (s : State) (c : Nat) (k : Channel) (a r : Bool) (f : Freq) (div ticks : Nat) :
    s.applyRun c (bindRun k a r f div ticks s) = { s with
      channels := s.channels.set c (boundChannel s k a r f.num f.den div ticks),
      history := s.history ++ ungateEvents c k ++ armEvents c (boundChannel s k a r f.num f.den div ticks) } := by
  rw [bindRun, applyRun_arm, boundChannel, armEvents_armed, List.append_assoc]
  simp only [ChannelRun.write_chan, ChannelRun.write_events, ungateIfPaused_eq, ChannelRun.start_chan,
    ChannelRun.start_events, List.nil_append, map_ungateEvents]
  rfl

/-- A successful bind: the whole state it leaves (R182, R184 to R186). -/
theorem finish_bindCommand {s : State} {target : Target} {c : Nat} {k : Channel} {f : Freq} {div ticks : Nat}
    (hn : s.channels.length ≤ 255) (htarget : bindsTo s target c k) (hhandle : s.opc ≠ 0#32)
    (hmap : mapFrequency s.clkHz k.cfg f = .ok div ticks) (a r : Bool) :
    finishCommand s (bindCommand target a r f s) = .next (afterBind s c k a r f.num f.den div ticks) := by
  obtain ⟨hc, _⟩ := List.getElem?_eq_some_iff.mp htarget.1
  simp only [bindCommand, bindTarget_ok_iff.mpr htarget, handleOperand, if_neg hhandle, mapOrReject_ok hmap,
    finishCommand_ok, applyRun_bindRun, State.succeed, okResult_eq c (by omega)]
  rfl

/-- Settles O30: the bind at the frequency `OPA / OPB`. -/
theorem bindBindsAndArms : Obligations.BindBindsAndArms :=
  fun _ _ a r _ _ _ _ hn htarget hhandle hmap => finish_bindCommand hn htarget hhandle hmap a r

/-- Settles O31: the bind at the frequency 1000 / `OPA`. -/
theorem bindIntervalBindsAndArms : Obligations.BindIntervalBindsAndArms :=
  fun _ _ a r _ _ _ _ hn htarget hhandle hmap => finish_bindCommand hn htarget hhandle hmap a r

/-! ## Interval commands as frequency commands (R123, R188, R201)

Once its frequency is taken, a command reads `OPA` and `OPB` no more: it goes the same way whatever the two registers
hold, and leaves them. -/

/-- `s` with the frequency `f` in the operand registers `OPA` and `OPB`. -/
def State.withFreq (s : State) (f : Freq) : State := { s with opa := f.num, opb := f.den }

/-- The two registers are all that `withFreq` hides. -/
theorem State.eq_of_withFreq_eq {s t : State} {f : Freq} (h : s.withFreq f = t.withFreq f) (ha : s.opa = t.opa)
    (hb : s.opb = t.opb) : s = t := by
  have hback (u : State) : u = (u.withFreq f).withFreq { num := u.opa, den := u.opb } := rfl
  rw [hback s, hback t, h, ha, hb]

theorem bindCommand_withFreq (target : Target) (a r : Bool) (f g : Freq) (s : State) :
    bindCommand target a r f (s.withFreq g) = (bindCommand target a r f s).map (·.withFreq g) := by
  simp only [bindCommand, show bindTarget (s.withFreq g) target = bindTarget s target from rfl,
    show ∀ k, mapOrReject (s.withFreq g) k f = mapOrReject s k f from fun _ => rfl,
    show handleOperand (s.withFreq g) = handleOperand s from rfl]
  rcases bindTarget s target with _ | ⟨_, k⟩
  · rfl
  · dsimp only
    split
    · rfl
    · rcases mapOrReject s k f with _ | ⟨_, _⟩ <;> rfl

theorem changeCommand_withFreq (ch : ChannelId) (f g : Freq) (s : State) :
    changeCommand ch f (s.withFreq g) = (changeCommand ch f s).map (·.withFreq g) := by
  simp only [changeCommand, show checkBound (s.withFreq g) ch = checkBound s ch from rfl,
    show ∀ k, mapOrReject (s.withFreq g) k f = mapOrReject s k f from fun _ => rfl]
  rcases checkBound s ch with _ | ⟨_, k⟩
  · rfl
  · dsimp only
    rcases mapOrReject s k f with _ | ⟨_, _⟩ <;> rfl

/-- A command whose rule ends the same way with `f` in the operand registers answers the same state with `f` there. -/
theorem finishCommand_withFreq {s u : State} {f : Freq} {r : Except CommandError State}
    (h : finishCommand s r = .next u) :
    finishCommand (s.withFreq f) (r.map (·.withFreq f)) = .next (u.withFreq f) := by
  rcases finishCommand_cases h with rfl | ⟨e, rfl, rfl⟩ <;> rfl

/-- If `j` goes the way of `i` with `f` in the operand registers, the two answer the same states up to the operands,
which both keep. -/
theorem exec_eq_next_iff_withFreq {i j : Instr} {s : State} {f : Freq}
    (hsame : ∀ u, exec i s = .next u → exec j (s.withFreq f) = .next (u.withFreq f)) (t : State) :
    exec i s = .next t ↔ exec j (s.withFreq f) = .next (t.withFreq f) ∧ t.opa = s.opa ∧ t.opb = s.opb := by
  obtain ⟨u, hu⟩ := exec_answers i s
  obtain ⟨hopa, hopb, _⟩ := commandsKeepOperandsAndParameters i s u hu
  have hj := hsame u hu
  constructor
  · intro ht
    obtain rfl : u = t := Host.Outcome.next.inj (hu.symm.trans ht)
    exact ⟨hj, hopa, hopb⟩
  · rintro ⟨ht, hta, htb⟩
    have hut : u.withFreq f = t.withFreq f := Host.Outcome.next.inj (hj.symm.trans ht)
    rw [hu, State.eq_of_withFreq_eq hut (hopa.trans hta.symm) (hopb.trans htb.symm)]

/-- Settles O40: an interval command runs the frequency command's rule at 1000 / `OPA`. -/
theorem intervalCommandsAreFrequencyCommands : Obligations.IntervalCommandsAreFrequencyCommands := by
  refine fun s t => ⟨fun target a r => ?_, fun ch => ?_⟩
  · refine exec_eq_next_iff_withFreq (f := intervalOperand s) (fun u hu => ?_) t
    change finishCommand _ (bindCommand target a r (intervalOperand s) _) = _
    rw [bindCommand_withFreq]
    exact finishCommand_withFreq hu
  · refine exec_eq_next_iff_withFreq (f := intervalOperand s) (fun u hu => ?_) t
    change finishCommand _ (changeCommand ch (intervalOperand s) _) = _
    rw [changeCommand_withFreq]
    exact finishCommand_withFreq hu

/-! ## PAUSE and RESUME around ELAPSE (R206) -/

/-- No ELAPSE touches a paused channel, and none emits anything (41_interval_runner.md R145). -/
theorem elapseStep_paused {s : State} {c : Nat} {k : Channel} (hk : s.channels[c]? = some k) (hp : k.paused = true)
    (d : Nat) :
    (elapseStep d s).channels[c]? = some k ∧ (elapseStep d s).history = s.history ∧
      (elapseStep d s).schedule = s.schedule := by
  rcases elapseStep_cases d s with he | ⟨k', hk', hen, he⟩ <;> rw [he]
  · exact ⟨hk, rfl, rfl⟩
  · have hne : d ≠ c := by
      rintro rfl
      obtain rfl : k = k' := Option.some.inj (hk.symm.trans hk')
      obtain ⟨_, _, hrunning, _⟩ := k.elapseEnabled_iff.mp hen
      exact Bool.false_ne_true (hrunning.symm.trans hp)
    exact ⟨by rw [State.applyRun_channels, List.getElem?_set_ne hne, hk], List.append_nil _, rfl⟩

/-- Any number of ELAPSE actions leave a paused channel and the history as they are. -/
theorem run_elapses_paused {c : Nat} {k : Channel} (hp : k.paused = true) (between : List Nat) (rest : List Action)
    {s : State} (hk : s.channels[c]? = some k) (hs : s.schedule = between.map Action.elapse ++ rest) :
    ∃ t, core.run between.length s = .next t ∧ t.channels[c]? = some k ∧ t.history = s.history ∧
      t.schedule = rest := by
  induction between generalizing s with
  | nil => exact ⟨s, rfl, hk, rfl, hs⟩
  | cons d between ih =>
    have hstep := step_elapse (rest := between.map Action.elapse ++ rest) hs
    obtain ⟨hchan, hhist, hsched⟩ :=
      elapseStep_paused (s := { s with schedule := between.map Action.elapse ++ rest }) hk hp d
    obtain ⟨t, ht, htk, hth, hts⟩ := ih hchan hsched
    exact ⟨t, (run_succ _ hstep).trans ht, htk, hth.trans hhist, hts⟩

/-- The step that writes the word of a command which puts one channel back with one port action: the channel, and the
port action and `Done` in the history. -/
theorem step_command_port {s : State} {i : Instr} {c : Nat} {k' : Channel} {op : PortOp} {rest : List Action}
    (hs : s.schedule = commandWrite (encode i) :: rest) (hi : i.wellFormed = true) (hc : c < s.channels.length)
    (hexec : ∀ u : State, u.channels = s.channels → exec i u = .next { u with
      channels := u.channels.set c k', history := u.history ++ [.channel c (.port op)], result := okResult c }) :
    ∃ t, step s = .next t ∧ t.schedule = rest ∧ t.channels[c]? = some k' ∧
      t.history = s.history ++ [.channel c (.port op), .done (encode i) (okResult c)] :=
  ⟨_, stepRunsTheDecodedCommand _ _ _ _ _ hs (decodeOfEncode i hi) (hexec _ rfl), rfl, List.getElem?_set_self hc,
    List.append_assoc _ _ _⟩

/-- Settles O42: PAUSE sets `PAUSED`, no ELAPSE touches the paused channel, and RESUME clears `PAUSED` again. -/
theorem pauseThenResumeKeepsThePosition : Obligations.PauseThenResumeKeepsThePosition := by
  intro s ch k between rest hch hk hb hrunning hs
  have hexplicit : ChannelId.isExplicit ch = true := (isExplicit_iff ch).mpr hch
  obtain ⟨u, hpause, hus, huk, huh⟩ := step_command_port hs hexplicit (List.getElem?_eq_some_iff.mp hk).1
    fun u hu => (pauseGatesTheClock u ch k (hu ▸ hk) hb).1 hrunning
  obtain ⟨v, helapses, hvk, hvh, hvs⟩ := run_elapses_paused rfl between _ huk hus
  obtain ⟨t, hresume, _, htk, hth⟩ := step_command_port hvs hexplicit (List.getElem?_eq_some_iff.mp hvk).1
    fun u hu => (resumeUngatesTheClock u ch { k with paused := true } (hu ▸ hvk) hb).1 rfl
  have hrun : core.run (between.length + 2) s = .next t :=
    calc core.run (between.length + 2) s
      _ = core.run (between.length + 1) u := run_succ _ hpause
      _ = core.run 1 v := run_add _ _ helapses
      _ = .next t := run_succ 0 hresume
  have hback : { k with paused := false } = k := by rw [← hrunning]
  refine ⟨t, hrun, htk.trans (congrArg some hback), ?_⟩
  rw [hth, hvh, huh, List.append_assoc]
  rfl

end Sys2Proof.Machine

/-! # Failures, and TICKs in either order (60_exceptions.md)

No command and no TICK stops (R237), a failure is recorded in `RESULT` and by `Done` alone (R236), the checks of a bind
fail in the order of R235, and the TICKs of two channels do not disturb each other (R240). -/

namespace Sys2Proof.Machine

/-! ## Every command and every TICK answers (R237) -/

/-- Settles O12: a command ends by `finishCommand`, and the step of a TICK answers what `tickStep` leaves. -/
theorem noCommandAndNoTickTraps : Obligations.NoCommandAndNoTickTraps :=
  ⟨exec_answers, fun _ _ _ hs => ⟨_, step_tick hs⟩⟩

/-! ## What a failed command leaves (R236) -/

/-- A status other than `OK` after a write of `CMD` was raised on the state that holds the word, by the decoder or by
the command's own checks. -/
theorem writeCommand_failed {w : Word} {s t : State} (h : writeCommand w s = .next t)
    (hfail : statusOf t.result ≠ 0#8) :
    ∃ e, t = (({ s with cmd := w } : State).raise e).emitDone w := by
  obtain ⟨u, rfl, ⟨_, rfl⟩ | ⟨i, _, hexec⟩⟩ := writeCommand_cases h
  · exact ⟨.illegalCommand, rfl⟩
  · rcases exec_result_cases hexec with ⟨e, rfl, _, _⟩ | ⟨_, _, _, _, _, hok, _⟩
    · exact ⟨e, rfl⟩
    · exact absurd hok hfail

/-- Settles O14: the state that holds the word, with an error raised and `Done` emitted, differs in nothing else. -/
theorem failedCommandRecordsOnlyResult : Obligations.FailedCommandRecordsOnlyResult := by
  intro s t w rest hs hstep hfail
  obtain ⟨e, rfl⟩ := writeCommand_failed ((step_commandWrite hs).symm.trans hstep) hfail
  obtain ⟨_, _, hsel⟩ := raise_result { s with schedule := rest, cmd := w } e
  exact ⟨hsel, rfl⟩

/-! ## Failures of the binds (R231, R232, R233, R235)

BIND and BIND_INTERVAL differ in the frequency only, so each failure is said once for `bindCommand` at any frequency. -/

/-- Automatic selection finds no channel where none is free and of the kind (42_host_commands.md R183). -/
theorem bindTarget_auto_none {s : State} {kind : Kind} (h : ∀ k ∈ s.channels, ¬ freeOfKind kind k) :
    bindTarget s (.auto kind) = .error .noFreeChannel := by
  have hnone : selectFrom kind 0 s.channels = none := by
    refine Option.eq_none_iff_forall_ne_some.mpr fun (c, k) hfound => ?_
    obtain ⟨j, _, hj, hfree, _⟩ := selectFrom_some.mp hfound
    exact h k (List.mem_of_getElem? hj) hfree
  simp only [bindTarget, selectFree, hnone]

section BindFailures

variable {s : State} {target : Target}

/-- The channel check is the first one: its error is the bind's, whatever the operands are (R235). -/
theorem finish_bindCommand_unfound {e : CommandError} (h : bindTarget s target = .error e) (a r : Bool) (f : Freq) :
    finishCommand s (bindCommand target a r f s) = .next (s.raise e) := by
  simp only [bindCommand, h, finishCommand_error]

variable {c : Nat} {k : Channel}

/-- A null callback is rejected on the channel found, before the mapper runs (R232, R235). -/
theorem finish_bindCommand_null (htarget : bindsTo s target c k) (hnull : s.opc = 0#32) (a r : Bool) (f : Freq) :
    finishCommand s (bindCommand target a r f s) = .next (s.raise .rejectedFrequency) := by
  simp only [bindCommand, bindTarget_ok_iff.mpr htarget, handleOperand, hnull, if_true, finishCommand_error]

/-- A frequency the mapper rejects gives the same status as a null callback (R232). -/
theorem finish_bindCommand_reject {f : Freq} {reason : RejectReason} (htarget : bindsTo s target c k)
    (hmap : mapFrequency s.clkHz k.cfg f = .reject reason) (a r : Bool) :
    finishCommand s (bindCommand target a r f s) = .next (s.raise .rejectedFrequency) := by
  by_cases hnull : s.opc = 0#32
  · exact finish_bindCommand_null htarget hnull a r f
  · simp only [bindCommand, bindTarget_ok_iff.mpr htarget, handleOperand, if_neg hnull, mapOrReject_reject hmap,
      finishCommand_error]

end BindFailures

/-- Settles O32: the channel check, the null callback and the mapper, each at the two frequencies. -/
theorem bindRejectionsInOrder : Obligations.BindRejectionsInOrder := by
  intro s a r
  have hstatus {i : Instr} (e : CommandError) (h : exec i s = .next (s.raise e)) :
      exec i s = .next { s with result := failResult e.code.toNat } := h.trans (congrArg _ (raise_eq_failResult s e))
  refine ⟨fun ch hmissing => ⟨?_, ?_⟩, fun kind hnone => ⟨?_, ?_⟩, fun target c k htarget =>
    ⟨fun hnull => ⟨?_, ?_⟩, fun reason hmap => ?_, fun reason hmap => ?_⟩⟩
  · exact hstatus .invalidChannel (exec_missingChannel rfl hmissing)
  · exact hstatus .invalidChannel (exec_missingChannel rfl hmissing)
  · exact hstatus .noFreeChannel (finish_bindCommand_unfound (bindTarget_auto_none hnone) a r _)
  · exact hstatus .noFreeChannel (finish_bindCommand_unfound (bindTarget_auto_none hnone) a r _)
  · exact hstatus .rejectedFrequency (finish_bindCommand_null htarget hnull a r _)
  · exact hstatus .rejectedFrequency (finish_bindCommand_null htarget hnull a r _)
  · exact hstatus .rejectedFrequency (finish_bindCommand_reject htarget hmap a r)
  · exact hstatus .rejectedFrequency (finish_bindCommand_reject htarget hmap a r)

/-! ## TICKs of two channels (R240)

A TICK is written as one function of the channel it names, enabled or not: it then reads and writes that one entry of
the list, and two TICKs of different ids work on different entries. -/

/-- The dispatcher's turn on a channel: TICK where it is enabled, else the channel as it is (log 1). -/
def Channel.dispatch (k : Channel) : ChannelRun := bif k.tickEnabled then k.tick else ChannelRun.start k

/-- What the dispatcher's turn on id `c` emits; an id that does not exist emits nothing (log 1). -/
def dispatchEvents (c : Nat) (channels : List Channel) : List Event :=
  (channels[c]?).elim [] fun k => k.dispatch.events.map (Event.channel c)

theorem tickStep_found {s : State} {c : Nat} {k : Channel} (hk : s.channels[c]? = some k) :
    tickStep c s = s.applyRun c k.dispatch := by
  cases he : k.tickEnabled with
  | true => rw [tickStep_enabled hk he, Channel.dispatch, he, cond_true]
  | false =>
    rw [tickStep_disabled hk (Bool.eq_false_iff.mp he), Channel.dispatch, he, cond_false, applyRun_start hk]

/-- The dispatcher's step on id `c`: it modifies the entry `c` of the channels and appends to the history. -/
theorem tickStep_eq (c : Nat) (s : State) :
    tickStep c s = { s with
      channels := s.channels.modify c fun k => k.dispatch.chan,
      history := s.history ++ dispatchEvents c s.channels } := by
  cases hk : s.channels[c]? with
  | none =>
    have hlen := List.getElem?_eq_none_iff.mp hk
    simp only [tickStep_missing hlen, List.modify_eq_self hlen, dispatchEvents, hk, Option.elim_none, List.append_nil]
  | some k =>
    rw [tickStep_found hk, List.modify_eq_set_getElem?, dispatchEvents, hk]
    rfl

/-- The turn on one id does not change what the turn on another emits. -/
theorem dispatchEvents_modify_ne {c d : Nat} (h : c ≠ d) (g : Channel → Channel) (channels : List Channel) :
    dispatchEvents d (channels.modify c g) = dispatchEvents d channels := by
  rw [dispatchEvents, List.getElem?_modify_ne g channels h, dispatchEvents]

/-- Two TICKs of different channels, one after the other: each does what it does alone. -/
theorem run_two_ticks {c d : Nat} (h : c ≠ d) (s : State) (rest : List Action) :
    core.run 2 { s with schedule := .tick c :: .tick d :: rest } = .next { s with
      schedule := rest,
      channels := (s.channels.modify c fun k => k.dispatch.chan).modify d fun k => k.dispatch.chan,
      history := s.history ++ dispatchEvents c s.channels ++ dispatchEvents d s.channels } := by
  rw [run_succ 1 (step_tick rfl), tickStep_eq, run_succ 0 (step_tick rfl), tickStep_eq, dispatchEvents_modify_ne h]
  rfl

/-- Settles O56: the two orders modify the same two entries of the channels, and modifications of different entries
commute. -/
theorem ticksOfTwoChannelsCommute : Obligations.TicksOfTwoChannelsCommute := by
  intro s c d rest hne
  refine ⟨_, _, _, _, dispatchEvents c s.channels, dispatchEvents d s.channels, step_tick rfl, ?_, step_tick rfl, ?_,
    run_two_ticks hne s rest, rfl, run_two_ticks hne.symm s rest, rfl, ?_⟩
  · rw [tickStep_eq]
  · rw [tickStep_eq]
  · rw [List.modify_modify_ne _ _ _ hne]

end Sys2Proof.Machine

/-! # Reset and hazards (70_reset_and_hazards.md)

The block waits for the host after reset (R261), and of a paused channel at most the event already pending can be taken
(R268). -/

namespace Sys2Proof.Machine

/-! ## After reset (R261) -/

/-- Where every channel is free, a timer step of any channel is passed over (R145, R148). -/
theorem step_timer_of_all_free {s : State} {a : Action} {rest : List Action}
    (hfree : ∀ k ∈ s.channels, k = Channel.free k.cfg) (hs : s.schedule = a :: rest) (ha : a.isTimerStep = true) :
    step s = .next { s with schedule := rest } := by
  cases a with
  | elapse c =>
    rw [step_elapse hs]
    rcases elapseStep_cases c { s with schedule := rest } with hself | ⟨k, hk, hen, _⟩
    · rw [hself]
    · rw [hfree k (List.mem_of_getElem? hk)] at hen
      cases hen
  | tick c =>
    rw [step_tick hs]
    rcases tickStep_cases c { s with schedule := rest } with hself | ⟨k, hk, hen, _⟩
    · rw [hself]
    · rw [hfree k (List.mem_of_getElem? hk)] at hen
      cases hen
  | memRead _ _ => cases ha
  | memWrite _ _ _ => cases ha
  | reset => cases ha

/-- Where every channel is free, a run of timer steps uses up the schedule and changes nothing else. -/
theorem run_timers_of_all_free {s : State} (hfree : ∀ k ∈ s.channels, k = Channel.free k.cfg) {timers : List Action}
    (htimers : ∀ a ∈ timers, a.isTimerStep = true) :
    core.run timers.length { s with schedule := timers } = .next { s with schedule := [] } := by
  induction timers with
  | nil => rfl
  | cons a rest ih =>
    obtain ⟨ha, hrest⟩ := List.forall_mem_cons.mp htimers
    have hstep := step_timer_of_all_free (s := { s with schedule := a :: rest }) hfree rfl ha
    exact (run_succ rest.length hstep).trans (ih hrest)

/-- Settles O55: reset leaves every channel free and the schedule empty. -/
theorem resetBlockWaitsForTheHost : Obligations.ResetBlockWaitsForTheHost :=
  fun _ _ htimers => run_timers_of_all_free (fun _ hk => resetWith_channels_free hk) htimers

/-! ## A paused channel (R268) -/

/-- A TICK releases its channel or leaves `PAUSED` as it is (R151, R154, R155). -/
theorem tick_free_or_paused_eq (k : Channel) :
    k.tick.chan = Channel.free k.cfg ∨ k.tick.chan.paused = k.paused := by
  by_cases h0 : k.repeats = 0#32
  · exact .inl (congrArg ChannelRun.chan (tick_exhausted k h0))
  cases hd : k.done with
  | false => exact .inr (congrArg (·.chan.paused) (tick_intermediate k h0 hd))
  | true =>
    by_cases h1 : k.repeats = 1#32
    · exact .inl (congrArg ChannelRun.chan (tick_last k h1 hd))
    · exact .inr (congrArg (·.chan.paused) (tick_reload k h0 h1 hd))

theorem callbacksOf_tick_le_one (c : Nat) (k : Channel) :
    callbacksOf c (k.tick.events.map (Event.channel c)) ≤ 1 := by
  rw [callbacksOf_tick]
  split <;> decide

/-- Settles O53, by induction on the schedule: no ELAPSE of the paused channel is enabled, so only the event pending at
the start can be taken; its TICK leaves the channel free, where `freeChannelStaysQuiet` goes on, or paused with nothing
pending. -/
theorem pausedChannelCallsBackAtMostOnce : Obligations.PausedChannelCallsBackAtMostOnce := by
  intro s t c k hk hp htimers ht
  induction hs : s.schedule generalizing s k with
  | nil =>
    rw [hs] at ht
    injection ht with hst
    rw [hst]
    exact Nat.le_add_right _ _
  | cons a rest ih =>
    rw [hs, List.forall_mem_cons] at htimers
    obtain ⟨ha, hrest⟩ := htimers
    obtain ⟨u, hu⟩ := step_timer_next hs ha
    obtain ⟨hus, hcases⟩ := step_quiet_cases hs (isQuiet_of_isTimerStep ha) hk hu
    have hrest' : ∀ a ∈ u.schedule, a.isTimerStep = true := hus.symm ▸ hrest
    have hrun : core.run u.schedule.length u = .next t := by
      rwa [hs, List.length_cons, run_succ _ hu, ← hus] at ht
    rcases hcases with ⟨_, hen, _⟩ | ⟨_, hen, huk, hh⟩ | ⟨_, _, huk, es, hh, hother⟩
    · obtain ⟨_, _, hrunning, _⟩ := k.elapseEnabled_iff.mp hen
      exact absurd (hp.symm.trans hrunning) (by decide)
    · obtain ⟨hpending, _⟩ := k.tickEnabled_iff.mp hen
      have hquiet : callbacksOf c t.history ≤ callbacksOf c u.history := by
        rcases tick_free_or_paused_eq k with hfree | hpaused
        · obtain ⟨_, es, hes, hother⟩ := freeChannelStaysQuiet u t c k.cfg (hfree ▸ huk) hrest' hrun
          rw [hes, callbacksOf_not_isOf hother]
        · have hnext := ih u k.tick.chan huk (hpaused.trans hp) hrest' hrun hus
          rwa [tick_pending, if_neg Bool.false_ne_true] at hnext
      rw [if_pos hpending]
      calc callbacksOf c t.history
        _ ≤ callbacksOf c u.history := hquiet
        _ = callbacksOf c s.history + callbacksOf c (k.tick.events.map (Event.channel c)) := by
          rw [hh, callbacksOf_append]
        _ ≤ callbacksOf c s.history + 1 := Nat.add_le_add_left (callbacksOf_tick_le_one c k) _
    · have hnext := ih u k huk hp hrest' hrun hus
      rwa [hh, callbacksOf_not_isOf hother] at hnext

end Sys2Proof.Machine
